-- ==== Sys2Proof/Word.lean ====
section
/-! DEFINITION. The data types of the core: word, byte, symbol, command word (spec 00_scope.md R6, R8). -/

namespace Sys2Proof

/-- A word: an unsigned 32-bit value (R6 `WORDW`, R8). `+` on it is `+32`, addition mod 2^32. -/
abbrev Word := BitVec 32

/-- A byte of a message or of `BUF` (R14). -/
abbrev Byte := BitVec 8

/-- A symbol of an alphabet, an output character (R6 `CHARW`). -/
abbrev Symbol := BitVec 8

/-- A command word `CMD`: `OP` in bits 39:32, `ARG` in bits 31:0 (30_encoding.md R60). -/
abbrev Command := BitVec 40

end Sys2Proof
end

