-- ==== Sys2Proof/Config.lean ====
section
/-! DEFINITION. The parameter of the core that the spec leaves open, and the free values that stand for what the
spec calls unspecified (00_scope.md R6, 10_state.md R29). -/

namespace Sys2Proof

/-- The one open parameter of R6: the capacity of the encoder word buffer `EW`, in words. State carries it (CSR 8
`CFG` of 10_state.md R24) and no command writes it: notes/assumptions/1.md. -/
structure Config where
  EWMAX : Nat
  deriving DecidableEq, Repr

namespace Config

/-- R6: "any integer with 8 <= EWMAX <= 8192". -/
def legal (c : Config) : Bool := decide (8 ≤ c.EWMAX) && decide (c.EWMAX ≤ 8192)

/-- R6 `OSMAX`: the capacity of the output string register, "8 * EWMAX". -/
def OSMAX (c : Config) : Nat := 8 * c.EWMAX

/-- DESIGN CHOICE (notes/assumptions/1.md): the parameter value of `State.reset`, the one that the spec's test vectors
use (R6: "the test vectors of 95_test_vectors.md use 16"). Statements hold for every legal value. -/
def ofTestVectors : Config := { EWMAX := 16 }

end Config

/-! The FREE VALUES of a reset (notes/assumptions/4.md): the first argument counts the resets, the second is the index of
the element. R29: "a model must not assume zero or any other value". They have no body, so nothing can be proved of a
value of theirs. -/

/-- `H[i]` after the n-th reset. -/
opaque Config.freeH : Nat → Nat → Word

/-- The working register number `i` (0 for `a` to 7 for `h`) after the n-th reset. -/
opaque Config.freeWorking : Nat → Nat → Word

/-- `W[i]` after the n-th reset. -/
opaque Config.freeW : Nat → Nat → Word

/-- `BUF[i]` after the n-th reset. -/
opaque Config.freeBUF : Nat → Nat → Byte

/-- `EW[i]` after the n-th reset. -/
opaque Config.freeEW : Nat → Nat → Word

/-- `OSTR[i]` after the n-th reset. -/
opaque Config.freeOSTR : Nat → Nat → Symbol

end Sys2Proof
end

