-- ==== Sys2Proof/Machine/Constants.lean ====
section
/-! DEFINITION. The constants of the core, which are not state: the initial hash values, the round constants and the
default alphabets (41_compressor.md R116, R117, 42_base16.md R136, 43_base64v.md R156). -/

namespace Sys2Proof.Machine

/-- R117: the initial hash values, printed by the source. -/
def IV : Vector Word 8 :=
  #v[0x6a09e667, 0xbb67ae85, 0x3c6ef372, 0xa54ff53a, 0x510e527f, 0x9b05688c, 0x1f83d9ab, 0x5be0cd19]

/-- R116: the table of the round constants. "Row `r` holds `K[4r]` to `K[4r+3]`." PRESUMED by the spec
(notes/assumptions/9.md). -/
def Krows : Vector (Vector Word 4) 16 :=
  #v[#v[0x428a2f98, 0x71374491, 0xb5c0fbcf, 0xe9b5dba5],
    #v[0x3956c25b, 0x59f111f1, 0x923f82a4, 0xab1c5ed5],
    #v[0xd807aa98, 0x12835b01, 0x243185be, 0x550c7dc3],
    #v[0x72be5d74, 0x80deb1fe, 0x9bdc06a7, 0xc19bf174],
    #v[0xe49b69c1, 0xefbe4786, 0x0fc19dc6, 0x240ca1cc],
    #v[0x2de92c6f, 0x4a7484aa, 0x5cb0a9dc, 0x76f988da],
    #v[0x983e5152, 0xa831c66d, 0xb00327c8, 0xbf597fc7],
    #v[0xc6e00bf3, 0xd5a79147, 0x06ca6351, 0x14292967],
    #v[0x27b70a85, 0x2e1b2138, 0x4d2c6dfc, 0x53380d13],
    #v[0x650a7354, 0x766a0abb, 0x81c2c92e, 0x92722c85],
    #v[0xa2bfe8a1, 0xa81a664b, 0xc24b8b70, 0xc76c51a3],
    #v[0xd192e819, 0xd6990624, 0xf40e3585, 0x106aa070],
    #v[0x19a4c116, 0x1e376c08, 0x2748774c, 0x34b0bcb5],
    #v[0x391c0cb3, 0x4ed8aa4a, 0x5b9cca4f, 0x682e6ff3],
    #v[0x748f82ee, 0x78a5636f, 0x84c87814, 0x8cc70208],
    #v[0x90befffa, 0xa4506ceb, 0xbef9a3f7, 0xc67178f2]]

/-- R116: `K[0..63]`, the rows one after another. -/
def K : Vector Word 64 := Krows.flatten

/-- R136: the default Base16 alphabet, the ASCII codes of `0123456789abcdef` (notes/assumptions/9.md for ASCII). -/
def D16 : Vector Symbol 16 :=
  #v[0x30, 0x31, 0x32, 0x33, 0x34, 0x35, 0x36, 0x37, 0x38, 0x39, 0x61, 0x62, 0x63, 0x64, 0x65, 0x66]

/-- R156: `D64[0..25]`, the ASCII codes of `A` to `Z`. -/
def D64upper : Vector Symbol 26 :=
  #v[0x41, 0x42, 0x43, 0x44, 0x45, 0x46, 0x47, 0x48, 0x49, 0x4A, 0x4B, 0x4C, 0x4D,
    0x4E, 0x4F, 0x50, 0x51, 0x52, 0x53, 0x54, 0x55, 0x56, 0x57, 0x58, 0x59, 0x5A]

/-- R156: `D64[26..51]`, the ASCII codes of `a` to `z`. -/
def D64lower : Vector Symbol 26 :=
  #v[0x61, 0x62, 0x63, 0x64, 0x65, 0x66, 0x67, 0x68, 0x69, 0x6A, 0x6B, 0x6C, 0x6D,
    0x6E, 0x6F, 0x70, 0x71, 0x72, 0x73, 0x74, 0x75, 0x76, 0x77, 0x78, 0x79, 0x7A]

/-- R156: `D64[52..63]`, the ASCII codes of `0` to `9`, `.` and `_`. -/
def D64tail : Vector Symbol 12 :=
  #v[0x30, 0x31, 0x32, 0x33, 0x34, 0x35, 0x36, 0x37, 0x38, 0x39, 0x2E, 0x5F]

/-- R156: the default Base64-variant alphabet. -/
def D64 : Vector Symbol 64 := D64upper ++ D64lower ++ D64tail

end Sys2Proof.Machine
end

