-- ==== Sys2Proof/Machine/State.lean ====
section
/-! DEFINITION. The state of one core (10_state.md), the two channels between it and the host, the model's own counter of
resets, and the state after reset (R29). Plain data. -/

namespace Sys2Proof.Machine

/-- `PHASE` (R16), with its three legal values: "The value 3 never occurs" (notes/assumptions/13.md). -/
inductive Phase
  /-- IDLE = 0: no message open and no valid digest. -/
  | idle
  /-- ABSORB = 1: a message is open. -/
  | absorb
  /-- DONE = 2: the digest of the last message is in `H`. -/
  | done
  deriving DecidableEq, Repr

/-- The value of the 2-bit field `PHASE` (R16). -/
def Phase.bits : Phase → BitVec 2
  | .idle => 0
  | .absorb => 1
  | .done => 2

/-- The fault codes of 60_exceptions.md R181. Every one of them is taken: a next state, by R190. -/
inductive FaultCode
  /-- 0x01 E_ILLOP: `OP` is unassigned (R182). -/
  | illop
  /-- 0x02 E_RSVD: a reserved bit of `ARG` is 1, or `CE = 0` with `CAP != 0` (R183). -/
  | rsvd
  /-- 0x03 E_PHASE: `PHASE` is not the one the command needs (R184). -/
  | phase
  /-- 0x04 E_DOMAIN: `ABS` with `code > 255` (R185). -/
  | domain
  /-- 0x05 E_RANGE: an index or length operand outside its range (R186). -/
  | range
  /-- 0x06 E_LENOVF: `ABS` with `LEN = 2^29 - 1` (R187). -/
  | lenovf
  /-- 0x07 E_EWFULL: `EWPUSH` with `EN = EWMAX` (R188). -/
  | ewfull
  deriving DecidableEq, Repr

/-- The code column of R181. -/
def FaultCode.code : FaultCode → BitVec 8
  | .illop => 0x01
  | .rsvd => 0x02
  | .phase => 0x03
  | .domain => 0x04
  | .range => 0x05
  | .lenovf => 0x06
  | .ewfull => 0x07

/-- The class column of R181: E_DOMAIN and E_LENOVF are terminal (R191), the others are protocol faults. -/
def FaultCode.terminal : FaultCode → Bool
  | .illop => false
  | .rsvd => false
  | .phase => false
  | .domain => true
  | .range => false
  | .lenovf => true
  | .ewfull => false

/-- The eight working registers of the compressor (R12). -/
structure Working where
  a : Word
  b : Word
  c : Word
  d : Word
  e : Word
  f : Word
  g : Word
  h : Word
  deriving DecidableEq, Repr

/-- The state of the padder, packer, scheduler and compressor (R11 to R16). -/
structure HashUnit where
  /-- running hash state; the digest when `PHASE = DONE` (R11) -/
  H : Vector Word 8
  /-- working registers `a` to `h` (R12) -/
  wr : Working
  /-- message schedule (R13) -/
  W : Vector Word 64
  /-- bytes of the block being filled (R14) -/
  BUF : Vector Byte 64
  /-- message bytes absorbed since `HINIT` (R15) -/
  LEN : BitVec 29
  /-- R16 -/
  PHASE : Phase
  deriving DecidableEq, Repr

/-- The state of the two encoders (R19 to R22). -/
structure EncUnit where
  /-- encoder word buffer, `EWMAX` words (R19) -/
  EW : List Word
  /-- number of valid words in `EW` (R19) -/
  EN : BitVec 14
  /-- custom Base16 alphabet (R20) -/
  A16 : Vector Symbol 16
  /-- number of symbols of the custom Base16 alphabet (R20) -/
  A16LEN : BitVec 5
  /-- custom Base64-variant alphabet (R20) -/
  A64 : Vector Symbol 64
  /-- output string register, `OSMAX` symbols (R21) -/
  OSTR : List Symbol
  /-- length of the output string (R21) -/
  OLEN : BitVec 17
  /-- accumulator of the Base64-variant encoder (R22) -/
  ACC : BitVec 21
  /-- bit count of the Base64-variant encoder, signed, two's complement (R22; notes/assumptions/14.md) -/
  BC : BitVec 6
  deriving DecidableEq, Repr

/-- The fault record (R23). -/
structure FaultRecord where
  /-- sticky fault flag -/
  EF : Bool
  /-- code of the recorded fault -/
  ECAUSE : BitVec 8
  /-- opcode of the command that caused it -/
  EOP : BitVec 8
  /-- argument of the command that caused it -/
  EARG : BitVec 32
  deriving DecidableEq, Repr

/-- A response word `RSP`: `CODE` in bits 39:32, `DATA` in bits 31:0 (30_encoding.md R61). -/
structure Response where
  CODE : BitVec 8
  DATA : BitVec 32
  deriving DecidableEq, Repr

/-- The 40 bits of a response (R61). -/
def Response.word (r : Response) : BitVec 40 := r.CODE ++ r.DATA

/-- What the host does to the core (70_reset_and_hazards.md R217): it sends a command word, or raises the `rst` input,
between commands (`none`) or while the command `w` is in progress (`some w`, which is then abandoned, R210). -/
inductive HostInput
  | cmd (w : Command)
  | rst (inProgress : Option Command)
  deriving DecidableEq, Repr

/-- The state: one core, what the host still has to send it, and what it has answered. -/
structure State where
  /-- the parameter `EWMAX` (R6; CSR 8 `CFG` of R24); nothing writes it (notes/assumptions/1.md) -/
  cfg : Config
  hash : HashUnit
  enc : EncUnit
  err : FaultRecord
  /-- what the host sends, oldest first (notes/assumptions/2.md) -/
  cmds : List HostInput
  /-- the responses produced, oldest first (notes/assumptions/2.md) -/
  rsps : List Response
  /-- the MODEL's own: how many resets have happened, the first argument of the free values of `Config` that the next
  reset takes (notes/assumptions/5.md) -/
  fresh : Nat
  deriving DecidableEq, Repr

/-- Why the machine stops with a fault: NEVER. The spec's faults are taken (R180: "a fault does not stop the core"), and
93_implementation_defined.md says "Nothing in this core is `stuck`"; so this type has no constructor, which is safe: no
state of the model ends here. -/
inductive Fault
  deriving DecidableEq, Repr

/-- Why an instruction has no meaning. -/
inductive Refusal
  /-- Raised only by an arm of `exec` that has no meaning yet; no arm is such. Safe: the run stops. -/
  | notModelled (mnemonic : String)
  deriving DecidableEq, Repr

/-- What a step answers. -/
abbrev Result := Host.Outcome State Fault Refusal

/-- The fault record after reset, and after `CLRE` (R23: "clear all four to 0"). -/
def FaultRecord.clear : FaultRecord := { EF := false, ECAUSE := 0, EOP := 0, EARG := 0 }

/-- The machine right after reset (R29). `LEN`, `PHASE`, `EN`, `A16`, `A16LEN`, `A64`, `OLEN`, `ACC`, `BC` and the fault
record are the spec's. DESIGN CHOICE, unsafe (notes/assumptions/3.md): `H`, `a` to `h`, `W`, `BUF`, `EW`, `OSTR`, which
R29 leaves unspecified, are 0 here. DESIGN CHOICE (1.md, 2.md, 5.md): `EWMAX` is 16, both channels are empty, no reset is
counted. -/
def State.reset : State where
  cfg := Config.ofTestVectors
  hash :=
    { H := Vector.replicate 8 0
      wr := { a := 0, b := 0, c := 0, d := 0, e := 0, f := 0, g := 0, h := 0 }
      W := Vector.replicate 64 0
      BUF := Vector.replicate 64 0
      LEN := 0
      PHASE := .idle }
  enc :=
    { EW := List.replicate Config.ofTestVectors.EWMAX 0
      EN := 0
      A16 := D16
      A16LEN := 16
      A64 := D64
      OSTR := List.replicate Config.ofTestVectors.OSMAX 0
      OLEN := 0
      ACC := 0
      BC := 0 }
  err := FaultRecord.clear
  cmds := []
  rsps := []
  fresh := 0

end Sys2Proof.Machine
end

