-- ==== Sys2Proof/Machine/Operands.lean ====
section
/-! DEFINITION. The operand checks and operand values of the six formats (30_encoding.md R62, R63, R66): fields are
unsigned and used as they stand. -/

namespace Sys2Proof.Machine

/-- Format N: a reserved bit is 1 (`ARG != 0`). -/
def reservedN (rsvd : BitVec 32) : Bool := rsvd != 0

/-- Format I: a reserved bit is 1 (`ARG[31:16] != 0`). -/
def reservedI (rsvd : BitVec 16) : Bool := rsvd != 0

/-- Format S: a reserved bit is 1 (`ARG & 0xFF00FF00 != 0`). -/
def reservedS (rsvdHi rsvdLo : BitVec 8) : Bool := rsvdHi != 0 || rsvdLo != 0

/-- Format L: `CE = 0` with `CAP != 0`. -/
def reservedL (ce : Bool) (cap : BitVec 30) : Bool := !ce && cap != 0

/-- `code > 255` (R90, R95): the code has no byte value. -/
def codeOutOfDomain (code : BitVec 32) : Bool := decide (255 < code.toNat)

/-- `code[7:0]`, the byte of a code in the domain (R90: `byte_of_code(code)` equals `code`). -/
def byteOfCode (code : BitVec 32) : Byte := code.setWidth 8

/-- The cap of format L as the encoders use it: a cap is given only where `CE = 1` (R62). -/
def capOf (ce : Bool) (cap : BitVec 30) : Option Nat := if ce then some cap.toNat else none

/-- Position `p` is kept under the cap: `CE = 0 or p < CAP` (R143, R164). -/
def keeps (cap : Option Nat) (p : Nat) : Bool :=
  match cap with
  | none => true
  | some c => decide (p < c)

/-- The length of a string of natural length `p` under the cap: `if CE = 1 and CAP < p` then `CAP` else `p`. -/
def cappedLength (cap : Option Nat) (p : Nat) : Nat :=
  match cap with
  | none => p
  | some c => if c < p then c else p

end Sys2Proof.Machine
end

