-- ==== Sys2Proof/Syntax.lean ====
section
/-! DEFINITION. The 16 commands of 30_encoding.md R64, one constructor per row of opcode_table.json, with every field
of the row, the reserved ones included, so that each 40-bit word with an assigned opcode is exactly one term. -/

namespace Sys2Proof

/-- The six argument formats of R62. -/
inductive Format
  /-- no operand -/
  | N
  /-- character code -/
  | C
  /-- word -/
  | W
  /-- index or small number -/
  | I
  /-- symbol store -/
  | S
  /-- encoder options -/
  | L
  deriving DecidableEq, Repr

/-- A command. `rsvd`, `rsvdHi`, `rsvdLo` are the reserved bits of its format (R62, R66); a well-formed command has 0
there, and the command's own rule raises E_RSVD where they are not 0. -/
inductive Instr
  /-- 0x01, format I: read control or status register `idx` (R170). -/
  | rdcsr (rsvd : BitVec 16) (idx : BitVec 16)
  /-- 0x02, format N: clear the fault record (R171). -/
  | clre (rsvd : BitVec 32)
  /-- 0x03, format N: soft reset (R172). -/
  | srst (rsvd : BitVec 32)
  /-- 0x10, format N: start a message (R94). -/
  | hinit (rsvd : BitVec 32)
  /-- 0x11, format C: absorb one message character (R95). -/
  | abs (code : BitVec 32)
  /-- 0x12, format N: pad, compress, make the digest valid (R97). -/
  | hfin (rsvd : BitVec 32)
  /-- 0x13, format I: read digest word `idx` (R125). -/
  | hrd (rsvd : BitVec 16) (idx : BitVec 16)
  /-- 0x20, format N: empty the encoder word buffer (R138). -/
  | ewclr (rsvd : BitVec 32)
  /-- 0x21, format W: append one word to the encoder input (R139). -/
  | ewpush (word : BitVec 32)
  /-- 0x22, format N: make the digest the encoder input (R140). -/
  | ewdig (rsvd : BitVec 32)
  /-- 0x23, format S: write one symbol of the custom Base16 alphabet (R141). -/
  | a16set (rsvdHi : BitVec 8) (idx : BitVec 8) (rsvdLo : BitVec 8) (ch : BitVec 8)
  /-- 0x24, format I: set the length of the custom Base16 alphabet (R142). -/
  | a16len (rsvd : BitVec 16) (idx : BitVec 16)
  /-- 0x25, format S: write one symbol of the custom Base64-variant alphabet (R163). -/
  | a64set (rsvdHi : BitVec 8) (idx : BitVec 8) (rsvdLo : BitVec 8) (ch : BitVec 8)
  /-- 0x28, format L: Base16-encode the word buffer; `ce`, `sel`, `cap` are `CE`, `AS`, `CAP` (R143). -/
  | enc16 (ce : Bool) (sel : Bool) (cap : BitVec 30)
  /-- 0x29, format L: encode the word buffer with the Base64 variant (R164). -/
  | enc64 (ce : Bool) (sel : Bool) (cap : BitVec 30)
  /-- 0x2A, format I: read character `idx` of the output string (R144). -/
  | ord (rsvd : BitVec 16) (idx : BitVec 16)
  deriving DecidableEq, Repr

namespace Instr

/-- The format column of R64. -/
def format : Instr → Format
  | rdcsr _ _ => .I
  | clre _ => .N
  | srst _ => .N
  | hinit _ => .N
  | abs _ => .C
  | hfin _ => .N
  | hrd _ _ => .I
  | ewclr _ => .N
  | ewpush _ => .W
  | ewdig _ => .N
  | a16set _ _ _ _ => .S
  | a16len _ _ => .I
  | a64set _ _ _ _ => .S
  | enc16 _ _ _ => .L
  | enc64 _ _ _ => .L
  | ord _ _ => .I

end Instr

end Sys2Proof
end

