-- ==== Sys2Proof/Decode.lean ====
section
/-! DEFINITION. Decoding of 40-bit command words, and the encoder (30_encoding.md R60, R62, R64, R65). `OP` alone selects
the command; the only words that no command has are those of an unassigned opcode. -/

namespace Sys2Proof

/-- Why a command word has no instruction. -/
inductive DecodeError
  /-- `OP` is one of the 240 unassigned values of R65; the step raises E_ILLOP (60_exceptions.md R182). -/
  | unassignedOpcode (op : BitVec 8)
  deriving DecidableEq, Repr

/-- `OP = CMD[39:32]` (R60). -/
def Command.op (w : Command) : BitVec 8 := w.extractLsb' 32 8

/-- `ARG = CMD[31:0]` (R60). -/
def Command.arg (w : Command) : BitVec 32 := w.extractLsb' 0 32

/-! The fields of `ARG`, format by format (R62). -/

/-- Format I, bits 31:16: reserved. -/
def fieldIRsvd (arg : BitVec 32) : BitVec 16 := arg.extractLsb' 16 16

/-- Format I, bits 15:0: `idx`. -/
def fieldIIdx (arg : BitVec 32) : BitVec 16 := arg.extractLsb' 0 16

/-- Format S, bits 31:24: reserved. -/
def fieldSRsvdHi (arg : BitVec 32) : BitVec 8 := arg.extractLsb' 24 8

/-- Format S, bits 23:16: `idx`. -/
def fieldSIdx (arg : BitVec 32) : BitVec 8 := arg.extractLsb' 16 8

/-- Format S, bits 15:8: reserved. -/
def fieldSRsvdLo (arg : BitVec 32) : BitVec 8 := arg.extractLsb' 8 8

/-- Format S, bits 7:0: `ch`. -/
def fieldSCh (arg : BitVec 32) : BitVec 8 := arg.extractLsb' 0 8

/-- Format L, bit 31: `CE`. -/
def fieldCE (arg : BitVec 32) : Bool := arg.getLsbD 31

/-- Format L, bit 30: `AS`. -/
def fieldAS (arg : BitVec 32) : Bool := arg.getLsbD 30

/-- Format L, bits 29:0: `CAP`. -/
def fieldCAP (arg : BitVec 32) : BitVec 30 := arg.extractLsb' 0 30

/-- The opcode map of R64. -/
def decodeFields (op : BitVec 8) (arg : BitVec 32) : Except DecodeError Instr :=
  match op with
  | 0x01#8 => .ok (.rdcsr (fieldIRsvd arg) (fieldIIdx arg))
  | 0x02#8 => .ok (.clre arg)
  | 0x03#8 => .ok (.srst arg)
  | 0x10#8 => .ok (.hinit arg)
  | 0x11#8 => .ok (.abs arg)
  | 0x12#8 => .ok (.hfin arg)
  | 0x13#8 => .ok (.hrd (fieldIRsvd arg) (fieldIIdx arg))
  | 0x20#8 => .ok (.ewclr arg)
  | 0x21#8 => .ok (.ewpush arg)
  | 0x22#8 => .ok (.ewdig arg)
  | 0x23#8 => .ok (.a16set (fieldSRsvdHi arg) (fieldSIdx arg) (fieldSRsvdLo arg) (fieldSCh arg))
  | 0x24#8 => .ok (.a16len (fieldIRsvd arg) (fieldIIdx arg))
  | 0x25#8 => .ok (.a64set (fieldSRsvdHi arg) (fieldSIdx arg) (fieldSRsvdLo arg) (fieldSCh arg))
  | 0x28#8 => .ok (.enc16 (fieldCE arg) (fieldAS arg) (fieldCAP arg))
  | 0x29#8 => .ok (.enc64 (fieldCE arg) (fieldAS arg) (fieldCAP arg))
  | 0x2A#8 => .ok (.ord (fieldIRsvd arg) (fieldIIdx arg))
  | other => .error (.unassignedOpcode other)

/-- Decoding of a command word, total: "the core decodes each 40-bit word on its own" (R60). -/
def decode (w : Command) : Except DecodeError Instr := decodeFields w.op w.arg

/-- The opcode column of R64. -/
def Instr.opcode : Instr → BitVec 8
  | .rdcsr _ _ => 0x01#8
  | .clre _ => 0x02#8
  | .srst _ => 0x03#8
  | .hinit _ => 0x10#8
  | .abs _ => 0x11#8
  | .hfin _ => 0x12#8
  | .hrd _ _ => 0x13#8
  | .ewclr _ => 0x20#8
  | .ewpush _ => 0x21#8
  | .ewdig _ => 0x22#8
  | .a16set _ _ _ _ => 0x23#8
  | .a16len _ _ => 0x24#8
  | .a64set _ _ _ _ => 0x25#8
  | .enc16 _ _ _ => 0x28#8
  | .enc64 _ _ _ => 0x29#8
  | .ord _ _ => 0x2A#8

/-- Format I assembled: rsvd in bits 31:16, `idx` in bits 15:0. -/
def argI (rsvd idx : BitVec 16) : BitVec 32 := rsvd ++ idx

/-- Format S assembled: rsvd 31:24, `idx` 23:16, rsvd 15:8, `ch` 7:0. -/
def argS (rsvdHi idx rsvdLo ch : BitVec 8) : BitVec 32 := rsvdHi ++ idx ++ rsvdLo ++ ch

/-- Format L assembled: `CE` bit 31, `AS` bit 30, `CAP` bits 29:0. -/
def argL (ce sel : Bool) (cap : BitVec 30) : BitVec 32 := BitVec.ofBool ce ++ BitVec.ofBool sel ++ cap

/-- The argument word of a command (R62). -/
def Instr.arg : Instr → BitVec 32
  | .rdcsr rsvd idx => argI rsvd idx
  | .clre rsvd => rsvd
  | .srst rsvd => rsvd
  | .hinit rsvd => rsvd
  | .abs code => code
  | .hfin rsvd => rsvd
  | .hrd rsvd idx => argI rsvd idx
  | .ewclr rsvd => rsvd
  | .ewpush word => word
  | .ewdig rsvd => rsvd
  | .a16set rsvdHi idx rsvdLo ch => argS rsvdHi idx rsvdLo ch
  | .a16len rsvd idx => argI rsvd idx
  | .a64set rsvdHi idx rsvdLo ch => argS rsvdHi idx rsvdLo ch
  | .enc16 ce sel cap => argL ce sel cap
  | .enc64 ce sel cap => argL ce sel cap
  | .ord rsvd idx => argI rsvd idx

/-- The command word of an instruction: `OP` above `ARG` (R60). -/
def encode (i : Instr) : Command := i.opcode ++ i.arg

/-- `RSVD_MASK` of R66: the reserved bits of `ARG` in each format. -/
def Format.rsvdMask : Format → BitVec 32
  | .N => 0xFFFFFFFF#32
  | .C => 0x00000000#32
  | .W => 0x00000000#32
  | .I => 0xFFFF0000#32
  | .S => 0xFF00FF00#32
  | .L => 0x00000000#32

/-- The command word that an instruction of `nbits` bits with value `w` is: one 40-bit word, bits above `nbits` zero
(notes/assumptions/16.md: one word, so the table's bit numbers are the word's own). -/
def commandOfTableWord (nbits w : Nat) : Command := BitVec.ofNat 40 (w % 2 ^ nbits)

/-- The instruction this decoder reads from the table's word `w` of `nbits` bits. -/
def decodeTableWord (nbits w : Nat) : Option Instr :=
  match decode (commandOfTableWord nbits w) with
  | .ok i => some i
  | .error _ => none

end Sys2Proof
end

