-- ==== Sys2Proof/Machine/Ops.lean ====
section
/-! DEFINITION. The operations that every command shares: the response, taking a fault and clearing its record
(60_exceptions.md R190, R192), reset (10_state.md R29), and access to the internal arrays (20_memory.md R41). -/

namespace Sys2Proof.Machine

namespace State

/-- `respond(code, data)` (00_scope.md R9): the command's single response. -/
def respond (code : BitVec 8) (data : Word) (s : State) : State :=
  { s with rsps := s.rsps ++ [{ CODE := code, DATA := data }] }

/-- `respond(OK, data)`: `OK` is 0x00 (R61). -/
def respondOk (data : Word) (s : State) : State := s.respond 0x00 data

end State

/-- The record after a fault: written only when `EF = 0`, so the first fault since the last clear is kept (R190). -/
def FaultRecord.note (c : FaultCode) (op : BitVec 8) (arg : BitVec 32) (r : FaultRecord) : FaultRecord :=
  if r.EF then r else { EF := true, ECAUSE := c.code, EOP := op, EARG := arg }

/-- A terminal fault ends the open message: `PHASE` becomes IDLE; `H`, `BUF`, `LEN` stay (R191). -/
def HashUnit.endMessage (c : FaultCode) (u : HashUnit) : HashUnit :=
  if c.terminal then { u with PHASE := .idle } else u

namespace State

/-- FAULT ENTRY (R190), the one way a fault is taken: the record, the phase, the response `(c, 0)`. -/
def faultEntry (c : FaultCode) (op : BitVec 8) (arg : BitVec 32) (s : State) : State :=
  ({ s with err := s.err.note c op arg, hash := s.hash.endMessage c }).respond c.code 0

/-- `raise c` in the rule of the command `i` (R9): fault entry with the opcode and argument of `i`. -/
def raise (c : FaultCode) (i : Instr) (s : State) : State := s.faultEntry c i.opcode i.arg

/-- THE RETURN from a fault: there is nothing to return to, the host clears the record (R192, R171). -/
def clearFault (s : State) : State := { s with err := FaultRecord.clear }

/-- RESET (R29, R210, R211): every element at its reset value. What R29 leaves unspecified takes the free values of the
reset number `fresh` (notes/assumptions/4.md). The parameter and the two channels are not the core's to reset. -/
def reinit (s : State) : State :=
  { s with
    hash :=
      { H := Vector.ofFn fun i => Config.freeH s.fresh i
        wr :=
          { a := Config.freeWorking s.fresh 0
            b := Config.freeWorking s.fresh 1
            c := Config.freeWorking s.fresh 2
            d := Config.freeWorking s.fresh 3
            e := Config.freeWorking s.fresh 4
            f := Config.freeWorking s.fresh 5
            g := Config.freeWorking s.fresh 6
            h := Config.freeWorking s.fresh 7 }
        W := Vector.ofFn fun i => Config.freeW s.fresh i
        BUF := Vector.ofFn fun i => Config.freeBUF s.fresh i
        LEN := 0
        PHASE := .idle }
    enc :=
      { EW := (List.range s.cfg.EWMAX).map (Config.freeEW s.fresh)
        EN := 0
        A16 := D16
        A16LEN := 16
        A64 := D64
        OSTR := (List.range s.cfg.OSMAX).map (Config.freeOSTR s.fresh)
        OLEN := 0
        ACC := 0
        BC := 0 }
    err := FaultRecord.clear
    fresh := s.fresh + 1 }

end State

/-! Access to the internal arrays (R41): one element at a time. -/

/-- The position of the next free byte of `BUF`: `LEN mod 64` (R14). -/
def HashUnit.fill (u : HashUnit) : Nat := u.LEN.toNat % 64

/-- `BUF[j] <- b`. The sequencer's index is below 64 in every rule; another one writes nothing (notes/assumptions/8.md). -/
def HashUnit.setBuf (j : Nat) (b : Byte) (u : HashUnit) : HashUnit := { u with BUF := u.BUF.setIfInBounds j b }

/-- `for j in lo..lo+n-1: BUF[j] <- 0x00`. -/
def HashUnit.zeroBuf (lo n : Nat) (u : HashUnit) : HashUnit :=
  (List.range' lo n).foldl (fun u j => u.setBuf j 0x00) u

/-- `EW[j] <- w`; an index at or above the capacity writes nothing (notes/assumptions/8.md). -/
def EncUnit.setEW (j : Nat) (w : Word) (u : EncUnit) : EncUnit := { u with EW := u.EW.set j w }

/-- The encoder input `EW[0..EN-1]` (R19). -/
def EncUnit.words (u : EncUnit) : List Word := u.EW.take u.EN.toNat

/-- The output string `OSTR[0..OLEN-1]` (R21). -/
def EncUnit.string (u : EncUnit) : List Symbol := u.OSTR.take u.OLEN.toNat

/-- `OSTR[j]`; below `OLEN` in every rule (notes/assumptions/8.md for an index above the capacity, which reads 0). -/
def EncUnit.getOSTR (j : Nat) (u : EncUnit) : Symbol := u.OSTR.getD j 0

end Sys2Proof.Machine
end

