-- ==== Sys2Proof/Machine/Base16.lean ====
section
/-! DEFINITION. The encoder input, the Base16 encoder and the string read-out: `EWCLR`, `EWPUSH`, `EWDIG`, `A16SET`,
`A16LEN`, `ENC16`, `ORD` (42_base16.md R138 to R144). -/

namespace Sys2Proof.Machine

/-- `EWCLR` (R138): `EN <- 0`. -/
def execEwclr (rsvd : BitVec 32) (s : State) : Result :=
  if reservedN rsvd then .next (s.raise .rsvd (.ewclr rsvd))
  else .next (State.respondOk 0 { s with enc := { s.enc with EN := 0 } })

/-- `EWPUSH word` (R139): `EW[EN] <- word`, `EN <- EN + 1`, unless `EN = EWMAX`. -/
def execEwpush (word : BitVec 32) (s : State) : Result :=
  if s.enc.EN.toNat = s.cfg.EWMAX then .next (s.raise .ewfull (.ewpush word))
  else .next (State.respondOk 0 { s with enc := { s.enc.setEW s.enc.EN.toNat word with EN := s.enc.EN + 1 } })

/-- `EWDIG` (R140): `for i in 0..7: EW[i] <- H[i]`, `EN <- 8`, in phase DONE. -/
def execEwdig (rsvd : BitVec 32) (s : State) : Result :=
  if reservedN rsvd then .next (s.raise .rsvd (.ewdig rsvd))
  else if s.hash.PHASE ≠ .done then .next (s.raise .phase (.ewdig rsvd))
  else
    let u := (List.finRange 8).foldl (fun u (i : Fin 8) => u.setEW i s.hash.H[i]) s.enc
    .next (State.respondOk 0 { s with enc := { u with EN := 8 } })

/-- `A16SET idx, ch` (R141): `A16[idx] <- ch`. -/
def execA16set (rsvdHi idx rsvdLo ch : BitVec 8) (s : State) : Result :=
  if reservedS rsvdHi rsvdLo then .next (s.raise .rsvd (.a16set rsvdHi idx rsvdLo ch))
  else if h : idx.toNat < 16 then
    .next (State.respondOk 0 { s with enc := { s.enc with A16 := s.enc.A16.set idx.toNat ch } })
  else .next (s.raise .range (.a16set rsvdHi idx rsvdLo ch))

/-- `A16LEN idx` (R142): `A16LEN <- idx[4:0]`, for 1 <= idx <= 16. -/
def execA16len (rsvd idx : BitVec 16) (s : State) : Result :=
  if reservedI rsvd then .next (s.raise .rsvd (.a16len rsvd idx))
  else if idx.toNat < 1 ∨ 16 < idx.toNat then .next (s.raise .range (.a16len rsvd idx))
  else .next (State.respondOk 0 { s with enc := { s.enc with A16LEN := idx.setWidth 5 } })

/-- `EW[j][4k+3 : 4k]` (R143): the nibble number `k` of a word. -/
def nibble (w : Word) (k : Nat) : BitVec 4 := w.extractLsb' (4 * k) 4

/-- `al[v mod t]` (R136, R143): the alphabet of `t` symbols, repeated. -/
def sym16 (al : Vector Symbol 16) (t : Nat) (v : BitVec 4) : Symbol :=
  al[v.toNat % t]'(Nat.lt_of_le_of_lt (Nat.mod_le _ _) v.isLt)

/-- The alphabet and its length that `ENC16` uses: `A16`, `A16LEN` where `AS = 1`, `D16`, 16 where `AS = 0` (R143). -/
def EncUnit.alphabet16 (sel : Bool) (u : EncUnit) : Vector Symbol 16 × Nat :=
  if sel then (u.A16, u.A16LEN.toNat) else (D16, 16)

/-- The loops of `ENC16` (R143): the output string register and `p`, the number of characters produced, as they move. -/
structure Enc16Loop where
  OSTR : List Symbol
  p : Nat
  deriving DecidableEq, Repr

/-- The body of the inner loop of `ENC16`: one character. -/
def Enc16Loop.put (cap : Option Nat) (c : Symbol) (l : Enc16Loop) : Enc16Loop :=
  { OSTR := if keeps cap l.p then l.OSTR.set l.p c else l.OSTR, p := l.p + 1 }

/-- `for k in 7 down to 0` of `ENC16`, for one word. -/
def Enc16Loop.putWord (cap : Option Nat) (al : Vector Symbol 16) (t : Nat) (l : Enc16Loop) (w : Word) : Enc16Loop :=
  [7, 6, 5, 4, 3, 2, 1, 0].foldl (fun l k => l.put cap (sym16 al t (nibble w k))) l

/-- The writes of `ENC16` (R143). -/
def EncUnit.enc16 (cap : Option Nat) (sel : Bool) (u : EncUnit) : EncUnit :=
  let at' := u.alphabet16 sel
  let l := u.words.foldl (Enc16Loop.putWord cap at'.1 at'.2) { OSTR := u.OSTR, p := 0 }
  { u with OSTR := l.OSTR, OLEN := BitVec.ofNat 17 (cappedLength cap l.p) }

/-- `ENC16 opts` (R143): Base16-encode the word buffer; the response carries `OLEN`. -/
def execEnc16 (ce sel : Bool) (cap : BitVec 30) (s : State) : Result :=
  if reservedL ce cap then .next (s.raise .rsvd (.enc16 ce sel cap))
  else
    let u := s.enc.enc16 (capOf ce cap) sel
    .next (State.respondOk (u.OLEN.setWidth 32) { s with enc := u })

/-- `ORD idx` (R144): read one character of the output string. -/
def execOrd (rsvd idx : BitVec 16) (s : State) : Result :=
  if reservedI rsvd then .next (s.raise .rsvd (.ord rsvd idx))
  else if s.enc.OLEN.toNat ≤ idx.toNat then .next (s.raise .range (.ord rsvd idx))
  else .next (s.respondOk ((s.enc.getOSTR idx.toNat).setWidth 32))

end Sys2Proof.Machine
end

