-- ==== Sys2Proof/Machine/Base64.lean ====
section
/-! DEFINITION. The Base64-variant encoder: `A64SET`, `ENC64` (43_base64v.md R163, R164). -/

namespace Sys2Proof.Machine

/-- `A64SET idx, ch` (R163): `A64[idx] <- ch`. -/
def execA64set (rsvdHi idx rsvdLo ch : BitVec 8) (s : State) : Result :=
  if reservedS rsvdHi rsvdLo then .next (s.raise .rsvd (.a64set rsvdHi idx rsvdLo ch))
  else if h : idx.toNat < 64 then
    .next (State.respondOk 0 { s with enc := { s.enc with A64 := s.enc.A64.set idx.toNat ch } })
  else .next (s.raise .range (.a64set rsvdHi idx rsvdLo ch))

/-- The alphabet that `ENC64` uses: `A64` where `AS = 1`, `D64` where `AS = 0` (R164). -/
def EncUnit.alphabet64 (sel : Bool) (u : EncUnit) : Vector Symbol 64 := if sel then u.A64 else D64

/-- `s <- ceil(32 * EN / 6)` (R164, R160): the natural length. -/
def naturalLength64 (n : Nat) : Nat := (32 * n + 5) / 6

/-- The loops of `ENC64` (R164): the output string register, `ACC`, `BC` and `q`, the position of the next symbol plus 1,
as they move. -/
structure Enc64Loop where
  OSTR : List Symbol
  ACC : BitVec 21
  BC : BitVec 6
  q : Nat
  deriving DecidableEq, Repr

namespace Enc64Loop

/-- The body of `while BC >= thr` of R164: one symbol, in front of those already produced. -/
def emit (cap : Option Nat) (al : Vector Symbol 64) (l : Enc64Loop) : Enc64Loop :=
  { OSTR := if keeps cap (l.q - 1) then l.OSTR.set (l.q - 1) (al[(l.ACC.extractLsb' 0 6).toNat]'(BitVec.isLt _)) else l.OSTR
    ACC := l.ACC >>> 6
    BC := l.BC - 6
    q := l.q - 1 }

/-- `while BC >= thr` of R164, on the signed `BC`. The number of rounds is bounded (R216): a 6-bit signed `BC` is at most
31, so six rounds always end it (notes/assumptions/12.md). -/
def drain (cap : Option Nat) (al : Vector Symbol 64) (thr : Int) : Nat → Enc64Loop → Enc64Loop
  | 0, l => l
  | fuel + 1, l => if thr ≤ l.BC.toInt then drain cap al thr fuel (l.emit cap al) else l

/-- `ACC <- ACC | (chunk << BC)`, `BC <- BC + 16` (R164). -/
def enter (chunk : BitVec 16) (l : Enc64Loop) : Enc64Loop :=
  { l with ACC := l.ACC ||| (chunk.setWidth 21 <<< l.BC.toNat), BC := l.BC + 16 }

end Enc64Loop

/-- The chunk number `i` of R164: word `EN - 1 - (i div 2)`, the low half first. -/
def chunk64 (ws : List Word) (i : Nat) : BitVec 16 :=
  let w := ws.getD (ws.length - 1 - i / 2) 0
  if i % 2 = 0 then w.extractLsb' 0 16 else w.extractLsb' 16 16

/-- The body of `for i in 0..2*EN-1` of R164. -/
def Enc64Loop.step (cap : Option Nat) (al : Vector Symbol 64) (ws : List Word) (l : Enc64Loop) (i : Nat) : Enc64Loop :=
  (l.enter (chunk64 ws i)).drain cap al (if i = 2 * ws.length - 1 then 1 else 6) 6

/-- The writes of `ENC64` (R164); `ACC` and `BC` are 0 before and after. -/
def EncUnit.enc64 (cap : Option Nat) (sel : Bool) (u : EncUnit) : EncUnit :=
  let n := naturalLength64 u.words.length
  let start : Enc64Loop := { OSTR := u.OSTR, ACC := 0, BC := 0, q := n }
  let l := (List.range (2 * u.words.length)).foldl (Enc64Loop.step cap (u.alphabet64 sel) u.words) start
  { u with OSTR := l.OSTR, OLEN := BitVec.ofNat 17 (cappedLength cap n), ACC := 0, BC := 0 }

/-- `ENC64 opts` (R164): encode the word buffer with the Base64 variant; the response carries `OLEN`. -/
def execEnc64 (ce sel : Bool) (cap : BitVec 30) (s : State) : Result :=
  if reservedL ce cap then .next (s.raise .rsvd (.enc64 ce sel cap))
  else
    let u := s.enc.enc64 (capOf ce cap) sel
    .next (State.respondOk (u.OLEN.setWidth 32) { s with enc := u })

end Sys2Proof.Machine
end

