-- ==== Sys2Proof/Machine/Flags.lean ====
section
/-! DEFINITION. The flag-like state and the status registers. There are no condition codes (10_state.md R26); the only
flags are `PHASE` and `EF`, and they are read in the word STATUS. -/

namespace Sys2Proof.Machine

/-- STATUS (R24, R170): `{0[28:0], EF, PHASE}`. -/
def statusWord (s : State) : Word := 0#29 ++ BitVec.ofBool s.err.EF ++ s.hash.PHASE.bits

/-- The control and status registers 0 to 8 (R24, the case list of R170). `none`: not a register. -/
def csrRead (n : Nat) (s : State) : Option Word :=
  match n with
  | 0 => some (statusWord s)
  | 1 => some (s.err.ECAUSE.setWidth 32)
  | 2 => some (s.err.EOP.setWidth 32)
  | 3 => some s.err.EARG
  | 4 => some (s.hash.LEN.setWidth 32)
  | 5 => some (s.enc.EN.setWidth 32)
  | 6 => some (s.enc.A16LEN.setWidth 32)
  | 7 => some (s.enc.OLEN.setWidth 32)
  | 8 => some (BitVec.ofNat 32 s.cfg.EWMAX)
  | _ => none

end Sys2Proof.Machine
end

