-- ==== Sys2Proof/Machine/Control.lean ====
section
/-! DEFINITION. The control commands `RDCSR`, `CLRE`, `SRST` (44_control.md R170 to R172). -/

namespace Sys2Proof.Machine

/-- `RDCSR idx` (R170): read a control or status register; a number above 8 raises E_RANGE. -/
def execRdcsr (rsvd idx : BitVec 16) (s : State) : Result :=
  if reservedI rsvd then .next (s.raise .rsvd (.rdcsr rsvd idx))
  else
    match csrRead idx.toNat s with
    | some v => .next (s.respondOk v)
    | none => .next (s.raise .range (.rdcsr rsvd idx))

/-- `CLRE` (R171): clear the fault record. -/
def execClre (rsvd : BitVec 32) (s : State) : Result :=
  if reservedN rsvd then .next (s.raise .rsvd (.clre rsvd))
  else .next (s.clearFault.respondOk 0)

/-- `SRST` (R172): set every element of state to its reset value, and respond. -/
def execSrst (rsvd : BitVec 32) (s : State) : Result :=
  if reservedN rsvd then .next (s.raise .rsvd (.srst rsvd))
  else .next (s.reinit.respondOk 0)

end Sys2Proof.Machine
end

