-- ==== Sys2Proof/Machine/WordFunctions.lean ====
section
/-! DEFINITION. The word functions of SHA-256 (41_compressor.md R110 to R113). -/

namespace Sys2Proof.Machine

/-- R110: circular right rotation, `((x >> n) | (x << (32 - n))) & 0xFFFFFFFF`, for 0 <= n < 32. -/
def rotr (x : Word) (n : Nat) : Word := (x >>> n) ||| (x <<< (32 - n))

/-- R111. -/
def sigma0 (x : Word) : Word := rotr x 7 ^^^ rotr x 18 ^^^ (x >>> 3)

/-- R111. -/
def sigma1 (x : Word) : Word := rotr x 17 ^^^ rotr x 19 ^^^ (x >>> 10)

/-- R112 `Sigma0`. -/
def bigSigma0 (x : Word) : Word := rotr x 2 ^^^ rotr x 13 ^^^ rotr x 22

/-- R112 `Sigma1`. -/
def bigSigma1 (x : Word) : Word := rotr x 6 ^^^ rotr x 11 ^^^ rotr x 25

/-- R113 `Ch`. -/
def ch (x y z : Word) : Word := (x &&& y) ^^^ (~~~x &&& z)

/-- R113 `Maj`. -/
def maj (x y z : Word) : Word := (x &&& y) ^^^ (x &&& z) ^^^ (y &&& z)

end Sys2Proof.Machine
end

