-- ==== Sys2Proof/Machine/Compressor.lean ====
section
/-! DEFINITION. The internal operations of the compressor and message scheduler, and `HRD` (41_compressor.md R118 to
R123, R125; `PACK` is 40_hash_input.md R96). None of the internal operations has an encoding, a fault or a response. -/

namespace Sys2Proof.Machine

namespace HashUnit

/-- `PACK(j) = {BUF[4j], BUF[4j+1], BUF[4j+2], BUF[4j+3]}` (R96): the first byte is the most significant. -/
def pack (u : HashUnit) (j : Nat) (hj : j < 16) : Word :=
  u.BUF[4 * j] ++ u.BUF[4 * j + 1] ++ u.BUF[4 * j + 2] ++ u.BUF[4 * j + 3]

/-- `W[j] <- PACK(j)`, one turn of `LOADW`. -/
def loadwAt (j : Nat) (hj : j < 16) (u : HashUnit) : HashUnit := { u with W := u.W.set j (u.pack j hj) }

/-- `LOADW` (R118): `for j in 0..15: W[j] <- PACK(j)`. -/
def loadw (u : HashUnit) : HashUnit := (List.finRange 16).foldl (fun (v : HashUnit) (j : Fin 16) => v.loadwAt j j.isLt) u

/-- `SCHED(i)` (R119), for 16 <= i <= 63. -/
def sched (i : Nat) (lo : 16 ≤ i) (hi : i < 64) (u : HashUnit) : HashUnit :=
  { u with W := u.W.set i (u.W[i - 16] + sigma0 u.W[i - 15] + u.W[i - 7] + sigma1 u.W[i - 2]) }

/-- `for i in 16..63: SCHED(i)` (R123). -/
def schedAll (u : HashUnit) : HashUnit :=
  (List.finRange 48).foldl (fun (v : HashUnit) (j : Fin 48) => v.sched (16 + j) (by omega) (by omega)) u

/-- `INITWR` (R120). -/
def initwr (u : HashUnit) : HashUnit :=
  { u with wr := { a := u.H[0], b := u.H[1], c := u.H[2], d := u.H[3], e := u.H[4], f := u.H[5], g := u.H[6], h := u.H[7] } }

end HashUnit

/-- `T1` of `ROUND(i)` (R121), for the round constant `k` and the schedule word `w`. -/
def Working.t1 (r : Working) (k w : Word) : Word := r.h + bigSigma1 r.e + ch r.e r.f r.g + k + w

/-- `T2` of `ROUND(i)` (R121). -/
def Working.t2 (r : Working) : Word := bigSigma0 r.a + maj r.a r.b r.c

/-- The eight simultaneous writes of `ROUND(i)` (R121). -/
def Working.round (k w : Word) (r : Working) : Working :=
  { h := r.g, g := r.f, f := r.e, e := r.d + r.t1 k w, d := r.c, c := r.b, b := r.a, a := r.t1 k w + r.t2 }

namespace HashUnit

/-- `ROUND(i)` (R121), for 0 <= i <= 63. -/
def round (i : Nat) (hi : i < 64) (u : HashUnit) : HashUnit := { u with wr := u.wr.round K[i] u.W[i] }

/-- `for i in 0..63: ROUND(i)` (R123). -/
def roundAll (u : HashUnit) : HashUnit := (List.finRange 64).foldl (fun (v : HashUnit) (i : Fin 64) => v.round i i.isLt) u

/-- `ADDH` (R122). -/
def addh (u : HashUnit) : HashUnit :=
  { u with
    H := #v[u.H[0] + u.wr.a, u.H[1] + u.wr.b, u.H[2] + u.wr.c, u.H[3] + u.wr.d,
            u.H[4] + u.wr.e, u.H[5] + u.wr.f, u.H[6] + u.wr.g, u.H[7] + u.wr.h] }

/-- `COMPRESS` (R123): one block, from `BUF` into `H`. -/
def compress (u : HashUnit) : HashUnit := u.loadw.schedAll.initwr.roundAll.addh

end HashUnit

/-- `HRD idx` (R125): read one digest word, in phase DONE. -/
def execHrd (rsvd idx : BitVec 16) (s : State) : Result :=
  if reservedI rsvd then .next (s.raise .rsvd (.hrd rsvd idx))
  else if s.hash.PHASE ≠ .done then .next (s.raise .phase (.hrd rsvd idx))
  else if h : idx.toNat < 8 then .next (s.respondOk s.hash.H[idx.toNat])
  else .next (s.raise .range (.hrd rsvd idx))

end Sys2Proof.Machine
end

