-- ==== Sys2Proof/Machine/HashInput.lean ====
section
/-! DEFINITION. Message input: `HINIT`, `ABS`, `HFIN` and the internal operation `PADFIN` (40_hash_input.md R94, R95,
R97). -/

namespace Sys2Proof.Machine

/-- `HINIT` (R94): `H <- IV`, `LEN <- 0`, `PHASE <- ABSORB`, in any phase. -/
def execHinit (rsvd : BitVec 32) (s : State) : Result :=
  if reservedN rsvd then .next (s.raise .rsvd (.hinit rsvd))
  else .next (State.respondOk 0 { s with hash := { s.hash with H := IV, LEN := 0, PHASE := .absorb } })

namespace HashUnit

/-- The writes of a successful `ABS` (R95): store the byte at `LEN mod 64`, count it, compress a full block. -/
def absorb (b : Byte) (u : HashUnit) : HashUnit :=
  let v : HashUnit := { u.setBuf u.fill b with LEN := u.LEN + 1 }
  if v.fill = 0 then v.compress else v

/-- `L <- 8 * LEN` (R97): "32 bits, no overflow since LEN < 2^29". -/
def bitLength (u : HashUnit) : BitVec 32 := 8 * u.LEN.setWidth 32

/-- The eight length bytes of `PADFIN`, big-endian, the high four zero (R97, 20_memory.md R43). -/
def putLength (L : BitVec 32) (u : HashUnit) : HashUnit :=
  let v := (((u.setBuf 56 0x00).setBuf 57 0x00).setBuf 58 0x00).setBuf 59 0x00
  (((v.setBuf 60 (L.extractLsb' 24 8)).setBuf 61 (L.extractLsb' 16 8)).setBuf 62 (L.extractLsb' 8 8)).setBuf 63
    (L.extractLsb' 0 8)

/-- `PADFIN` (R97): pad and compress the last block or the last two. -/
def padfin (u : HashUnit) : HashUnit :=
  let n := u.fill
  let v := u.setBuf n 0x80
  let w := if 56 ≤ n then ((v.zeroBuf (n + 1) (63 - n)).compress).zeroBuf 0 56 else v.zeroBuf (n + 1) (55 - n)
  (w.putLength u.bitLength).compress

end HashUnit

/-- `ABS code` (R95): the phase, then the domain, then the length limit; then the byte is absorbed. -/
def execAbs (code : BitVec 32) (s : State) : Result :=
  if s.hash.PHASE ≠ .absorb then .next (s.raise .phase (.abs code))
  else if codeOutOfDomain code then .next (s.raise .domain (.abs code))
  else if s.hash.LEN = 0x1FFFFFFF#29 then .next (s.raise .lenovf (.abs code))
  else .next (State.respondOk 0 { s with hash := s.hash.absorb (byteOfCode code) })

/-- `HFIN` (R97): `PADFIN`, then `PHASE <- DONE`. -/
def execHfin (rsvd : BitVec 32) (s : State) : Result :=
  if reservedN rsvd then .next (s.raise .rsvd (.hfin rsvd))
  else if s.hash.PHASE ≠ .absorb then .next (s.raise .phase (.hfin rsvd))
  else .next (State.respondOk 0 { s with hash := { s.hash.padfin with PHASE := .done } })

end Sys2Proof.Machine
end

