-- ==== Sys2Proof/Machine/Dispatch.lean ====
section
/-! DEFINITION. The one dispatch from a command to its meaning (30_encoding.md R64). -/

namespace Sys2Proof.Machine

/-- The meaning of a command: the state after it, with its one response. -/
def exec (i : Instr) (s : State) : Host.Outcome State Fault Refusal :=
  match i with
  | .rdcsr rsvd idx => Sys2Proof.Machine.execRdcsr rsvd idx s
  | .clre rsvd => Sys2Proof.Machine.execClre rsvd s
  | .srst rsvd => Sys2Proof.Machine.execSrst rsvd s
  | .hinit rsvd => Sys2Proof.Machine.execHinit rsvd s
  | .abs code => Sys2Proof.Machine.execAbs code s
  | .hfin rsvd => Sys2Proof.Machine.execHfin rsvd s
  | .hrd rsvd idx => Sys2Proof.Machine.execHrd rsvd idx s
  | .ewclr rsvd => Sys2Proof.Machine.execEwclr rsvd s
  | .ewpush word => Sys2Proof.Machine.execEwpush word s
  | .ewdig rsvd => Sys2Proof.Machine.execEwdig rsvd s
  | .a16set rsvdHi idx rsvdLo ch => Sys2Proof.Machine.execA16set rsvdHi idx rsvdLo ch s
  | .a16len rsvd idx => Sys2Proof.Machine.execA16len rsvd idx s
  | .a64set rsvdHi idx rsvdLo ch => Sys2Proof.Machine.execA64set rsvdHi idx rsvdLo ch s
  | .enc16 ce sel cap => Sys2Proof.Machine.execEnc16 ce sel cap s
  | .enc64 ce sel cap => Sys2Proof.Machine.execEnc64 ce sel cap s
  | .ord rsvd idx => Sys2Proof.Machine.execOrd rsvd idx s

end Sys2Proof.Machine
end

