-- ==== Sys2Proof/Machine/Input.lean ====
section
/-! DEFINITION. What one input of the host does to the core: a command word is decoded and executed, an unassigned
opcode raises E_ILLOP, `rst` resets (60_exceptions.md R182, 70_reset_and_hazards.md R210, R217). -/

namespace Sys2Proof.Machine

/-- A command word (R60, R65): its instruction's meaning, or E_ILLOP with the word's `OP` and `ARG` (R182, R190). -/
def runCommand (w : Command) (s : State) : Result :=
  match decode w with
  | .ok i => exec i s
  | .error (.unassignedOpcode op) => .next (s.faultEntry .illop op w.arg)

/-- One input. `rst` gives the reset state and no response, whatever command was in progress (R210, U17). -/
def runInput (x : HostInput) (s : State) : Result :=
  match x with
  | .cmd w => runCommand w s
  | .rst _ => .next s.reinit

end Sys2Proof.Machine
end

