-- ==== Sys2Proof/Machine/Step.lean ====
section
/-! DEFINITION. One step: the oldest input of the host, taken off the channel. -/

namespace Sys2Proof.Machine

/-- One step. With no input the core holds its state ("Between commands the core simply holds its state",
60_exceptions.md R200). -/
def step (s : State) : Host.Outcome State Fault Refusal :=
  match s.cmds with
  | [] => .next s
  | x :: rest => runInput x { s with cmds := rest }

/-- `s` with the table's word as the next command of the host: put in front of what the host still has to send, where
`step` takes its next input (notes/assumptions/2.md). -/
def State.withFetchWord (s : State) (nbits w : Nat) : State :=
  { s with cmds := .cmd (commandOfTableWord nbits w) :: s.cmds }

end Sys2Proof.Machine
end

