-- ==== Sys2Proof/Machine/HostSequences.lean ====
section
/-! DEFINITION. The textual form of commands and the pseudo-commands (30_encoding.md R68, R69, R70), as functions to
commands. "They are conveniences of the textual form; the core knows nothing of them": no meaning uses them. Assembler.lean
splits a line into its mnemonic and operands. -/

namespace Sys2Proof.HostSide

/-- An operand of R68: a number (decimal, hexadecimal, or a quoted character standing for its code), `cap=<n>`, or
`custom`. -/
inductive Operand
  | num (n : Nat)
  | cap (n : Nat)
  | custom
  deriving DecidableEq, Repr

/-- A number that fits a field of `w` bits. -/
def fits (w n : Nat) : Option (BitVec w) := if n < 2 ^ w then some (BitVec.ofNat w n) else none

/-- The options of `ENC16` and `ENC64`: "a comma-separated list drawn from `cap=<n>` (sets CE = 1, CAP = n) and `custom`
(sets AS = 1)". -/
def options : List Operand → Option (Bool × Bool × BitVec 30)
  | [] => some (false, false, 0)
  | .cap n :: rest => do
    let o ← options rest
    let c ← fits 30 n
    if o.1 then none else some (true, o.2.1, c)
  | .custom :: rest => do
    let o ← options rest
    if o.2.1 then none else some (o.1, true, o.2.2)
  | .num _ :: _ => none

/-- R68: one line, the reserved bits set to 0. `none`: not a line of that form. -/
def assemble (mnemonic : String) (operands : List Operand) : Option Instr :=
  match mnemonic, operands with
  | "RDCSR", [.num n] => (fits 16 n).map (.rdcsr 0)
  | "CLRE", [] => some (.clre 0)
  | "SRST", [] => some (.srst 0)
  | "HINIT", [] => some (.hinit 0)
  | "ABS", [.num n] => (fits 32 n).map .abs
  | "HFIN", [] => some (.hfin 0)
  | "HRD", [.num n] => (fits 16 n).map (.hrd 0)
  | "EWCLR", [] => some (.ewclr 0)
  | "EWPUSH", [.num n] => (fits 32 n).map .ewpush
  | "EWDIG", [] => some (.ewdig 0)
  | "A16SET", [.num n, .num c] => do return .a16set 0 (← fits 8 n) 0 (← fits 8 c)
  | "A16LEN", [.num n] => (fits 16 n).map (.a16len 0)
  | "A64SET", [.num n, .num c] => do return .a64set 0 (← fits 8 n) 0 (← fits 8 c)
  | "ENC16", opts => (options opts).map fun o => .enc16 o.1 o.2.1 o.2.2
  | "ENC64", opts => (options opts).map fun o => .enc64 o.1 o.2.1 o.2.2
  | "ORD", [.num n] => (fits 16 n).map (.ord 0)
  | _, _ => none

/-! The pseudo-commands of R69. -/

/-- `MSG "c0 c1 ..."`: one `ABS` per character code. -/
def msg (codes : List (BitVec 32)) : List Instr := codes.map .abs

/-- `DIGEST "text"`. -/
def digest (codes : List (BitVec 32)) : List Instr := [.hinit 0] ++ msg codes ++ [.hfin 0]

/-- `WORDS w0, w1, ...`. -/
def words (ws : List (BitVec 32)) : List Instr := [.ewclr 0] ++ ws.map .ewpush

/-- `ALPHA16 "s0 ... sn-1"`, for 1 to 16 symbols. -/
def alpha16 (al : List (BitVec 8)) : List Instr :=
  (al.zipIdx.map fun si => .a16set 0 (BitVec.ofNat 8 si.2) 0 si.1) ++ [.a16len 0 (BitVec.ofNat 16 al.length)]

/-- `ALPHA64 "s0 ... s63"`. -/
def alpha64 (al : Vector (BitVec 8) 64) : List Instr :=
  al.toList.zipIdx.map fun si => .a64set 0 (BitVec.ofNat 8 si.2) 0 si.1

/-- `READH`. -/
def readh : List Instr := (List.range 8).map fun i => .hrd 0 (BitVec.ofNat 16 i)

/-- `READSTR`, where `n` is the data of the `RDCSR` response. -/
def readstr (n : Nat) : List Instr := .rdcsr 0 7 :: (List.range n).map fun i => .ord 0 (BitVec.ofNat 16 i)

/-! The public operations of the source as command sequences (R70). -/

/-- `digest(message)`. -/
def digestOp (codes : List (BitVec 32)) : List Instr := digest codes ++ readh

/-- The cap operand of `ENC16` and `ENC64` for an optional length. -/
def capField (cap : Option (BitVec 30)) : Bool × BitVec 30 :=
  match cap with
  | none => (false, 0)
  | some c => (true, c)

/-- Where the words of an encoding come from: "`WORDS words` (or `EWDIG` when the words are the digest just computed)". -/
inductive Input
  /-- the words themselves -/
  | words (ws : List (BitVec 32))
  /-- the digest just computed -/
  | digest
  deriving DecidableEq, Repr

/-- The commands that bring the words to the encoder. -/
def Input.load : Input → List Instr
  | .words ws => HostSide.words ws
  | .digest => [.ewdig 0]

/-- `encodeBase16(words, alphabet?, length?)`, up to its `READSTR`. -/
def encodeBase16 (input : Input) (al : Option (List (BitVec 8))) (cap : Option (BitVec 30)) : List Instr :=
  input.load ++ (al.elim [] alpha16) ++ [.enc16 (capField cap).1 al.isSome (capField cap).2]

/-- `encodeBase64Variant(words, alphabet?, length?)`, up to its `READSTR`. -/
def encodeBase64Variant (input : Input) (al : Option (Vector (BitVec 8) 64)) (cap : Option (BitVec 30)) :
    List Instr :=
  input.load ++ (al.elim [] alpha64) ++ [.enc64 (capField cap).1 al.isSome (capField cap).2]

end Sys2Proof.HostSide
end

