-- ==== Sys2Proof/Machine/Assembler.lean ====
section
/-! DEFINITION. The text of a command line (30_encoding.md R68, R69): comments, numbers, quoted characters, operands
separated by commas, and the pseudo-commands with their quoted strings. The core knows nothing of it, and no meaning uses
it. -/

namespace Sys2Proof.HostSide

/-- `;` starts a comment, but not in a quoted character or string (`quoted`: inside a string). -/
def dropComment (quoted : Bool) : List Char → List Char
  | [] => []
  | '\'' :: c :: '\'' :: rest => '\'' :: c :: '\'' :: dropComment quoted rest
  | '"' :: rest => '"' :: dropComment (!quoted) rest
  | ';' :: rest => if quoted then ';' :: dropComment quoted rest else []
  | c :: rest => c :: dropComment quoted rest

/-- A space between the parts of a line. -/
def isBlank (c : Char) : Bool := c == ' ' || c == '\t'

/-- A part of a line without the spaces around it. -/
def trim (cs : List Char) : List Char := ((cs.dropWhile isBlank).reverse.dropWhile isBlank).reverse

/-- More characters in front of the first part. -/
def onto (cs : List Char) : List (List Char) → List (List Char)
  | [] => [cs]
  | part :: parts => (cs ++ part) :: parts

/-- "the operands separated by commas"; a quoted comma is no separator. -/
def splitCommas : List Char → List (List Char)
  | [] => [[]]
  | '\'' :: c :: '\'' :: rest => onto ['\'', c, '\''] (splitCommas rest)
  | ',' :: rest => [] :: splitCommas rest
  | c :: rest => onto [c] (splitCommas rest)

/-- The value of a digit in a base up to 16. -/
def digit (base : Nat) (c : Char) : Option Nat :=
  let n := c.toNat
  let d :=
    if 48 ≤ n ∧ n ≤ 57 then n - 48
    else if 97 ≤ n ∧ n ≤ 102 then n - 87
    else if 65 ≤ n ∧ n ≤ 70 then n - 55
    else base
  if d < base then some d else none

/-- The value of one or more digits. -/
def digits (base : Nat) (cs : List Char) : Option Nat :=
  if cs.isEmpty then none else cs.foldlM (fun v c => (digit base c).map (v * base + ·)) 0

/-- "Numbers are decimal or `0x` hexadecimal." -/
def number : List Char → Option Nat
  | '0' :: 'x' :: cs => digits 16 cs
  | cs => digits 10 cs

/-- One operand: a quoted character "meaning its code", `cap=<n>`, `custom`, or a number. -/
def operand : List Char → Option Operand
  | ['\'', c, '\''] => some (.num c.toNat)
  | 'c' :: 'a' :: 'p' :: '=' :: cs => (number cs).map .cap
  | ['c', 'u', 's', 't', 'o', 'm'] => some .custom
  | cs => (number cs).map .num

/-- The operands of a line. -/
def operands (cs : List Char) : Option (List Operand) :=
  if cs.isEmpty then some [] else (splitCommas cs).mapM fun part => operand (trim part)

/-- The characters between two double quotes. -/
def quotedText : List Char → Option (List Char)
  | '"' :: cs =>
    match cs.reverse with
    | '"' :: body => some body.reverse
    | _ => none
  | _ => none

/-- A character code as the operand of `ABS`, which takes any code (R95). -/
def codeOf (c : Char) : BitVec 32 := BitVec.ofNat 32 c.toNat

/-- The words of a `WORDS` line: numbers of 32 bits, or nothing at all. -/
def wordList (cs : List Char) : Option (List (BitVec 32)) :=
  (operands cs).bind fun ops => ops.mapM fun
    | .num n => fits 32 n
    | .cap _ => none
    | .custom => none

/-- `ALPHA16 "s0 ... sn-1"`, for 1 to 16 characters. -/
def alpha16Line (cs : List Char) : Option (List Instr) := do
  let al ← cs.mapM fun c => fits 8 c.toNat
  if 1 ≤ al.length ∧ al.length ≤ 16 then some (alpha16 al) else none

/-- `ALPHA64 "s0 ... s63"`, for exactly 64 characters. -/
def alpha64Line (cs : List Char) : Option (List Instr) := do
  let al ← cs.mapM fun c => fits 8 c.toNat
  if h : al.length = 64 then some (alpha64 ⟨al.toArray, by simp [h]⟩) else none

/-- R68, R69: the commands of one line. `n` is the data of the `RDCSR` response that `READSTR` needs. `none`: not a line of
that form (a line with a comment only gives no command). -/
def assembleLine (n : Nat) (line : String) : Option (List Instr) :=
  let cs := trim (dropComment false line.toList)
  let rest := trim (cs.dropWhile fun c => !isBlank c)
  match String.ofList (cs.takeWhile fun c => !isBlank c) with
  | "" => some []
  | "MSG" => (quotedText rest).map fun text => msg (text.map codeOf)
  | "DIGEST" => (quotedText rest).map fun text => digest (text.map codeOf)
  | "WORDS" => (wordList rest).map words
  | "ALPHA16" => (quotedText rest).bind alpha16Line
  | "ALPHA64" => (quotedText rest).bind alpha64Line
  | "READH" => if rest.isEmpty then some readh else none
  | "READSTR" => if rest.isEmpty then some (readstr n) else none
  | mnemonic => (operands rest).bind fun ops => (assemble mnemonic ops).map fun i => [i]

end Sys2Proof.HostSide
end

