-- ==== Sys2Proof/Machine/SourceFunctions.lean ====
section
/-! DEFINITION. The source's pure functions, as the spec restates them over lists (40_hash_input.md R91, R92;
41_compressor.md R124; 42_base16.md R135; 43_base64v.md R155). No meaning calls them: they are what the commands are
claimed to compute. -/

namespace Sys2Proof.Source

open Sys2Proof.Machine

/-- R91: `z`, the smallest number >= 0 with `(n + 1 + z + 8) mod 64 = 0`; it is below 64, so the search is. -/
def zeroFill (n : Nat) : Nat := ((List.range 64).find? fun z => (n + 1 + z + 8) % 64 == 0).getD 0

/-- R91, R43: the 8 length bytes, `[0, 0, 0, 0, L[31:24], L[23:16], L[15:8], L[7:0]]`. -/
def lengthBytes (L : BitVec 32) : List Byte :=
  [0, 0, 0, 0, L.extractLsb' 24 8, L.extractLsb' 16 8, L.extractLsb' 8 8, L.extractLsb' 0 8]

/-- R91: `pad(m)`, for a message of at most 2^29 - 1 bytes. -/
def pad (m : List Byte) : List Byte :=
  m ++ [0x80] ++ List.replicate (zeroFill m.length) 0 ++ lengthBytes (BitVec.ofNat 32 (8 * m.length))

/-- R92: `pack(p)`, big-endian, four bytes a word. -/
def pack : List Byte → List Word
  | b0 :: b1 :: b2 :: b3 :: rest =>
    BitVec.ofNat 32 (b0.toNat * 2 ^ 24 + b1.toNat * 2 ^ 16 + b2.toNat * 2 ^ 8 + b3.toNat) :: pack rest
  | _ => []

/-- R124: the consecutive 16-word slices of a word list. -/
def blocks (ws : List Word) : List (List Word) :=
  (List.range (ws.length / 16)).map fun k => (ws.drop (16 * k)).take 16

/-- R119: one more schedule word, from the ones before it. -/
def nextWord (w : List Word) : Word :=
  let i := w.length
  w.getD (i - 16) 0 + sigma0 (w.getD (i - 15) 0) + w.getD (i - 7) 0 + sigma1 (w.getD (i - 2) 0)

/-- R124: `w[0..15] = B` extended by `n` schedule words. -/
def schedule (B : List Word) : Nat → List Word
  | 0 => B
  | n + 1 => let w := schedule B n; w ++ [nextWord w]

/-- R121 on the registers `[a, b, c, d, e, f, g, h]`, for one round constant and one schedule word. -/
def roundOn (r : Vector Word 8) (kw : Word × Word) : Vector Word 8 :=
  let t1 := r[7] + bigSigma1 r[4] + ch r[4] r[5] r[6] + kw.1 + kw.2
  let t2 := bigSigma0 r[0] + maj r[0] r[1] r[2]
  #v[t1 + t2, r[0], r[1], r[2], r[3] + t1, r[4], r[5], r[6]]

/-- R124: `compress(S, B)`. -/
def compress (S : Vector Word 8) (B : List Word) : Vector Word 8 :=
  let r := (K.toList.zip (schedule B 48)).foldl roundOn S
  Vector.zipWith (· + ·) S r

/-- R124: `sha256(m)`, for a byte list of at most 2^29 - 1 bytes. -/
def sha256 (m : List Byte) : Vector Word 8 := (blocks (pack (pad m))).foldl compress IV

/-- R135 step 5, R155 step 5: `take(cap, full)` where a cap is given. -/
def capped (cap : Option Nat) (full : List Symbol) : List Symbol :=
  match cap with
  | none => full
  | some c => full.take c

/-- R135: the eight nibbles of a word from bits 31:28 down to bits 3:0. -/
def nibbles (w : Word) : List (BitVec 4) :=
  [w.extractLsb' 28 4, w.extractLsb' 24 4, w.extractLsb' 20 4, w.extractLsb' 16 4,
    w.extractLsb' 12 4, w.extractLsb' 8 4, w.extractLsb' 4 4, w.extractLsb' 0 4]

/-- R135: `enc16(ws, al, cap)`, for an alphabet of 1 to 16 symbols. -/
def enc16 (ws : List Word) (al : List Symbol) (cap : Option Nat) : List Symbol :=
  capped cap ((ws.flatMap nibbles).map fun v => al.getD (v.toNat % al.length) 0)

/-- R155 step 1: the 16-bit chunks, high half first, in word order. -/
def chunks (ws : List Word) : List (BitVec 16) := ws.flatMap fun w => [w.extractLsb' 16 16, w.extractLsb' 0 16]

/-- The variables of R155 step 3: the accumulator, the bit-count, and the string built so far. -/
structure Accu where
  acc : Nat
  bc : Int
  out : List Symbol
  deriving DecidableEq, Repr

/-- R155 step 3, `while bc >= thr`: at most as many rounds as the bit-count is high. -/
def Accu.drain (al : Vector Symbol 64) (thr : Int) : Nat → Accu → Accu
  | 0, a => a
  | fuel + 1, a =>
    if thr ≤ a.bc then
      drain al thr fuel
        { acc := a.acc >>> 6, bc := a.bc - 6, out := al[a.acc % 64]'(Nat.mod_lt _ (by decide)) :: a.out }
    else a

/-- R155 step 3: one chunk entered and the symbols it completes; `thr` is 1 for the last chunk and 6 for the others. -/
def Accu.chunk (al : Vector Symbol 64) (thr : Int) (r : BitVec 16) (a : Accu) : Accu :=
  let b : Accu := { a with acc := a.acc ||| (r.toNat <<< a.bc.toNat), bc := a.bc + 16 }
  b.drain al thr b.bc.toNat

/-- R155 step 3, over the reversed chunks. -/
def accumulate (al : Vector Symbol 64) : List (BitVec 16) → Accu → Accu
  | [], a => a
  | r :: rest, a => accumulate al rest (a.chunk al (if rest = [] then 1 else 6) r)

/-- R155: `enc64(ws, al, cap)`, for an alphabet of exactly 64 symbols. -/
def enc64 (ws : List Word) (al : Vector Symbol 64) (cap : Option Nat) : List Symbol :=
  capped cap (accumulate al (chunks ws).reverse { acc := 0, bc := 0, out := [] }).out

/-- R161: `N`, the word sequence read as one big-endian number. -/
def bigEndian (ws : List Word) : Nat := ws.foldl (fun n w => n * 2 ^ 32 + w.toNat) 0

end Sys2Proof.Source
end

