-- ==== Sys2Proof/Safety.lean ====
section
/-! DEFINITION. The terms in which claims about runs are made: the invariant of the state, what two states must share for
the host not to tell them apart, the reset values of R29, the fault that a command's checks select, and runs of
commands. -/

namespace Sys2Proof.Machine

/-- THE INVARIANT of every reachable state: the legal values of 10_state.md R24, the sizes of the arrays (R19, R21), the
transient registers at 0 between commands (R22), the fault record clear or holding a fault code (R23, R24). (`LEN` below
2^29 and `PHASE` one of three values hold by their types.) -/
structure State.Inv (s : State) : Prop where
  ewmax_lo : 8 ≤ s.cfg.EWMAX
  ewmax_hi : s.cfg.EWMAX ≤ 8192
  ew_size : s.enc.EW.length = s.cfg.EWMAX
  ostr_size : s.enc.OSTR.length = s.cfg.OSMAX
  en_le : s.enc.EN.toNat ≤ s.cfg.EWMAX
  a16len_lo : 1 ≤ s.enc.A16LEN.toNat
  a16len_hi : s.enc.A16LEN.toNat ≤ 16
  olen_le : s.enc.OLEN.toNat ≤ s.cfg.OSMAX
  acc_zero : s.enc.ACC = 0
  bc_zero : s.enc.BC = 0
  err_clear : s.err.EF = false → s.err = FaultRecord.clear
  err_code : s.err.EF = true → ∃ c : FaultCode, s.err.ECAUSE = c.code

/-- The reset values that R29 gives, in the hash unit. -/
structure HashUnit.IsReset (u : HashUnit) : Prop where
  phase : u.PHASE = .idle
  len : u.LEN = 0

/-- The reset values that R29 gives, in the encoders. -/
structure EncUnit.IsReset (u : EncUnit) : Prop where
  en : u.EN = 0
  olen : u.OLEN = 0
  acc : u.ACC = 0
  bc : u.BC = 0
  a16len : u.A16LEN = 16
  a16 : ∀ i : Fin 16, u.A16[i] = D16[i]
  a64 : ∀ i : Fin 64, u.A64[i] = D64[i]

/-- "any state that satisfies 10_state.md rule R29" (70_reset_and_hazards.md R210); the arrays have their sizes and any
contents. -/
structure State.IsReset (s : State) : Prop where
  hash : s.hash.IsReset
  enc : s.enc.IsReset
  err : s.err = { EF := false, ECAUSE := 0, EOP := 0, EARG := 0 }
  ew_size : s.enc.EW.length = s.cfg.EWMAX
  ostr_size : s.enc.OSTR.length = 8 * s.cfg.EWMAX

/-- The hash units that no command can tell apart: `W` and `a` to `h` are never read before they are written, `H` is read
only in phases ABSORB and DONE, `BUF` only in ABSORB and only where `ABS` has written it (10_state.md R30). -/
structure HashUnit.Agree (u v : HashUnit) : Prop where
  phase : u.PHASE = v.PHASE
  len : u.LEN = v.LEN
  h : u.PHASE ≠ .idle → u.H = v.H
  buf : u.PHASE = .absorb → ∀ j : Fin 64, j.val < u.LEN.toNat % 64 → u.BUF[j] = v.BUF[j]

/-- The encoder states that no command can tell apart: `EW` beyond `EN` and `OSTR` beyond `OLEN` are never read (R19, R21,
R30). -/
structure EncUnit.Agree (u v : EncUnit) : Prop where
  en : u.EN = v.EN
  ew : u.words = v.words
  a16 : u.A16 = v.A16
  a16len : u.A16LEN = v.A16LEN
  a64 : u.A64 = v.A64
  olen : u.OLEN = v.OLEN
  ostr : u.string = v.string

/-- The states that no command can tell apart (R30): all but the hidden elements is the same. -/
structure State.Agree (s t : State) : Prop where
  cfg : s.cfg = t.cfg
  hash : s.hash.Agree t.hash
  enc : s.enc.Agree t.enc
  err : s.err = t.err
  cmds : s.cmds = t.cmds
  rsps : s.rsps = t.rsps

/-! The checks of a command in their order (60_exceptions.md R189), each from its own rule. -/

/-- R66: a reserved bit of the format is 1, or `CE = 0` with `CAP != 0`. On the argument WORD. -/
def reservedBroken (f : Format) (arg : BitVec 32) : Bool :=
  arg &&& f.rsvdMask != 0 || (f == .L && !arg.getLsbD 31 && arg.extractLsb' 0 30 != 0)

/-- The phase column of R64 (`none`: any). -/
def phaseNeeded : Instr → Option Phase
  | .rdcsr _ _ => none
  | .clre _ => none
  | .srst _ => none
  | .hinit _ => none
  | .abs _ => some .absorb
  | .hfin _ => some .absorb
  | .hrd _ _ => some .done
  | .ewclr _ => none
  | .ewpush _ => none
  | .ewdig _ => some .done
  | .a16set _ _ _ _ => none
  | .a16len _ _ => none
  | .a64set _ _ _ _ => none
  | .enc16 _ _ _ => none
  | .enc64 _ _ _ => none
  | .ord _ _ => none

/-- R64, R184: `PHASE` is not the one the command needs. -/
def phaseBroken (i : Instr) (s : State) : Bool :=
  match phaseNeeded i with
  | none => false
  | some p => s.hash.PHASE != p

/-- R185, R186: the operand range, with the fault it raises. -/
def rangeBroken (i : Instr) (s : State) : Option FaultCode :=
  match i with
  | .rdcsr _ idx => if 8 < idx.toNat then some .range else none
  | .clre _ => none
  | .srst _ => none
  | .hinit _ => none
  | .abs code => if 255 < code.toNat then some .domain else none
  | .hfin _ => none
  | .hrd _ idx => if 7 < idx.toNat then some .range else none
  | .ewclr _ => none
  | .ewpush _ => none
  | .ewdig _ => none
  | .a16set _ idx _ _ => if 15 < idx.toNat then some .range else none
  | .a16len _ idx => if idx.toNat = 0 ∨ 16 < idx.toNat then some .range else none
  | .a64set _ idx _ _ => if 63 < idx.toNat then some .range else none
  | .enc16 _ _ _ => none
  | .enc64 _ _ _ => none
  | .ord _ idx => if s.enc.OLEN.toNat ≤ idx.toNat then some .range else none

/-- R187, R188: the resource, with the fault it raises. -/
def resourceBroken (i : Instr) (s : State) : Option FaultCode :=
  match i with
  | .rdcsr _ _ => none
  | .clre _ => none
  | .srst _ => none
  | .hinit _ => none
  | .abs _ => if s.hash.LEN.toNat = 2 ^ 29 - 1 then some .lenovf else none
  | .hfin _ => none
  | .hrd _ _ => none
  | .ewclr _ => none
  | .ewpush _ => if s.enc.EN.toNat = s.cfg.EWMAX then some .ewfull else none
  | .ewdig _ => none
  | .a16set _ _ _ _ => none
  | .a16len _ _ => none
  | .a64set _ _ _ _ => none
  | .enc16 _ _ _ => none
  | .enc64 _ _ _ => none
  | .ord _ _ => none

/-- R189: the fault of a command with an assigned opcode, the first of the checks in their order; `none`: no fault. -/
def firstFault (i : Instr) (s : State) : Option FaultCode :=
  if reservedBroken i.format i.arg then some .rsvd
  else if phaseBroken i s then some .phase
  else (rangeBroken i s).orElse fun _ => resourceBroken i s

end Sys2Proof.Machine

namespace Sys2Proof

/-- The commands that drive the hash unit, with `SRST`, which resets it (40_hash_input.md R98). -/
def Instr.drivesHash : Instr → Bool
  | .rdcsr _ _ => false
  | .clre _ => false
  | .srst _ => true
  | .hinit _ => true
  | .abs _ => true
  | .hfin _ => true
  | .hrd _ _ => false
  | .ewclr _ => false
  | .ewpush _ => false
  | .ewdig _ => false
  | .a16set _ _ _ _ => false
  | .a16len _ _ => false
  | .a64set _ _ _ _ => false
  | .enc16 _ _ _ => false
  | .enc64 _ _ _ => false
  | .ord _ _ => false

/-- The commands that write the encoders, with `SRST`, which resets them (10_state.md R19 to R22). -/
def Instr.drivesEncoder : Instr → Bool
  | .rdcsr _ _ => false
  | .clre _ => false
  | .srst _ => true
  | .hinit _ => false
  | .abs _ => false
  | .hfin _ => false
  | .hrd _ _ => false
  | .ewclr _ => true
  | .ewpush _ => true
  | .ewdig _ => true
  | .a16set _ _ _ _ => true
  | .a16len _ _ => true
  | .a64set _ _ _ _ => true
  | .enc16 _ _ _ => true
  | .enc64 _ _ _ => true
  | .ord _ _ => false

end Sys2Proof

namespace Sys2Proof.Machine

/-- `exec` folded over a command list (70_reset_and_hazards.md R218). -/
def execAll : List Instr → State → Result
  | [], s => .next s
  | i :: is, s =>
    match exec i s with
    | .next t => execAll is t
    | .fault r => .fault r
    | .refused r => .refused r

/-- The inputs that send a command list. -/
def sends (is : List Instr) : List HostInput := is.map fun i => .cmd (encode i)

/-! What a command leaves behind, said without the model's own operations. -/

/-- The one response `(code, data)` and nothing else (R9 `respond`). -/
def State.answered (code : BitVec 8) (data : Word) (s : State) : State :=
  { s with rsps := s.rsps ++ [{ CODE := code, DATA := data }] }

/-- R190 for a protocol fault: the record if it was clear, the response `(code, 0)`, nothing else. -/
def State.protocolFault (code op : BitVec 8) (arg : BitVec 32) (s : State) : State :=
  { s with
    err := if s.err.EF then s.err else { EF := true, ECAUSE := code, EOP := op, EARG := arg }
    rsps := s.rsps ++ [{ CODE := code, DATA := 0 }] }

/-- R190, R191 for a terminal fault: as a protocol fault, and `PHASE` becomes IDLE. -/
def State.terminalFault (code op : BitVec 8) (arg : BitVec 32) (s : State) : State :=
  { s with
    err := if s.err.EF then s.err else { EF := true, ECAUSE := code, EOP := op, EARG := arg }
    hash := { s.hash with PHASE := .idle }
    rsps := s.rsps ++ [{ CODE := code, DATA := 0 }] }

/-- What follows the message bytes already in `BUF` when a message of `len` bytes ends: the rest of the last block or
blocks of `pad` (R91, R97). -/
def lastBytes (buf : Vector Byte 64) (len : Nat) : List Byte :=
  buf.toList.take (len % 64) ++ [0x80] ++ List.replicate (Source.zeroFill len) 0
    ++ Source.lengthBytes (BitVec.ofNat 32 (8 * len))

/-- `input` stands for the word sequence `ws` in the state `s` (30_encoding.md R70): the words themselves, as many as the
buffer holds, or the digest just computed, which asks for phase DONE. -/
def State.Supplies (s : State) : HostSide.Input → List Word → Prop
  | .words given, ws => given = ws ∧ ws.length ≤ s.cfg.EWMAX
  | .digest, ws => s.hash.PHASE = .done ∧ ws = s.hash.H.toList

/-- `OP` is one of the 240 unassigned values of R65. -/
def unassigned (op : Nat) : Bool :=
  op == 0x00 || (0x04 ≤ op && op ≤ 0x0F) || (0x14 ≤ op && op ≤ 0x1F) || op == 0x26 || op == 0x27
    || (0x2B ≤ op && op ≤ 0xFF)

/-- A SAFE step: it neither faults nor is refused. -/
def safeStep (s : State) : Prop := ∃ t, step s = .next t

end Sys2Proof.Machine
end

