-- ==== Sys2Proof/WellFormed.lean ====
section
/-! DEFINITION. Well-formed commands: the ones that a host following 30_encoding.md R66 and R68 sends ("The assembler sets
every reserved bit to 0"). A command that is not well formed still executes: it raises E_RSVD (60_exceptions.md R183). -/

namespace Sys2Proof.Instr

/-- R66, format by format: the reserved bits are 0, and `CAP` is 0 where `CE` is 0. -/
def wellFormed : Instr → Bool
  | rdcsr rsvd _ => rsvd == 0
  | clre rsvd => rsvd == 0
  | srst rsvd => rsvd == 0
  | hinit rsvd => rsvd == 0
  | abs _ => true
  | hfin rsvd => rsvd == 0
  | hrd rsvd _ => rsvd == 0
  | ewclr rsvd => rsvd == 0
  | ewpush _ => true
  | ewdig rsvd => rsvd == 0
  | a16set rsvdHi _ rsvdLo _ => rsvdHi == 0 && rsvdLo == 0
  | a16len rsvd _ => rsvd == 0
  | a64set rsvdHi _ rsvdLo _ => rsvdHi == 0 && rsvdLo == 0
  | enc16 ce _ cap => ce || cap == 0
  | enc64 ce _ cap => ce || cap == 0
  | ord rsvd _ => rsvd == 0

end Sys2Proof.Instr
end

