-- ==== Sys2Proof/Certificates/Slice0/Obligations.lean ====
section
/-! DEFINITION. The statements for the provers. Each docstring names the rule of spec/ that it formalises. -/

open Sys2Proof Sys2Proof.Machine

/-! ## Encoding -/

/-- R60, R62, R64: decoding the word of a command gives the command back, whatever its fields. -/
def Obligations.DecodeOfEncode : Prop := ∀ i : Instr, decode (encode i) = .ok i

/-- R60, R64: each word has one meaning: the command a word decodes to has that word. -/
def Obligations.EncodeOfDecode : Prop := ∀ (w : Command) (i : Instr), decode w = .ok i → encode i = w

/-- Eight words of the formats I, C, W, S and L, written out from R62 and R64 by hand, decode to their commands, and a word
with the unassigned opcode 0x26 (R65) decodes to none. -/
def Obligations.DecodeOfSpecWords : Prop :=
  decode 0x0100000006 = .ok (.rdcsr 0 6) ∧
  decode 0x1100000061 = .ok (.abs 0x61) ∧
  decode 0x1300010009 = .ok (.hrd 1 9) ∧
  decode 0x2112345678 = .ok (.ewpush 0x12345678) ∧
  decode 0x23000A0041 = .ok (.a16set 0 0x0A 0 0x41) ∧
  decode 0x25003E002B = .ok (.a64set 0 0x3E 0 0x2B) ∧
  decode 0x29C000000A = .ok (.enc64 true true 10) ∧
  decode 0x2880000003 = .ok (.enc16 true false 3) ∧
  decode 0x2600000000 = .error (.unassignedOpcode 0x26)

/-- R65, R182: a word with one of the 240 unassigned opcodes raises E_ILLOP, `ARG` whatever it is, and changes nothing but
the fault record; there are 240 such values, and every other word is a command. -/
def Obligations.UnassignedOpcodesRaiseIllop : Prop :=
  (∀ (w : Command) (s : State) (rest : List HostInput), unassigned (w.toNat / 2 ^ 32) = true →
    step { s with cmds := .cmd w :: rest } =
      .next (({ s with cmds := rest }).protocolFault 0x01 (w.extractLsb' 32 8) (w.extractLsb' 0 32))) ∧
  ((List.range 256).filter unassigned).length = 240 ∧
  (∀ w : Command, unassigned (w.toNat / 2 ^ 32) = false → ∃ i, decode w = .ok i)

/-- R66, R183: a reserved bit that is 1 (by the masks of R66), or `CE = 0` with `CAP != 0`, raises E_RSVD, in every phase
and whatever the other operands, and changes nothing but the fault record. -/
def Obligations.ReservedBitsRaiseRsvd : Prop :=
  (Format.N.rsvdMask = 0xFFFFFFFF ∧ Format.C.rsvdMask = 0 ∧ Format.W.rsvdMask = 0 ∧ Format.I.rsvdMask = 0xFFFF0000 ∧
    Format.S.rsvdMask = 0xFF00FF00 ∧ Format.L.rsvdMask = 0) ∧
  (∀ (i : Instr) (s : State), i.arg &&& i.format.rsvdMask ≠ 0 → exec i s = .next (s.protocolFault 0x02 i.opcode i.arg)) ∧
  (∀ (sel : Bool) (cap : BitVec 30) (s : State), cap ≠ 0 →
    exec (.enc16 false sel cap) s = .next (s.protocolFault 0x02 0x28 (0#1 ++ BitVec.ofBool sel ++ cap)) ∧
    exec (.enc64 false sel cap) s = .next (s.protocolFault 0x02 0x29 (0#1 ++ BitVec.ofBool sel ++ cap)))

/-! ## Step, response, reset -/

/-- A step: with nothing sent the core holds its state (R200; notes/assumptions/2.md for the channel's form); a command
word at the head of the channel that decodes to `i` is `exec i` on the state with that word taken off. -/
def Obligations.StepRunsDecodedCommand : Prop :=
  (∀ s : State, s.cmds = [] → step s = .next s) ∧
  (∀ (s : State) (w : Command) (i : Instr) (rest : List HostInput), s.cmds = .cmd w :: rest → decode w = .ok i →
    step s = exec i { s with cmds := rest })

/-- R180, R216, R217: no state and no word stops the core. -/
def Obligations.EveryStepAnswersNext : Prop := ∀ s : State, ∃ t, step s = .next t

/-- R61: every command word gets exactly one response, in order; its code is `OK` or one of the fault codes 1 to 7, its
data is 0 in every fault response and for every command but the five that pass a value to `respond`; the code is in bits
39:32 of the response word and the data in bits 31:0. -/
def Obligations.OneResponsePerCommand : Prop :=
  (∀ (w : Command) (s : State), ∃ t r, runCommand w s = .next t ∧ t.rsps = s.rsps ++ [r] ∧ r.CODE.toNat ≤ 7 ∧
    (r.CODE ≠ 0 → r.DATA = 0) ∧
    (w.extractLsb' 32 8 ∉ [0x01#8, 0x13#8, 0x28#8, 0x29#8, 0x2A#8] → r.DATA = 0)) ∧
  (∀ r : Response, r.word.extractLsb' 32 8 = r.CODE ∧ r.word.extractLsb' 0 32 = r.DATA)

/-- R29: the reset values, in `State.reset`, after the `rst` input and after `SRST`. What R29 leaves unspecified is not
said (the zeros of `State.reset` are the model's choice, notes/assumptions/3.md). -/
def Obligations.ResetValues : Prop :=
  State.reset.IsReset ∧
  (∀ (s : State) (p : Option Command) (rest : List HostInput),
    ∃ t, step { s with cmds := .rst p :: rest } = .next t ∧ t.IsReset) ∧
  (∀ s : State, ∃ t, exec (.srst 0) s = .next t ∧ t.IsReset)

/-- The state after reset meets the invariant. -/
def Obligations.ResetSatisfiesInv : Prop := State.reset.Inv

/-- R172: `SRST` sets every element of state to its reset value and responds; with a reserved bit it raises E_RSVD. The
parameter and what the host still has to send stay. -/
def Obligations.SrstRule : Prop :=
  (∀ s : State, ∃ t, exec (.srst 0) s = .next t ∧ t.IsReset ∧ t.cfg = s.cfg ∧ t.cmds = s.cmds ∧
    t.rsps = s.rsps ++ [{ CODE := 0, DATA := 0 }]) ∧
  (∀ (rsvd : BitVec 32) (s : State), rsvd ≠ 0 → exec (.srst rsvd) s = .next (s.protocolFault 0x02 0x03 rsvd))

/-- R210: `rst` gives the reset state and no response, the same whatever command was in progress. -/
def Obligations.RstRule : Prop :=
  ∀ (s : State) (rest : List HostInput), ∃ t, t.IsReset ∧ t.cfg = s.cfg ∧ t.cmds = rest ∧ t.rsps = s.rsps ∧
    ∀ p : Option Command, step { s with cmds := .rst p :: rest } = .next t

/-- R217 ("nothing carried over"): after `rst` no command can tell which of two states was there before, whatever the
hash unit, the encoders, the fault record and the number of resets were. -/
def Obligations.ResetForgetsTheState : Prop :=
  ∀ (s t s' t' : State) (p q : Option Command) (rest : List HostInput), s.cfg = t.cfg → s.rsps = t.rsps →
    s.cmds = .rst p :: rest → t.cmds = .rst q :: rest → step s = .next s' → step t = .next t' → s'.Agree t'

/-! ## Faults -/

/-- R189 (with the conditions of R181 to R188): the response code of any word is that of the FIRST check that fails, in the
order opcode, reserved bits, phase, operand range, resource, and `OK` if none fails. -/
def Obligations.FaultPriority : Prop :=
  ∀ (w : Command) (s : State), ∃ t d, runCommand w s = .next t ∧
    t.rsps = s.rsps ++ [{ CODE := (match decode w with
                                   | .error _ => 0x01
                                   | .ok i => (firstFault i s).elim 0x00 FaultCode.code), DATA := d }]

/-- R190: a command word whose response carries a fault code has done nothing but fault entry: the record if it was clear,
with the code, the opcode and the argument of the word, the phase if the fault is terminal, the response. -/
def Obligations.FaultEntryRule : Prop :=
  ∀ (w : Command) (s t : State) (r : Response), runCommand w s = .next t → t.rsps = s.rsps ++ [r] → r.CODE ≠ 0 →
    t = if r.CODE = 0x04 ∨ r.CODE = 0x06 then s.terminalFault r.CODE (w.extractLsb' 32 8) (w.extractLsb' 0 32)
        else s.protocolFault r.CODE (w.extractLsb' 32 8) (w.extractLsb' 0 32)

/-- R23: fault entry writes the record only when `EF = 0`; `CLRE`, `SRST` and reset clear all four registers; nothing else
changes it. -/
def Obligations.FaultRecordRule : Prop :=
  (∀ (w : Command) (s t : State) (r : Response), runCommand w s = .next t → t.rsps = s.rsps ++ [r] →
    (r.CODE ≠ 0 → s.err.EF = true → t.err = s.err) ∧
    (r.CODE ≠ 0 → s.err.EF = false →
      t.err = { EF := true, ECAUSE := r.CODE, EOP := w.extractLsb' 32 8, EARG := w.extractLsb' 0 32 }) ∧
    (r.CODE = 0 → w = 0x0200000000 ∨ w = 0x0300000000 → t.err = { EF := false, ECAUSE := 0, EOP := 0, EARG := 0 }) ∧
    (r.CODE = 0 → w ≠ 0x0200000000 → w ≠ 0x0300000000 → t.err = s.err)) ∧
  (∀ (s : State) (p : Option Command), ∃ t, runInput (.rst p) s = .next t ∧
    t.err = { EF := false, ECAUSE := 0, EOP := 0, EARG := 0 })

/-- R191: a terminal fault of `ABS` ends the message: `PHASE` is IDLE, `H`, `BUF`, `LEN` are as before it, `ABS`, `HFIN`,
`HRD` and `EWDIG` are then refused with E_PHASE, `LEN` stays readable, `HINIT` opens a new message; no other command leaves
phase IDLE; and the two terminal faults arise in phase ABSORB only. -/
def Obligations.TerminalFaultEndsMessage : Prop :=
  (∀ (code : BitVec 32) (s : State), s.hash.PHASE = .absorb → (255 < code.toNat ∨ s.hash.LEN.toNat = 2 ^ 29 - 1) →
    ∃ t, exec (.abs code) s = .next t ∧ t.hash = { s.hash with PHASE := .idle } ∧
      (∀ c, exec (.abs c) t = .next (t.protocolFault 0x03 0x11 c)) ∧
      exec (.hfin 0) t = .next (t.protocolFault 0x03 0x12 0) ∧
      (∀ idx : BitVec 16, exec (.hrd 0 idx) t = .next (t.protocolFault 0x03 0x13 (0#16 ++ idx))) ∧
      exec (.ewdig 0) t = .next (t.protocolFault 0x03 0x22 0) ∧
      exec (.rdcsr 0 4) t = .next (t.answered 0 (BitVec.ofNat 32 s.hash.LEN.toNat)) ∧
      (∃ u, exec (.hinit 0) t = .next u ∧ u.hash.PHASE = .absorb)) ∧
  (∀ (i : Instr) (s t : State), exec i s = .next t → s.hash.PHASE = .idle → t.hash.PHASE ≠ .idle → i = .hinit 0) ∧
  (∀ (w : Command) (s t : State) (r : Response), runCommand w s = .next t → t.rsps = s.rsps ++ [r] →
    r.CODE = 0x04 ∨ r.CODE = 0x06 → s.hash.PHASE = .absorb)

/-! ## Control commands -/

/-- R170: `RDCSR` reads registers 0 to 8, raises E_RANGE above, E_RSVD first of all, and writes no state; the values of
STATUS are 0, 1, 2, 4, 5, 6. -/
def Obligations.RdcsrRule : Prop :=
  (∀ (rsvd idx : BitVec 16) (s : State), rsvd ≠ 0 →
    exec (.rdcsr rsvd idx) s = .next (s.protocolFault 0x02 0x01 (rsvd ++ idx))) ∧
  (∀ (idx : BitVec 16) (s : State), 8 < idx.toNat →
    exec (.rdcsr 0 idx) s = .next (s.protocolFault 0x05 0x01 (0#16 ++ idx))) ∧
  (∀ s : State,
    exec (.rdcsr 0 0) s =
      .next (s.answered 0 (BitVec.ofNat 32 (s.hash.PHASE.bits.toNat + if s.err.EF then 4 else 0))) ∧
    exec (.rdcsr 0 1) s = .next (s.answered 0 (BitVec.ofNat 32 s.err.ECAUSE.toNat)) ∧
    exec (.rdcsr 0 2) s = .next (s.answered 0 (BitVec.ofNat 32 s.err.EOP.toNat)) ∧
    exec (.rdcsr 0 3) s = .next (s.answered 0 s.err.EARG) ∧
    exec (.rdcsr 0 4) s = .next (s.answered 0 (BitVec.ofNat 32 s.hash.LEN.toNat)) ∧
    exec (.rdcsr 0 5) s = .next (s.answered 0 (BitVec.ofNat 32 s.enc.EN.toNat)) ∧
    exec (.rdcsr 0 6) s = .next (s.answered 0 (BitVec.ofNat 32 s.enc.A16LEN.toNat)) ∧
    exec (.rdcsr 0 7) s = .next (s.answered 0 (BitVec.ofNat 32 s.enc.OLEN.toNat)) ∧
    exec (.rdcsr 0 8) s = .next (s.answered 0 (BitVec.ofNat 32 s.cfg.EWMAX))) ∧
  (∀ s : State, s.hash.PHASE.bits.toNat + (if s.err.EF then 4 else 0) ∈ [0, 1, 2, 4, 5, 6])

/-- R171: `CLRE` clears the fault record and nothing else, in every phase; with a reserved bit it raises E_RSVD. -/
def Obligations.ClreRule : Prop :=
  (∀ s : State, exec (.clre 0) s =
    .next (({ s with err := { EF := false, ECAUSE := 0, EOP := 0, EARG := 0 } }).answered 0 0)) ∧
  (∀ (rsvd : BitVec 32) (s : State), rsvd ≠ 0 → exec (.clre rsvd) s = .next (s.protocolFault 0x02 0x02 rsvd))

/-! ## Message input and compressor -/

/-- R94: `HINIT` loads the eight printed initial values, zeroes `LEN` and opens a message, from any phase, and touches
nothing else; with a reserved bit it raises E_RSVD. -/
def Obligations.HinitRule : Prop :=
  (∀ s : State, exec (.hinit 0) s =
    .next (({ s with hash := { s.hash with
      H := #v[0x6a09e667, 0xbb67ae85, 0x3c6ef372, 0xa54ff53a, 0x510e527f, 0x9b05688c, 0x1f83d9ab, 0x5be0cd19]
      LEN := 0
      PHASE := .absorb } }).answered 0 0)) ∧
  (∀ (rsvd : BitVec 32) (s : State), rsvd ≠ 0 → exec (.hinit rsvd) s = .next (s.protocolFault 0x02 0x10 rsvd))

/-- R95: `ABS`. Out of phase: E_PHASE. Above 255: E_DOMAIN. At the length limit: E_LENOVF. Otherwise the byte goes to
`BUF[LEN mod 64]` and `LEN` counts it, and nothing else changes, but for the byte that fills the block (`LEN mod 64 = 63`
before it): then `COMPRESS` runs on the full block, and `H` is `compress` of it. -/
def Obligations.AbsRule : Prop :=
  ∀ (code : BitVec 32) (s : State),
    (s.hash.PHASE ≠ .absorb → exec (.abs code) s = .next (s.protocolFault 0x03 0x11 code)) ∧
    (s.hash.PHASE = .absorb → 255 < code.toNat → exec (.abs code) s = .next (s.terminalFault 0x04 0x11 code)) ∧
    (s.hash.PHASE = .absorb → code.toNat ≤ 255 → s.hash.LEN.toNat = 2 ^ 29 - 1 →
      exec (.abs code) s = .next (s.terminalFault 0x06 0x11 code)) ∧
    (s.hash.PHASE = .absorb → code.toNat ≤ 255 → s.hash.LEN.toNat ≠ 2 ^ 29 - 1 → s.hash.LEN.toNat % 64 ≠ 63 →
      exec (.abs code) s = .next (({ s with hash := { s.hash with
        BUF := s.hash.BUF.set (s.hash.LEN.toNat % 64) (BitVec.ofNat 8 code.toNat) (Nat.mod_lt _ (by decide))
        LEN := BitVec.ofNat 29 (s.hash.LEN.toNat + 1) } }).answered 0 0)) ∧
    (s.hash.PHASE = .absorb → code.toNat ≤ 255 → s.hash.LEN.toNat ≠ 2 ^ 29 - 1 → s.hash.LEN.toNat % 64 = 63 →
      let full : HashUnit := { s.hash with
        BUF := s.hash.BUF.set 63 (BitVec.ofNat 8 code.toNat)
        LEN := BitVec.ofNat 29 (s.hash.LEN.toNat + 1) }
      exec (.abs code) s = .next (({ s with hash := full.compress }).answered 0 0) ∧
      full.compress.H = Source.compress s.hash.H (Source.pack full.BUF.toList))

/-- R97: `HFIN` in phase ABSORB: the bytes of the open block are followed by the rest of `pad`, one block or two, and each
is compressed into `H` in turn; `BUF` is the last block, `LEN` stays, `PHASE` is DONE; nothing else changes but `W` and
`a` to `h`. Otherwise E_RSVD or E_PHASE. -/
def Obligations.HfinRule : Prop :=
  (∀ s : State, s.hash.PHASE = .absorb →
    ∃ wr W BUF, exec (.hfin 0) s = .next (({ s with hash := {
        H := (Source.blocks (Source.pack (lastBytes s.hash.BUF s.hash.LEN.toNat))).foldl Source.compress s.hash.H
        wr := wr
        W := W
        BUF := BUF
        LEN := s.hash.LEN
        PHASE := .done } }).answered 0 0) ∧
      BUF.toList = (lastBytes s.hash.BUF s.hash.LEN.toNat).drop ((lastBytes s.hash.BUF s.hash.LEN.toNat).length - 64)) ∧
  (∀ s : State, s.hash.PHASE ≠ .absorb → exec (.hfin 0) s = .next (s.protocolFault 0x03 0x12 0)) ∧
  (∀ (rsvd : BitVec 32) (s : State), rsvd ≠ 0 → exec (.hfin rsvd) s = .next (s.protocolFault 0x02 0x12 rsvd))

/-- R93: the number of zero bytes, the length of the padded message, the number of blocks. -/
def Obligations.PaddedLength : Prop :=
  ∀ m : List Byte,
    Source.zeroFill m.length = (119 - m.length % 64) % 64 ∧
    (Source.pad m).length = m.length + 9 + Source.zeroFill m.length ∧
    (Source.pad m).length = 64 * ((m.length + 9 + 63) / 64) ∧
    (Source.blocks (Source.pack (Source.pad m))).length = (m.length + 8) / 64 + 1

/-- R96: `PACK(j)` is big-endian: as a concatenation, and as a sum. -/
def Obligations.PackBigEndian : Prop :=
  ∀ (u : HashUnit) (j : Nat) (hj : j < 16),
    u.pack j hj = u.BUF[4 * j] ++ u.BUF[4 * j + 1] ++ u.BUF[4 * j + 2] ++ u.BUF[4 * j + 3] ∧
    (u.pack j hj).toNat = u.BUF[4 * j].toNat * 2 ^ 24 + u.BUF[4 * j + 1].toNat * 2 ^ 16
      + u.BUF[4 * j + 2].toNat * 2 ^ 8 + u.BUF[4 * j + 3].toNat

/-- R110: "Bit i of the result is bit (i + n) mod 32 of x", and the rotation by 0 is the identity. R111, R112: the four
sigmas, bit by bit: three rotations, or two rotations and a logical shift that brings in zeros. -/
def Obligations.RotateAndSigmaBits : Prop :=
  ∀ (x : Word) (i : Nat), i < 32 →
    (∀ n, n < 32 → (rotr x n).getLsbD i = x.getLsbD ((i + n) % 32)) ∧ rotr x 0 = x ∧
    (sigma0 x).getLsbD i = (x.getLsbD ((i + 7) % 32) ^^ x.getLsbD ((i + 18) % 32) ^^ (decide (i + 3 < 32) && x.getLsbD (i + 3))) ∧
    (sigma1 x).getLsbD i = (x.getLsbD ((i + 17) % 32) ^^ x.getLsbD ((i + 19) % 32) ^^ (decide (i + 10 < 32) && x.getLsbD (i + 10))) ∧
    (bigSigma0 x).getLsbD i = (x.getLsbD ((i + 2) % 32) ^^ x.getLsbD ((i + 13) % 32) ^^ x.getLsbD ((i + 22) % 32)) ∧
    (bigSigma1 x).getLsbD i = (x.getLsbD ((i + 6) % 32) ^^ x.getLsbD ((i + 11) % 32) ^^ x.getLsbD ((i + 25) % 32))

/-- R113: `Ch` picks the `y` bit where the `x` bit is 1 and the `z` bit where it is 0; `Maj` is the value that at least two
of the three bits have. -/
def Obligations.ChooseAndMajorityBits : Prop :=
  ∀ (x y z : Word) (i : Nat), i < 32 →
    (ch x y z).getLsbD i = (if x.getLsbD i then y.getLsbD i else z.getLsbD i) ∧
    (maj x y z).getLsbD i =
      decide (2 ≤ (x.getLsbD i).toNat + (y.getLsbD i).toNat + (z.getLsbD i).toNat)

/-- R118, R119, R123: the schedule after `LOADW` and all `SCHED`: the sixteen packed words, then the recurrence; nothing
else moves. -/
def Obligations.ScheduleRule : Prop :=
  ∀ u : HashUnit,
    (∀ (j : Nat) (hj : j < 16), u.loadw.schedAll.W[j] = u.pack j hj) ∧
    (∀ (i : Nat) (_ : 16 ≤ i) (_ : i < 64), u.loadw.schedAll.W[i] =
      u.loadw.schedAll.W[i - 16] + sigma0 u.loadw.schedAll.W[i - 15] + u.loadw.schedAll.W[i - 7]
        + sigma1 u.loadw.schedAll.W[i - 2]) ∧
    u.loadw.schedAll = { u with W := u.loadw.schedAll.W }

/-- R120, R121, R122: `INITWR`, `ROUND(i)` (a simultaneous assignment) and `ADDH`, each with what it leaves alone. -/
def Obligations.RoundRule : Prop :=
  ∀ u : HashUnit,
    u.initwr = { u with wr := ⟨u.H[0], u.H[1], u.H[2], u.H[3], u.H[4], u.H[5], u.H[6], u.H[7]⟩ } ∧
    (∀ (i : Nat) (hi : i < 64),
      let t1 := u.wr.h + bigSigma1 u.wr.e + ch u.wr.e u.wr.f u.wr.g + K[i] + u.W[i]
      let t2 := bigSigma0 u.wr.a + maj u.wr.a u.wr.b u.wr.c
      u.round i hi = { u with wr := ⟨t1 + t2, u.wr.a, u.wr.b, u.wr.c, u.wr.d + t1, u.wr.e, u.wr.f, u.wr.g⟩ }) ∧
    u.addh = { u with H := #v[u.H[0] + u.wr.a, u.H[1] + u.wr.b, u.H[2] + u.wr.c, u.H[3] + u.wr.d,
      u.H[4] + u.wr.e, u.H[5] + u.wr.f, u.H[6] + u.wr.g, u.H[7] + u.wr.h] }

/-- R123, R124: `COMPRESS` performs `H <- compress(H, [PACK(0), ..., PACK(15)])` and changes neither `BUF` nor `LEN` nor
`PHASE`. -/
def Obligations.CompressRule : Prop :=
  ∀ u : HashUnit,
    u.compress.H = Source.compress u.H (List.ofFn fun j : Fin 16 => u.pack j j.isLt) ∧
    u.compress.BUF = u.BUF ∧ u.compress.LEN = u.LEN ∧ u.compress.PHASE = u.PHASE

/-- R98: THE DIGEST. Any command list whose hash commands are `HINIT`, one `ABS` for each byte of `m`, `HFIN`, with any
commands of the other families between them (well formed or not), from any state, leaves `H = sha256(m)`, `PHASE = DONE`
and `LEN` the length of `m`. -/
def Obligations.DigestOfMessage : Prop :=
  ∀ (m : List Byte) (is : List Instr) (s : State), m.length ≤ 2 ^ 29 - 1 →
    is.filter Instr.drivesHash = [.hinit 0] ++ m.map (fun b => .abs (b.setWidth 32)) ++ [.hfin 0] →
    ∃ t, execAll is s = .next t ∧ t.hash.H = Source.sha256 m ∧ t.hash.PHASE = .done ∧ t.hash.LEN.toNat = m.length

/-- R70: the operation `digest(message)`: `HINIT`, one `ABS` per byte, `HFIN`, `READH`; every response is `OK` and the
last eight carry the words of `sha256`. -/
def Obligations.DigestOperation : Prop :=
  ∀ (m : List Byte) (s : State), m.length ≤ 2 ^ 29 - 1 →
    ∃ t, execAll (HostSide.digestOp (m.map (·.setWidth 32))) s = .next t ∧
      t.rsps = s.rsps ++ List.replicate (m.length + 2) { CODE := 0, DATA := 0 }
        ++ (Source.sha256 m).toList.map fun w => { CODE := 0, DATA := w }

/-- R125: `HRD` reads `H[idx]` in phase DONE and writes no state; E_RSVD, then E_PHASE, then E_RANGE. -/
def Obligations.HrdRule : Prop :=
  (∀ (idx : BitVec 16) (s : State) (h : idx.toNat < 8), s.hash.PHASE = .done →
    exec (.hrd 0 idx) s = .next (s.answered 0 s.hash.H[idx.toNat])) ∧
  (∀ (idx : BitVec 16) (s : State), s.hash.PHASE = .done → 7 < idx.toNat →
    exec (.hrd 0 idx) s = .next (s.protocolFault 0x05 0x13 (0#16 ++ idx))) ∧
  (∀ (idx : BitVec 16) (s : State), s.hash.PHASE ≠ .done →
    exec (.hrd 0 idx) s = .next (s.protocolFault 0x03 0x13 (0#16 ++ idx))) ∧
  (∀ (rsvd idx : BitVec 16) (s : State), rsvd ≠ 0 →
    exec (.hrd rsvd idx) s = .next (s.protocolFault 0x02 0x13 (rsvd ++ idx)))

/-! ## Encoders -/

/-- R138: `EWCLR` sets `EN` to 0 and nothing else; with a reserved bit it raises E_RSVD. -/
def Obligations.EwclrRule : Prop :=
  (∀ s : State, exec (.ewclr 0) s = .next (({ s with enc := { s.enc with EN := 0 } }).answered 0 0)) ∧
  (∀ (rsvd : BitVec 32) (s : State), rsvd ≠ 0 → exec (.ewclr rsvd) s = .next (s.protocolFault 0x02 0x20 rsvd))

/-- R139: `EWPUSH` writes `EW[EN]` and counts it, so the word sequence grows by that word at its end; a full buffer raises
E_EWFULL. -/
def Obligations.EwpushRule : Prop :=
  ∀ (word : BitVec 32) (s : State), s.Inv →
    (s.enc.EN.toNat < s.cfg.EWMAX → ∃ EW, exec (.ewpush word) s =
        .next (({ s with enc := { s.enc with EW := EW, EN := BitVec.ofNat 14 (s.enc.EN.toNat + 1) } }).answered 0 0) ∧
      EW.length = s.cfg.EWMAX ∧ EW[s.enc.EN.toNat]? = some word ∧
      (∀ j, j ≠ s.enc.EN.toNat → EW[j]? = s.enc.EW[j]?) ∧
      EW.take (s.enc.EN.toNat + 1) = s.enc.EW.take s.enc.EN.toNat ++ [word]) ∧
    (s.enc.EN.toNat = s.cfg.EWMAX → exec (.ewpush word) s = .next (s.protocolFault 0x07 0x21 word))

/-- R140: `EWDIG` copies the digest into `EW[0..7]` and sets `EN` to 8, in phase DONE; the rest of `EW` stays; E_RSVD,
then E_PHASE, never E_EWFULL. -/
def Obligations.EwdigRule : Prop :=
  (∀ s : State, s.Inv → s.hash.PHASE = .done → exec (.ewdig 0) s =
    .next (({ s with enc := { s.enc with EW := s.hash.H.toList ++ s.enc.EW.drop 8, EN := 8 } }).answered 0 0)) ∧
  (∀ s : State, s.hash.PHASE ≠ .done → exec (.ewdig 0) s = .next (s.protocolFault 0x03 0x22 0)) ∧
  (∀ (rsvd : BitVec 32) (s : State), rsvd ≠ 0 → exec (.ewdig rsvd) s = .next (s.protocolFault 0x02 0x22 rsvd))

/-- R141: `A16SET` writes one symbol of `A16`, any 8-bit value, and nothing else; E_RSVD, then E_RANGE. -/
def Obligations.A16setRule : Prop :=
  (∀ (idx ch : BitVec 8) (s : State) (h : idx.toNat < 16), exec (.a16set 0 idx 0 ch) s =
    .next (({ s with enc := { s.enc with A16 := s.enc.A16.set idx.toNat ch } }).answered 0 0)) ∧
  (∀ (idx ch : BitVec 8) (s : State), 15 < idx.toNat →
    exec (.a16set 0 idx 0 ch) s = .next (s.protocolFault 0x05 0x23 (0#8 ++ idx ++ 0#8 ++ ch))) ∧
  (∀ (hi idx lo ch : BitVec 8) (s : State), hi ≠ 0 ∨ lo ≠ 0 →
    exec (.a16set hi idx lo ch) s = .next (s.protocolFault 0x02 0x23 (hi ++ idx ++ lo ++ ch)))

/-- R142: `A16LEN` sets the length, 1 to 16, and nothing else; E_RSVD, then E_RANGE. -/
def Obligations.A16lenRule : Prop :=
  (∀ (idx : BitVec 16) (s : State), 1 ≤ idx.toNat → idx.toNat ≤ 16 → exec (.a16len 0 idx) s =
    .next (({ s with enc := { s.enc with A16LEN := BitVec.ofNat 5 idx.toNat } }).answered 0 0)) ∧
  (∀ (idx : BitVec 16) (s : State), idx.toNat = 0 ∨ 16 < idx.toNat →
    exec (.a16len 0 idx) s = .next (s.protocolFault 0x05 0x24 (0#16 ++ idx))) ∧
  (∀ (rsvd idx : BitVec 16) (s : State), rsvd ≠ 0 →
    exec (.a16len rsvd idx) s = .next (s.protocolFault 0x02 0x24 (rsvd ++ idx)))

/-- R163: `A64SET` writes one symbol of `A64`, any 8-bit value, and nothing else; E_RSVD, then E_RANGE. -/
def Obligations.A64setRule : Prop :=
  (∀ (idx ch : BitVec 8) (s : State) (h : idx.toNat < 64), exec (.a64set 0 idx 0 ch) s =
    .next (({ s with enc := { s.enc with A64 := s.enc.A64.set idx.toNat ch } }).answered 0 0)) ∧
  (∀ (idx ch : BitVec 8) (s : State), 63 < idx.toNat →
    exec (.a64set 0 idx 0 ch) s = .next (s.protocolFault 0x05 0x25 (0#8 ++ idx ++ 0#8 ++ ch))) ∧
  (∀ (hi idx lo ch : BitVec 8) (s : State), hi ≠ 0 ∨ lo ≠ 0 →
    exec (.a64set hi idx lo ch) s = .next (s.protocolFault 0x02 0x25 (hi ++ idx ++ lo ++ ch)))

/-- R143: `ENC16` leaves in `OSTR` the source's `enc16` of exactly the words, the alphabet and the cap in force, its length
in `OLEN` and in the response; beyond it `OSTR` is as before, and nothing else changes. -/
def Obligations.Enc16Rule : Prop :=
  (∀ (ce sel : Bool) (cap : BitVec 30) (s : State), s.Inv → (ce = true ∨ cap = 0) →
    let al := if sel then s.enc.A16.toList.take s.enc.A16LEN.toNat else D16.toList
    let str := Source.enc16 (s.enc.EW.take s.enc.EN.toNat) al (if ce then some cap.toNat else none)
    exec (.enc16 ce sel cap) s = .next (({ s with enc := { s.enc with
      OSTR := str ++ s.enc.OSTR.drop str.length
      OLEN := BitVec.ofNat 17 str.length } }).answered 0 (BitVec.ofNat 32 str.length)) ∧
    str.length = (if ce then min cap.toNat (8 * s.enc.EN.toNat) else 8 * s.enc.EN.toNat)) ∧
  (∀ (sel : Bool) (cap : BitVec 30) (s : State), cap ≠ 0 →
    exec (.enc16 false sel cap) s = .next (s.protocolFault 0x02 0x28 (0#1 ++ BitVec.ofBool sel ++ cap)))

/-- R164: `ENC64` leaves in `OSTR` the source's `enc64` of exactly the words, the alphabet and the cap in force, its length
in `OLEN` and in the response, and `ACC`, `BC` at 0; beyond it `OSTR` is as before, and nothing else changes. -/
def Obligations.Enc64Rule : Prop :=
  (∀ (ce sel : Bool) (cap : BitVec 30) (s : State), s.Inv → (ce = true ∨ cap = 0) →
    let al := if sel then s.enc.A64 else D64
    let str := Source.enc64 (s.enc.EW.take s.enc.EN.toNat) al (if ce then some cap.toNat else none)
    let n := (32 * s.enc.EN.toNat + 5) / 6
    exec (.enc64 ce sel cap) s = .next (({ s with enc := { s.enc with
      OSTR := str ++ s.enc.OSTR.drop str.length
      OLEN := BitVec.ofNat 17 str.length
      ACC := 0
      BC := 0 } }).answered 0 (BitVec.ofNat 32 str.length)) ∧
    str.length = (if ce then min cap.toNat n else n)) ∧
  (∀ (sel : Bool) (cap : BitVec 30) (s : State), cap ≠ 0 →
    exec (.enc64 false sel cap) s = .next (s.protocolFault 0x02 0x29 (0#1 ++ BitVec.ofBool sel ++ cap)))

/-- R144: `ORD` reads one character below `OLEN` and writes no state; E_RSVD, then E_RANGE. -/
def Obligations.OrdRule : Prop :=
  (∀ (idx : BitVec 16) (s : State), s.Inv → idx.toNat < s.enc.OLEN.toNat → ∃ c, s.enc.OSTR[idx.toNat]? = some c ∧
    exec (.ord 0 idx) s = .next (s.answered 0 (BitVec.ofNat 32 c.toNat))) ∧
  (∀ (idx : BitVec 16) (s : State), s.enc.OLEN.toNat ≤ idx.toNat →
    exec (.ord 0 idx) s = .next (s.protocolFault 0x05 0x2A (0#16 ++ idx))) ∧
  (∀ (rsvd idx : BitVec 16) (s : State), rsvd ≠ 0 →
    exec (.ord rsvd idx) s = .next (s.protocolFault 0x02 0x2A (rsvd ++ idx)))

/-- R160: the natural length of the Base64 variant, with the values that R160 lists. -/
def Obligations.Enc64NaturalLength : Prop :=
  (∀ (ws : List Word) (al : Vector Symbol 64), (Source.enc64 ws al none).length = (32 * ws.length + 5) / 6) ∧
  (List.range 9).map (fun n => (32 * n + 5) / 6) = [0, 6, 11, 16, 22, 27, 32, 38, 43] ∧ (32 * 16 + 5) / 6 = 86

/-- R161: the output is the word sequence, read as one big-endian number, written in base 64, most significant digit
first, leading zero digits kept. -/
def Obligations.Enc64ClosedForm : Prop :=
  ∀ (ws : List Word) (al : Vector Symbol 64) (p : Nat), p < (32 * ws.length + 5) / 6 →
    (Source.enc64 ws al none)[p]? =
      some (al[(Source.bigEndian ws / 2 ^ (6 * ((32 * ws.length + 5) / 6 - 1 - p))) % 64]'(Nat.mod_lt _ (by decide)))

/-- R165: before a chunk is entered `0 <= BC <= 5` and `ACC < 2^BC`; after it is entered `BC <= 21`, the shifted chunk has
lost no bit and does not overlap `ACC`; at the end `-5 <= BC <= 0`, and `q = 0` (R164). On the registers as the model's
`ENC64` moves them. -/
def Obligations.AccumulatorBounds : Prop :=
  ∀ (cap : Option Nat) (al : Vector Symbol 64) (ws : List Word) (ostr : List Symbol) (i : Nat),
    let l := (List.range i).foldl (Enc64Loop.step cap al ws)
      { OSTR := ostr, ACC := 0, BC := 0, q := naturalLength64 ws.length }
    (i < 2 * ws.length → 0 ≤ l.BC.toInt ∧ l.BC.toInt ≤ 5 ∧ l.ACC.toNat < 2 ^ l.BC.toNat ∧
      (l.enter (chunk64 ws i)).BC.toInt = l.BC.toInt + 16 ∧ l.BC.toInt + 16 ≤ 21 ∧
      (l.enter (chunk64 ws i)).ACC.toNat = l.ACC.toNat + (chunk64 ws i).toNat * 2 ^ l.BC.toNat ∧
      (l.enter (chunk64 ws i)).ACC.toNat < 2 ^ 21) ∧
    (i = 2 * ws.length → -5 ≤ l.BC.toInt ∧ l.BC.toInt ≤ 0 ∧ l.q = 0)

/-- R137, the truncation law, on the commands: the string with a cap is the first `CAP` characters of the string without
one, for both encoders. -/
def Obligations.TruncationLaw : Prop :=
  ∀ (sel : Bool) (cap : BitVec 30) (s : State), s.Inv →
    (∃ t t', exec (.enc16 true sel cap) s = .next t ∧ exec (.enc16 false sel 0) s = .next t' ∧
      t.enc.string = t'.enc.string.take cap.toNat) ∧
    (∃ t t', exec (.enc64 true sel cap) s = .next t ∧ exec (.enc64 false sel 0) s = .next t' ∧
      t.enc.string = t'.enc.string.take cap.toNat)

/-- R137, the alphabet substitution law: with an alphabet of pairwise distinct symbols, mapping each character back through
it gives the default encoding, and the indices selected are a function of the words alone. -/
def Obligations.AlphabetSubstitutionLaw : Prop :=
  (∃ idx : List Word → List (Fin 16), ∀ (ws : List Word) (al : Vector Symbol 16),
    Source.enc16 ws al.toList none = (idx ws).map fun v => al[v]) ∧
  (∃ idx : List Word → List (Fin 64), ∀ (ws : List Word) (al : Vector Symbol 64),
    Source.enc64 ws al none = (idx ws).map fun v => al[v]) ∧
  (∀ al : Vector Symbol 16, al.toList.Nodup → ∃ back : Symbol → Symbol, ∀ ws : List Word,
    (Source.enc16 ws al.toList none).map back = Source.enc16 ws D16.toList none) ∧
  (∀ al : Vector Symbol 64, al.toList.Nodup → ∃ back : Symbol → Symbol, ∀ ws : List Word,
    (Source.enc64 ws al none).map back = Source.enc64 ws D64 none)

/-- R136: a shorter alphabet is repeated cyclically: `v mod t` selects what the repeated alphabet has at `v`. -/
def Obligations.ShortAlphabetIsRepeated : Prop :=
  ∀ (al : Vector Symbol 16) (t : Nat) (v : BitVec 4), 1 ≤ t → t ≤ 16 →
    (List.replicate 16 (al.toList.take t)).flatten[v.toNat]? = some (sym16 al t v)

/-- R70: the operation `encodeBase16(words, alphabet?, length?)` with its `READSTR`, the words loaded with `WORDS` or, where
they are the digest just computed, with `EWDIG`: every response is `OK`, and the last ones are the length and the characters
of the source's `enc16`. -/
def Obligations.EncodeBase16Operation : Prop :=
  ∀ (input : HostSide.Input) (ws : List Word) (al : Option (List Symbol)) (cap : Option (BitVec 30)) (s : State), s.Inv →
    s.Supplies input ws → (∀ a, al = some a → 1 ≤ a.length ∧ a.length ≤ 16) →
    let str := Source.enc16 ws (al.getD D16.toList) (cap.map (·.toNat))
    let load := HostSide.encodeBase16 input al cap
    ∃ t, execAll (load ++ HostSide.readstr str.length) s = .next t ∧
      t.rsps = s.rsps ++ List.replicate (load.length - 1) { CODE := 0, DATA := 0 }
        ++ List.replicate 2 { CODE := 0, DATA := BitVec.ofNat 32 str.length }
        ++ str.map fun c => { CODE := 0, DATA := c.setWidth 32 }

/-- R70: the operation `encodeBase64Variant(words, alphabet?, length?)` with its `READSTR`, the words loaded with `WORDS` or
with `EWDIG`: every response is `OK`, and the last ones are the length and the characters of the source's `enc64`. -/
def Obligations.EncodeBase64VariantOperation : Prop :=
  ∀ (input : HostSide.Input) (ws : List Word) (al : Option (Vector Symbol 64)) (cap : Option (BitVec 30)) (s : State),
    s.Inv → s.Supplies input ws →
    let str := Source.enc64 ws (al.getD D64) (cap.map (·.toNat))
    let load := HostSide.encodeBase64Variant input al cap
    ∃ t, execAll (load ++ HostSide.readstr str.length) s = .next t ∧
      t.rsps = s.rsps ++ List.replicate (load.length - 1) { CODE := 0, DATA := 0 }
        ++ List.replicate 2 { CODE := 0, DATA := BitVec.ofNat 32 str.length }
        ++ str.map fun c => { CODE := 0, DATA := c.setWidth 32 }

/-! ## Rules of the whole machine -/

/-- R98 ("they write none of"): no command but `HINIT`, `ABS`, `HFIN` and `SRST` writes `H`, `a` to `h`, `W`, `BUF`, `LEN`
or `PHASE`, faulting or not. -/
def Obligations.HashUnitFrame : Prop :=
  ∀ (i : Instr) (s t : State), i.drivesHash = false → exec i s = .next t → t.hash = s.hash

/-- R19 to R22: no command but the encoder commands and `SRST` writes `EW`, `EN`, the alphabets, `OSTR`, `OLEN`, `ACC` or
`BC`; and `ACC`, `BC` are 0 after every command that finds them 0. -/
def Obligations.EncoderFrame : Prop :=
  (∀ (i : Instr) (s t : State), i.drivesEncoder = false → exec i s = .next t → t.enc = s.enc) ∧
  (∀ (i : Instr) (s t : State), s.enc.ACC = 0 → s.enc.BC = 0 → exec i s = .next t → t.enc.ACC = 0 ∧ t.enc.BC = 0)

/-- R24: `EWMAX` is a constant: no step writes it. And no command touches what the host still has to send: that clause rests
on the command channel in State, which is the model's choice (notes/assumptions/2.md). -/
def Obligations.ParameterNeverWritten : Prop :=
  (∀ s t : State, step s = .next t → t.cfg = s.cfg) ∧
  (∀ (i : Instr) (s t : State), exec i s = .next t → t.cmds = s.cmds)

/-- R16: the values of `PHASE` and all its transitions. -/
def Obligations.PhaseTransitions : Prop :=
  (Phase.idle.bits = 0 ∧ Phase.absorb.bits = 1 ∧ Phase.done.bits = 2) ∧
  (∀ (i : Instr) (s t : State), exec i s = .next t →
    (i = .hinit 0 → t.hash.PHASE = .absorb) ∧
    (i = .hfin 0 → s.hash.PHASE = .absorb → t.hash.PHASE = .done) ∧
    (∀ code, i = .abs code → s.hash.PHASE = .absorb → (255 < code.toNat ∨ s.hash.LEN.toNat = 2 ^ 29 - 1) →
      t.hash.PHASE = .idle) ∧
    (i = .srst 0 → t.hash.PHASE = .idle) ∧
    (t.hash.PHASE ≠ s.hash.PHASE →
      i = .hinit 0 ∨ (i = .hfin 0 ∧ s.hash.PHASE = .absorb) ∨ i = .srst 0 ∨
        ∃ code, i = .abs code ∧ s.hash.PHASE = .absorb ∧ (255 < code.toNat ∨ s.hash.LEN.toNat = 2 ^ 29 - 1))) ∧
  (∀ (s t : State) (p : Option Command), runInput (.rst p) s = .next t → t.hash.PHASE = .idle)

/-- R11: `H` changes only in `HINIT`, in the `ABS` that fills a block, in `HFIN`, and in a reset. -/
def Obligations.HashStateWriters : Prop :=
  ∀ (i : Instr) (s t : State), exec i s = .next t → t.hash.H ≠ s.hash.H →
    i = .hinit 0 ∨ i = .srst 0 ∨ (i = .hfin 0 ∧ s.hash.PHASE = .absorb) ∨
      ∃ code, i = .abs code ∧ s.hash.PHASE = .absorb ∧ code.toNat ≤ 255 ∧ s.hash.LEN.toNat % 64 = 63

/-- R15: `LEN` counts the absorbed bytes since `HINIT` and never wraps; the bit length fits 32 bits. -/
def Obligations.LenNeverWraps : Prop :=
  ∀ (i : Instr) (s t : State), exec i s = .next t →
    (i = .hinit 0 ∨ i = .srst 0 → t.hash.LEN = 0) ∧
    (∀ code, i = .abs code → s.hash.PHASE = .absorb → code.toNat ≤ 255 → s.hash.LEN.toNat ≠ 2 ^ 29 - 1 →
      t.hash.LEN.toNat = s.hash.LEN.toNat + 1) ∧
    (t.hash.LEN ≠ s.hash.LEN → i = .hinit 0 ∨ i = .srst 0 ∨
      ∃ code, i = .abs code ∧ s.hash.PHASE = .absorb ∧ code.toNat ≤ 255 ∧ s.hash.LEN.toNat ≠ 2 ^ 29 - 1) ∧
    8 * t.hash.LEN.toNat < 2 ^ 32

/-- R49: the read commands `RDCSR`, `HRD`, `ORD`, where they succeed, write nothing but their response, and repeating one
gives the same data. -/
def Obligations.ReadCommandsAreIdempotent : Prop :=
  ∀ (i : Instr) (s t : State) (r : Response),
    ((∃ a b, i = .rdcsr a b) ∨ (∃ a b, i = .hrd a b) ∨ (∃ a b, i = .ord a b)) →
    exec i s = .next t → t.rsps = s.rsps ++ [r] → r.CODE = 0 →
    t = { s with rsps := s.rsps ++ [r] } ∧ exec i t = .next { t with rsps := t.rsps ++ [r] }

/-- THE INVARIANT: every step from a state that meets it, whatever the host sends, gives a state that meets it (the legal
values of R24, the sizes of R19 and R21, R22). -/
def Obligations.StepKeepsInv : Prop := ∀ s t : State, s.Inv → step s = .next t → t.Inv

/-- R30: HIDDEN STATE IS UNOBSERVABLE. Two states that agree on everything but what no command may read before writing it
give, on the same input, the same response, and agree again. So no response ever depends on a value that R29 leaves
unspecified. -/
def Obligations.HiddenStateUnobservable : Prop :=
  ∀ s t s' t' : State, s.Inv → t.Inv → s.Agree t → step s = .next s' → step t = .next t' → s'.Agree t'

/-- R52, R218: commands take effect in the order the host issues them, each complete before the next: running the machine
on the words of a command list is `exec` folded over the list. -/
def Obligations.RunIsExecFold : Prop :=
  ∀ (is : List Instr) (s : State) (rest : List HostInput),
    Host.Core.run Sys2Proof.core is.length { s with cmds := sends is ++ rest } = execAll is { s with cmds := rest }

/-- R68, R69: the assembler sets every reserved bit to 0: every command of a line, a pseudo-command's too, is well formed
and never raises E_RSVD; with the rule's own example. -/
def Obligations.AssembledCommandsAreWellFormed : Prop :=
  (∀ (n : Nat) (line : String) (is : List Instr), HostSide.assembleLine n line = some is → ∀ i ∈ is,
    i.wellFormed = true ∧ reservedBroken i.format i.arg = false) ∧
  (HostSide.assembleLine 0 "ENC64 cap=10, custom").map (·.map encode) = some [0x29C000000A]
end

