-- ==== Sys2Proof/Laws/State.lean ====
section
/-! SUPPORT. One lemma per field per update of State, and what the named updates are in terms of the statements' own
(`answered`, `protocolFault`, `terminalFault`). -/

namespace Sys2Proof.Machine

section answered
variable (code : BitVec 8) (data : Word) (s : State)
@[simp] theorem answered_cfg : (s.answered code data).cfg = s.cfg := rfl
@[simp] theorem answered_hash : (s.answered code data).hash = s.hash := rfl
@[simp] theorem answered_enc : (s.answered code data).enc = s.enc := rfl
@[simp] theorem answered_err : (s.answered code data).err = s.err := rfl
@[simp] theorem answered_cmds : (s.answered code data).cmds = s.cmds := rfl
@[simp] theorem answered_rsps : (s.answered code data).rsps = s.rsps ++ [{ CODE := code, DATA := data }] := rfl
@[simp] theorem answered_fresh : (s.answered code data).fresh = s.fresh := rfl
@[simp] theorem respond_eq_answered : s.respond code data = s.answered code data := rfl
@[simp] theorem respondOk_eq_answered : s.respondOk data = s.answered 0 data := rfl
end answered

section protocolFault
variable (code op : BitVec 8) (arg : BitVec 32) (s : State)
@[simp] theorem protocolFault_cfg : (s.protocolFault code op arg).cfg = s.cfg := rfl
@[simp] theorem protocolFault_hash : (s.protocolFault code op arg).hash = s.hash := rfl
@[simp] theorem protocolFault_enc : (s.protocolFault code op arg).enc = s.enc := rfl
@[simp] theorem protocolFault_cmds : (s.protocolFault code op arg).cmds = s.cmds := rfl
@[simp] theorem protocolFault_fresh : (s.protocolFault code op arg).fresh = s.fresh := rfl
@[simp] theorem protocolFault_rsps :
    (s.protocolFault code op arg).rsps = s.rsps ++ [{ CODE := code, DATA := 0 }] := rfl
@[simp] theorem protocolFault_err : (s.protocolFault code op arg).err =
    if s.err.EF then s.err else { EF := true, ECAUSE := code, EOP := op, EARG := arg } := rfl
@[simp] theorem terminalFault_cfg : (s.terminalFault code op arg).cfg = s.cfg := rfl
@[simp] theorem terminalFault_hash : (s.terminalFault code op arg).hash = { s.hash with PHASE := .idle } := rfl
@[simp] theorem terminalFault_enc : (s.terminalFault code op arg).enc = s.enc := rfl
@[simp] theorem terminalFault_cmds : (s.terminalFault code op arg).cmds = s.cmds := rfl
@[simp] theorem terminalFault_fresh : (s.terminalFault code op arg).fresh = s.fresh := rfl
@[simp] theorem terminalFault_rsps :
    (s.terminalFault code op arg).rsps = s.rsps ++ [{ CODE := code, DATA := 0 }] := rfl
@[simp] theorem terminalFault_err : (s.terminalFault code op arg).err =
    if s.err.EF then s.err else { EF := true, ECAUSE := code, EOP := op, EARG := arg } := rfl
end protocolFault

section clearFault
variable (s : State)
@[simp] theorem clearFault_cfg : s.clearFault.cfg = s.cfg := rfl
@[simp] theorem clearFault_hash : s.clearFault.hash = s.hash := rfl
@[simp] theorem clearFault_enc : s.clearFault.enc = s.enc := rfl
@[simp] theorem clearFault_err : s.clearFault.err = FaultRecord.clear := rfl
@[simp] theorem clearFault_cmds : s.clearFault.cmds = s.cmds := rfl
@[simp] theorem clearFault_rsps : s.clearFault.rsps = s.rsps := rfl
@[simp] theorem clearFault_fresh : s.clearFault.fresh = s.fresh := rfl
end clearFault

section reinit
variable (s : State)
@[simp] theorem reinit_cfg : s.reinit.cfg = s.cfg := rfl
@[simp] theorem reinit_cmds : s.reinit.cmds = s.cmds := rfl
@[simp] theorem reinit_rsps : s.reinit.rsps = s.rsps := rfl
@[simp] theorem reinit_err : s.reinit.err = FaultRecord.clear := rfl
@[simp] theorem reinit_fresh : s.reinit.fresh = s.fresh + 1 := rfl
@[simp] theorem reinit_PHASE : s.reinit.hash.PHASE = .idle := rfl
@[simp] theorem reinit_LEN : s.reinit.hash.LEN = 0 := rfl
@[simp] theorem reinit_EN : s.reinit.enc.EN = 0 := rfl
@[simp] theorem reinit_A16 : s.reinit.enc.A16 = D16 := rfl
@[simp] theorem reinit_A16LEN : s.reinit.enc.A16LEN = 16 := rfl
@[simp] theorem reinit_A64 : s.reinit.enc.A64 = D64 := rfl
@[simp] theorem reinit_OLEN : s.reinit.enc.OLEN = 0 := rfl
@[simp] theorem reinit_ACC : s.reinit.enc.ACC = 0 := rfl
@[simp] theorem reinit_BC : s.reinit.enc.BC = 0 := rfl
@[simp] theorem reinit_EW_length : s.reinit.enc.EW.length = s.cfg.EWMAX := by simp [State.reinit]
@[simp] theorem reinit_OSTR_length : s.reinit.enc.OSTR.length = s.cfg.OSMAX := by simp [State.reinit]
@[simp] theorem reinit_words : s.reinit.enc.words = [] := by simp [EncUnit.words]
@[simp] theorem reinit_string : s.reinit.enc.string = [] := by simp [EncUnit.string]
end reinit

end Sys2Proof.Machine
end

