-- ==== Sys2Proof/Laws/Ops.lean ====
section
/-! SUPPORT. What each shared operation can do, once: fault entry code by code, and the accesses to the arrays. -/

namespace Sys2Proof.Machine

section raise
variable (i : Instr) (s : State)

@[simp] theorem raise_rsvd : s.raise .rsvd i = s.protocolFault 0x02 i.opcode i.arg := rfl
@[simp] theorem raise_phase : s.raise .phase i = s.protocolFault 0x03 i.opcode i.arg := rfl
@[simp] theorem raise_domain : s.raise .domain i = s.terminalFault 0x04 i.opcode i.arg := rfl
@[simp] theorem raise_range : s.raise .range i = s.protocolFault 0x05 i.opcode i.arg := rfl
@[simp] theorem raise_lenovf : s.raise .lenovf i = s.terminalFault 0x06 i.opcode i.arg := rfl
@[simp] theorem raise_ewfull : s.raise .ewfull i = s.protocolFault 0x07 i.opcode i.arg := rfl

@[simp] theorem faultEntry_illop (op : BitVec 8) (arg : BitVec 32) :
    s.faultEntry .illop op arg = s.protocolFault 0x01 op arg := rfl

/-- Every fault is a protocol fault or a terminal one (R181). -/
theorem raise_cases (c : FaultCode) :
    s.raise c i = if c.terminal then s.terminalFault c.code i.opcode i.arg else s.protocolFault c.code i.opcode i.arg := by
  cases c <;> rfl

theorem raise_rsps (c : FaultCode) : (s.raise c i).rsps = s.rsps ++ [{ CODE := c.code, DATA := 0 }] := rfl

end raise

/-- A fault code is not `OK`. -/
theorem code_ne_zero (c : FaultCode) : c.code ≠ 0 := by cases c <;> decide

theorem code_le_seven (c : FaultCode) : c.code.toNat ≤ 7 := by cases c <;> decide

/-- The terminal codes are 4 and 6. -/
theorem terminal_iff_code (c : FaultCode) : c.terminal = true ↔ c.code = 0x04 ∨ c.code = 0x06 := by
  cases c <;> decide

section setBuf
variable (j : Nat) (b : Byte) (u : HashUnit)
@[simp] theorem setBuf_H : (u.setBuf j b).H = u.H := by cases u; rfl
@[simp] theorem setBuf_wr : (u.setBuf j b).wr = u.wr := by cases u; rfl
@[simp] theorem setBuf_W : (u.setBuf j b).W = u.W := by cases u; rfl
@[simp] theorem setBuf_BUF : (u.setBuf j b).BUF = u.BUF.setIfInBounds j b := by cases u; rfl
@[simp] theorem setBuf_LEN : (u.setBuf j b).LEN = u.LEN := by cases u; rfl
@[simp] theorem setBuf_PHASE : (u.setBuf j b).PHASE = u.PHASE := by cases u; rfl
end setBuf

/-- `zeroBuf` writes `BUF` and nothing else: zeros at `lo` to `lo + n - 1`, the rest as before. -/
theorem zeroBuf_eq (lo n : Nat) (u : HashUnit) :
    u.zeroBuf lo n = { u with BUF := (u.zeroBuf lo n).BUF } ∧
    ∀ (j : Nat) (hj : j < 64), (u.zeroBuf lo n).BUF[j] = if lo ≤ j ∧ j < lo + n then 0 else u.BUF[j] := by
  induction n generalizing lo u with
  | zero => exact ⟨rfl, fun j hj => by simp [HashUnit.zeroBuf]⟩
  | succ n ih =>
    have step : u.zeroBuf lo (n + 1) = (u.setBuf lo 0).zeroBuf (lo + 1) n := by
      simp [HashUnit.zeroBuf, List.range'_succ]
    obtain ⟨frame, value⟩ := ih (lo + 1) (u.setBuf lo 0)
    rw [step]
    refine ⟨frame, fun j hj => ?_⟩
    rw [value j hj]
    by_cases h : j = lo
    · subst h; simp [Vector.getElem_setIfInBounds]
    · rw [setBuf_BUF, Vector.getElem_setIfInBounds_ne (by omega) (by omega)]
      simp only [show (lo + 1 ≤ j ∧ j < lo + 1 + n) ↔ (lo ≤ j ∧ j < lo + (n + 1)) by omega]

section zeroBuf
variable (lo n : Nat) (u : HashUnit)
@[simp] theorem zeroBuf_H : (u.zeroBuf lo n).H = u.H := by rw [(zeroBuf_eq lo n u).1]
@[simp] theorem zeroBuf_wr : (u.zeroBuf lo n).wr = u.wr := by rw [(zeroBuf_eq lo n u).1]
@[simp] theorem zeroBuf_W : (u.zeroBuf lo n).W = u.W := by rw [(zeroBuf_eq lo n u).1]
@[simp] theorem zeroBuf_LEN : (u.zeroBuf lo n).LEN = u.LEN := by rw [(zeroBuf_eq lo n u).1]
@[simp] theorem zeroBuf_PHASE : (u.zeroBuf lo n).PHASE = u.PHASE := by rw [(zeroBuf_eq lo n u).1]
end zeroBuf

/-- Writing an element that exists. -/
theorem set_eq_setIfInBounds {α : Type} {n : Nat} (v : Vector α n) (i : Nat) (x : α) (h : i < n) :
    v.set i x h = v.setIfInBounds i x := by
  ext j hj; simp [Vector.getElem_set, Vector.getElem_setIfInBounds]

end Sys2Proof.Machine
end

