-- ==== Sys2Proof/Laws/Hash.lean ====
section
/-! SUPPORT. What the internal operations of the hash unit change and leave alone (41_compressor.md R118 to R123,
40_hash_input.md R95, R97). These lemmas are proved by cases and not by `rfl` alone, so that simp's use of one never asks
the kernel to compare two unfolded loops. -/

namespace Sys2Proof.Machine

/-- A loop of updates that each keep a projection keeps it. -/
theorem foldl_keeps {σ α β : Type} (f : σ → α → σ) (g : σ → β) (h : ∀ s a, g (f s a) = g s) (l : List α) (s : σ) :
    g (l.foldl f s) = g s := by
  induction l generalizing s with
  | nil => rfl
  | cons a l ih => rw [List.foldl_cons, ih, h]

section frames
variable (u : HashUnit)

@[simp] theorem loadw_H : u.loadw.H = u.H := by
  unfold HashUnit.loadw; refine foldl_keeps _ HashUnit.H ?_ _ u; intros; rfl
@[simp] theorem loadw_wr : u.loadw.wr = u.wr := by
  unfold HashUnit.loadw; refine foldl_keeps _ HashUnit.wr ?_ _ u; intros; rfl
@[simp] theorem loadw_BUF : u.loadw.BUF = u.BUF := by
  unfold HashUnit.loadw; refine foldl_keeps _ HashUnit.BUF ?_ _ u; intros; rfl
@[simp] theorem loadw_LEN : u.loadw.LEN = u.LEN := by
  unfold HashUnit.loadw; refine foldl_keeps _ HashUnit.LEN ?_ _ u; intros; rfl
@[simp] theorem loadw_PHASE : u.loadw.PHASE = u.PHASE := by
  unfold HashUnit.loadw; refine foldl_keeps _ HashUnit.PHASE ?_ _ u; intros; rfl

@[simp] theorem schedAll_H : u.schedAll.H = u.H := by
  unfold HashUnit.schedAll; refine foldl_keeps _ HashUnit.H ?_ _ u; intros; rfl
@[simp] theorem schedAll_wr : u.schedAll.wr = u.wr := by
  unfold HashUnit.schedAll; refine foldl_keeps _ HashUnit.wr ?_ _ u; intros; rfl
@[simp] theorem schedAll_BUF : u.schedAll.BUF = u.BUF := by
  unfold HashUnit.schedAll; refine foldl_keeps _ HashUnit.BUF ?_ _ u; intros; rfl
@[simp] theorem schedAll_LEN : u.schedAll.LEN = u.LEN := by
  unfold HashUnit.schedAll; refine foldl_keeps _ HashUnit.LEN ?_ _ u; intros; rfl
@[simp] theorem schedAll_PHASE : u.schedAll.PHASE = u.PHASE := by
  unfold HashUnit.schedAll; refine foldl_keeps _ HashUnit.PHASE ?_ _ u; intros; rfl

@[simp] theorem initwr_H : u.initwr.H = u.H := by cases u; rfl
@[simp] theorem initwr_W : u.initwr.W = u.W := by cases u; rfl
@[simp] theorem initwr_BUF : u.initwr.BUF = u.BUF := by cases u; rfl
@[simp] theorem initwr_LEN : u.initwr.LEN = u.LEN := by cases u; rfl
@[simp] theorem initwr_PHASE : u.initwr.PHASE = u.PHASE := by cases u; rfl

@[simp] theorem roundAll_H : u.roundAll.H = u.H := by
  unfold HashUnit.roundAll; refine foldl_keeps _ HashUnit.H ?_ _ u; intros; rfl
@[simp] theorem roundAll_W : u.roundAll.W = u.W := by
  unfold HashUnit.roundAll; refine foldl_keeps _ HashUnit.W ?_ _ u; intros; rfl
@[simp] theorem roundAll_BUF : u.roundAll.BUF = u.BUF := by
  unfold HashUnit.roundAll; refine foldl_keeps _ HashUnit.BUF ?_ _ u; intros; rfl
@[simp] theorem roundAll_LEN : u.roundAll.LEN = u.LEN := by
  unfold HashUnit.roundAll; refine foldl_keeps _ HashUnit.LEN ?_ _ u; intros; rfl
@[simp] theorem roundAll_PHASE : u.roundAll.PHASE = u.PHASE := by
  unfold HashUnit.roundAll; refine foldl_keeps _ HashUnit.PHASE ?_ _ u; intros; rfl

@[simp] theorem addh_wr : u.addh.wr = u.wr := by cases u; rfl
@[simp] theorem addh_W : u.addh.W = u.W := by cases u; rfl
@[simp] theorem addh_BUF : u.addh.BUF = u.BUF := by cases u; rfl
@[simp] theorem addh_LEN : u.addh.LEN = u.LEN := by cases u; rfl
@[simp] theorem addh_PHASE : u.addh.PHASE = u.PHASE := by cases u; rfl

theorem compress_BUF : u.compress.BUF = u.BUF :=
  (addh_BUF _).trans ((roundAll_BUF _).trans ((initwr_BUF _).trans ((schedAll_BUF _).trans (loadw_BUF u))))
theorem compress_LEN : u.compress.LEN = u.LEN :=
  (addh_LEN _).trans ((roundAll_LEN _).trans ((initwr_LEN _).trans ((schedAll_LEN _).trans (loadw_LEN u))))
theorem compress_PHASE : u.compress.PHASE = u.PHASE :=
  (addh_PHASE _).trans ((roundAll_PHASE _).trans ((initwr_PHASE _).trans ((schedAll_PHASE _).trans (loadw_PHASE u))))

end frames

section putLength
variable (L : BitVec 32) (u : HashUnit)
@[simp] theorem putLength_H : (u.putLength L).H = u.H := by simp [HashUnit.putLength]
@[simp] theorem putLength_wr : (u.putLength L).wr = u.wr := by simp [HashUnit.putLength]
@[simp] theorem putLength_W : (u.putLength L).W = u.W := by simp [HashUnit.putLength]
@[simp] theorem putLength_LEN : (u.putLength L).LEN = u.LEN := by simp [HashUnit.putLength]
@[simp] theorem putLength_PHASE : (u.putLength L).PHASE = u.PHASE := by simp [HashUnit.putLength]
end putLength

/-- `PADFIN` leaves the count and the phase alone. -/
theorem padfin_LEN (u : HashUnit) : u.padfin.LEN = u.LEN := by
  unfold HashUnit.padfin
  refine (compress_LEN _).trans ((putLength_LEN _ _).trans ?_)
  split
  · exact (zeroBuf_LEN _ _ _).trans ((compress_LEN _).trans ((zeroBuf_LEN _ _ _).trans (setBuf_LEN _ _ _)))
  · exact (zeroBuf_LEN _ _ _).trans (setBuf_LEN _ _ _)

theorem padfin_PHASE (u : HashUnit) : u.padfin.PHASE = u.PHASE := by
  unfold HashUnit.padfin
  refine (compress_PHASE _).trans ((putLength_PHASE _ _).trans ?_)
  split
  · exact (zeroBuf_PHASE _ _ _).trans ((compress_PHASE _).trans ((zeroBuf_PHASE _ _ _).trans (setBuf_PHASE _ _ _)))
  · exact (zeroBuf_PHASE _ _ _).trans (setBuf_PHASE _ _ _)

/-- The byte stored and counted, before any compression. -/
def stored (b : Byte) (u : HashUnit) : HashUnit := { u.setBuf u.fill b with LEN := u.LEN + 1 }

/-- `ABS` that does not fill the block. -/
theorem absorb_of_not_full {b : Byte} {u : HashUnit} (h : (stored b u).fill ≠ 0) : u.absorb b = stored b u := if_neg h

/-- `ABS` that fills the block. -/
theorem absorb_of_full {b : Byte} {u : HashUnit} (h : (stored b u).fill = 0) : u.absorb b = (stored b u).compress := if_pos h

theorem absorb_LEN (b : Byte) (u : HashUnit) : (u.absorb b).LEN = u.LEN + 1 := by
  by_cases h : (stored b u).fill = 0
  · rw [absorb_of_full h, compress_LEN]; rfl
  · rw [absorb_of_not_full h]; rfl

theorem absorb_PHASE (b : Byte) (u : HashUnit) : (u.absorb b).PHASE = u.PHASE := by
  by_cases h : (stored b u).fill = 0
  · rw [absorb_of_full h, compress_PHASE]; rfl
  · rw [absorb_of_not_full h]; rfl

theorem absorb_BUF (b : Byte) (u : HashUnit) : (u.absorb b).BUF = u.BUF.setIfInBounds u.fill b := by
  by_cases h : (stored b u).fill = 0
  · rw [absorb_of_full h, compress_BUF]; rfl
  · rw [absorb_of_not_full h]; rfl

/-- The block is full exactly when the byte went to position 63. -/
theorem stored_full_iff (b : Byte) (u : HashUnit) (h : u.LEN.toNat ≠ 536870911) :
    (stored b u).fill = 0 ↔ u.LEN.toNat % 64 = 63 := by
  have := u.LEN.isLt
  simp only [stored, HashUnit.fill, BitVec.toNat_add]
  simp
  omega

/-- `PACK` reads nothing but `BUF`. -/
theorem pack_congr {u v : HashUnit} (h : u.BUF = v.BUF) (j : Nat) (hj : j < 16) : u.pack j hj = v.pack j hj := by
  simp [HashUnit.pack, h]

/-- A loop over `finRange` whose body uses the number only is the loop over `range`. -/
theorem foldl_finRange {σ : Type} (n : Nat) (f : σ → Nat → σ) (s : σ) :
    (List.finRange n).foldl (fun s i => f s i.val) s = (List.range n).foldl f s := by
  rw [← List.map_coe_finRange_eq_range, List.foldl_map]

/-- An array filled in ascending order, each element from the ones below it: what was below stays, and each element is
the recurrence on the FINAL array. -/
theorem foldl_fill {α : Type} {n : Nat} (lo m : Nat) (hm : lo + m ≤ n) (f : Vector α n → Nat → α)
    (hf : ∀ (v w : Vector α n) (j : Nat), (∀ (i : Nat) (hi : i < n), i < lo + j → v[i] = w[i]) → f v j = f w j)
    (v : Vector α n) :
    (∀ (i : Nat) (hi : i < n), i < lo ∨ lo + m ≤ i →
      ((List.range m).foldl (fun v j => v.setIfInBounds (lo + j) (f v j)) v)[i] = v[i]) ∧
    (∀ (j : Nat) (hj : j < m),
      ((List.range m).foldl (fun v j => v.setIfInBounds (lo + j) (f v j)) v)[lo + j] =
        f ((List.range m).foldl (fun v j => v.setIfInBounds (lo + j) (f v j)) v) j) := by
  induction m with
  | zero => exact ⟨fun _ _ _ => rfl, fun _ h => absurd h (by omega)⟩
  | succ m ih =>
    obtain ⟨below, value⟩ := ih (by omega)
    rw [List.range_succ, List.foldl_append, List.foldl_cons, List.foldl_nil]
    generalize hr : (List.range m).foldl (fun v j => v.setIfInBounds (lo + j) (f v j)) v = r at below value
    constructor
    · intro i hi h
      rw [Vector.getElem_setIfInBounds_ne (by omega) (by omega)]
      exact below i hi (by omega)
    · intro j hj
      by_cases h : j = m
      · subst h
        rw [Vector.getElem_setIfInBounds_self]
        exact hf _ _ _ fun i hi h => by rw [Vector.getElem_setIfInBounds_ne (by omega) (by omega)]
      · rw [Vector.getElem_setIfInBounds_ne (by omega) (by omega), value j (by omega)]
        exact hf _ _ _ fun i hi h => by rw [Vector.getElem_setIfInBounds_ne (by omega) (by omega)]

end Sys2Proof.Machine
end

