-- ==== Sys2Proof/Laws/Compress.lean ====
section
/-! SUPPORT. The schedule and the rounds as the pure functions of R124: the loops of the compressor over the state, and
the folds over lists. -/

namespace Sys2Proof.Machine

/-- `PACK(j)` as a total function of the number. -/
def packN (u : HashUnit) (j : Nat) : Word := if h : j < 16 then u.pack j h else 0

/-- The value of `SCHED(16 + j)` on the array `v` (R119). -/
def schedN (v : Vector Word 64) (j : Nat) : Word :=
  if h : j < 48 then v[16 + j - 16] + sigma0 v[16 + j - 15] + v[16 + j - 7] + sigma1 v[16 + j - 2] else 0

/-- `LOADW` fills the first sixteen words of `W`. -/
theorem loadw_W_fold (u : HashUnit) : u.loadw.W =
    (List.range 16).foldl (fun v j => v.setIfInBounds (0 + j) (packN u j)) u.W := by
  rw [← foldl_finRange 16 (fun v j => Vector.setIfInBounds v (0 + j) (packN u j))]
  have key : ∀ (l : List (Fin 16)) (v : HashUnit), v.BUF = u.BUF →
      (l.foldl (fun (v : HashUnit) (j : Fin 16) => v.loadwAt j j.isLt) v).W =
      l.foldl (fun w (j : Fin 16) => w.setIfInBounds (0 + j.val) (packN u j)) v.W := by
    intro l
    induction l with
    | nil => intro v _; rfl
    | cons j l ih =>
      intro v hv
      rw [List.foldl_cons, List.foldl_cons]
      refine (ih (v.loadwAt j j.isLt) hv).trans ?_
      congr 1
      have : v.pack j j.isLt = packN u j := by simp [packN, pack_congr hv]
      simp only [HashUnit.loadwAt, this, Nat.zero_add]
      exact set_eq_setIfInBounds _ _ _ _
  exact key _ u rfl

/-- The 48 `SCHED` fill the rest of `W`. -/
theorem schedAll_W_fold (u : HashUnit) : u.schedAll.W =
    (List.range 48).foldl (fun v j => v.setIfInBounds (16 + j) (schedN v j)) u.W := by
  rw [← foldl_finRange 48 (fun v j => Vector.setIfInBounds v (16 + j) (schedN v j))]
  have key : ∀ (l : List (Fin 48)) (v : HashUnit),
      (l.foldl (fun (v : HashUnit) (j : Fin 48) => v.sched (16 + j) (by omega) (by omega)) v).W =
      l.foldl (fun w (j : Fin 48) => w.setIfInBounds (16 + j.val) (schedN w j)) v.W := by
    intro l
    induction l with
    | nil => intro v; rfl
    | cons j l ih =>
      intro v
      rw [List.foldl_cons, List.foldl_cons, ih]
      congr 1
      simp only [HashUnit.sched, schedN, j.isLt, dite_true]
      exact set_eq_setIfInBounds _ _ _ _
  exact key _ u

/-- `SCHED(16 + j)` reads words below `16 + j` only. -/
theorem schedN_congr (v w : Vector Word 64) (j : Nat) (h : ∀ (i : Nat) (hi : i < 64), i < 16 + j → v[i] = w[i]) :
    schedN v j = schedN w j := by
  unfold schedN; split
  · rw [h _ _ (by omega), h _ _ (by omega), h _ _ (by omega), h _ _ (by omega)]
  · rfl

theorem schedule_length (B : List Word) (n : Nat) : (Source.schedule B n).length = B.length + n := by
  induction n with
  | zero => rfl
  | succ n ih => simp [Source.schedule, ih]; omega

/-- An array that meets the recurrence of R119 is the schedule of its first sixteen words. -/
theorem schedule_getD (B : List Word) (hB : B.length = 16) (w : Vector Word 64)
    (h0 : ∀ (j : Nat) (hj : j < 16), w[j] = B.getD j 0)
    (h1 : ∀ (i : Nat) (lo : 16 ≤ i) (hi : i < 64), w[i] = w[i - 16] + sigma0 w[i - 15] + w[i - 7] + sigma1 w[i - 2])
    (n : Nat) (hn : n ≤ 48) : ∀ (i : Nat) (hi : i < 64), i < 16 + n → (Source.schedule B n).getD i 0 = w[i] := by
  induction n with
  | zero => intro i hi h; rw [h0 i (by omega)]; rfl
  | succ n ih =>
    intro i hi h
    have hl := schedule_length B n
    simp only [Source.schedule]
    by_cases h2 : i < 16 + n
    · rw [List.getD_append _ _ _ _ (by omega)]; exact ih (by omega) i hi h2
    · have : i = 16 + n := by omega
      subst this
      rw [List.getD_append_right _ _ _ _ (by omega)]
      rw [h1 _ (by omega) hi]
      simp only [hl, hB, Nat.sub_self, List.getD_cons_zero, Source.nextWord]
      rw [ih (by omega) _ (by omega) (by omega), ih (by omega) _ (by omega) (by omega), ih (by omega) _ (by omega) (by omega), ih (by omega) _ (by omega) (by omega)]

/-- The working registers as the list of R121. -/
def Working.vec (r : Working) : Vector Word 8 := #v[r.a, r.b, r.c, r.d, r.e, r.f, r.g, r.h]

/-- The 64 `ROUND` are the fold of the pure round (R121, R124). -/
theorem roundAll_vec (u : HashUnit) : Working.vec u.roundAll.wr =
    (K.toList.zip u.W.toList).foldl Source.roundOn (Working.vec u.wr) := by
  have hz : K.toList.zip u.W.toList = (List.finRange 64).map fun i : Fin 64 => (K[i], u.W[i]) := by
    apply List.ext_getElem
    · simp
    · intro i h1 h2; simp
  rw [hz, List.foldl_map]
  have key : ∀ (l : List (Fin 64)) (v : HashUnit), v.W = u.W →
      Working.vec (l.foldl (fun (v : HashUnit) (i : Fin 64) => v.round i i.isLt) v).wr =
      l.foldl (fun r (i : Fin 64) => Source.roundOn r (K[i], u.W[i])) (Working.vec v.wr) := by
    intro l
    induction l with
    | nil => intro v _; rfl
    | cons j l ih =>
      intro v hv
      rw [List.foldl_cons, List.foldl_cons]
      refine (ih (v.round j j.isLt) hv).trans ?_
      congr 1
      simp only [HashUnit.round, hv]; rfl
  exact key _ u rfl

end Sys2Proof.Machine
end

