-- ==== Sys2Proof/Laws/Decode.lean ====
section
/-! SUPPORT. The fields of a command word: reading a field of an assembled word gives the field, and assembling the fields
of a word gives the word (30_encoding.md R60, R62). -/

namespace Sys2Proof

section assembled
variable (op : BitVec 8) (arg : BitVec 32) (rsvd idx : BitVec 16) (hi ix lo ch : BitVec 8)

theorem op_append : Command.op (op ++ arg) = op := by
  apply BitVec.eq_of_getLsbD_eq; intro i hi
  simp only [Command.op, BitVec.getLsbD_extractLsb', BitVec.getLsbD_append]
  simp [hi]

theorem arg_append : Command.arg (op ++ arg) = arg := by
  apply BitVec.eq_of_getLsbD_eq; intro i hi
  simp only [Command.arg, BitVec.getLsbD_extractLsb', BitVec.getLsbD_append]
  simp [hi]

theorem fieldIRsvd_argI : fieldIRsvd (argI rsvd idx) = rsvd := by
  apply BitVec.eq_of_getLsbD_eq; intro i hi
  simp only [fieldIRsvd, argI, BitVec.getLsbD_extractLsb', BitVec.getLsbD_append]
  simp [hi]

theorem fieldIIdx_argI : fieldIIdx (argI rsvd idx) = idx := by
  apply BitVec.eq_of_getLsbD_eq; intro i hi
  simp only [fieldIIdx, argI, BitVec.getLsbD_extractLsb', BitVec.getLsbD_append]
  simp [hi]

theorem fieldSRsvdHi_argS : fieldSRsvdHi (argS hi ix lo ch) = hi := by
  apply BitVec.eq_of_getLsbD_eq; intro i hi
  simp only [fieldSRsvdHi, argS, BitVec.getLsbD_extractLsb', BitVec.getLsbD_append]
  simp [hi, show ¬ 24 + i < 8 by omega, show ¬ 24 + i - 8 < 8 by omega, show ¬ 24 + i - 8 - 8 < 8 by omega,
    show 24 + i - 8 - 8 - 8 = i by omega]

theorem fieldSIdx_argS : fieldSIdx (argS hi ix lo ch) = ix := by
  apply BitVec.eq_of_getLsbD_eq; intro i hi
  simp only [fieldSIdx, argS, BitVec.getLsbD_extractLsb', BitVec.getLsbD_append]
  simp [hi, show ¬ 16 + i < 8 by omega, show ¬ 16 + i - 8 < 8 by omega, show 16 + i - 8 - 8 = i by omega]

theorem fieldSRsvdLo_argS : fieldSRsvdLo (argS hi ix lo ch) = lo := by
  apply BitVec.eq_of_getLsbD_eq; intro i hi
  simp only [fieldSRsvdLo, argS, BitVec.getLsbD_extractLsb', BitVec.getLsbD_append]
  simp [hi, show ¬ 8 + i < 8 by omega, show 8 + i - 8 = i by omega]

theorem fieldSCh_argS : fieldSCh (argS hi ix lo ch) = ch := by
  apply BitVec.eq_of_getLsbD_eq; intro i hi
  simp only [fieldSCh, argS, BitVec.getLsbD_extractLsb', BitVec.getLsbD_append]
  simp [hi]

end assembled

section split
variable (w : Command) (a : BitVec 32)

theorem op_append_arg : w.op ++ w.arg = w := by
  apply BitVec.eq_of_getLsbD_eq; intro i hi
  simp only [Command.op, Command.arg, BitVec.getLsbD_append, BitVec.getLsbD_extractLsb']
  by_cases h : i < 32
  · simp [h]
  · simp [h, show i - 32 < 8 by omega, show 32 + (i - 32) = i by omega]

theorem argI_fields : argI (fieldIRsvd a) (fieldIIdx a) = a := by
  apply BitVec.eq_of_getLsbD_eq; intro i hi
  simp only [argI, fieldIRsvd, fieldIIdx, BitVec.getLsbD_append, BitVec.getLsbD_extractLsb']
  by_cases h : i < 16
  · simp [h]
  · simp [h, show i - 16 < 16 by omega, show 16 + (i - 16) = i by omega]

theorem argS_fields : argS (fieldSRsvdHi a) (fieldSIdx a) (fieldSRsvdLo a) (fieldSCh a) = a := by
  apply BitVec.eq_of_getLsbD_eq; intro i hi
  simp only [argS, fieldSRsvdHi, fieldSIdx, fieldSRsvdLo, fieldSCh, BitVec.getLsbD_append, BitVec.getLsbD_extractLsb']
  by_cases h : i < 8
  · simp [h]
  by_cases h1 : i < 16
  · simp [h, show i - 8 < 8 by omega, show 8 + (i - 8) = i by omega]
  by_cases h2 : i < 24
  · simp [h, show ¬ i - 8 < 8 by omega, show i - 8 - 8 < 8 by omega, show 16 + (i - 8 - 8) = i by omega]
  · simp [h, show ¬ i - 8 < 8 by omega, show ¬ i - 8 - 8 < 8 by omega, show i - 8 - 8 - 8 < 8 by omega,
      show 24 + (i - 8 - 8 - 8) = i by omega]

theorem argL_fields : argL (fieldCE a) (fieldAS a) (fieldCAP a) = a := by
  apply BitVec.eq_of_getLsbD_eq; intro i hi
  simp only [argL, fieldCE, fieldAS, fieldCAP, BitVec.getLsbD_append, BitVec.getLsbD_extractLsb', BitVec.getLsbD_ofBool]
  by_cases h : i < 30
  · simp [h]
  by_cases h1 : i = 30
  · subst h1; rfl
  · have : i = 31 := by omega
    subst this; rfl

end split

/-- The one way decoding fails names the word's own opcode (R65). -/
theorem decode_error {w : Command} {op : BitVec 8} (h : decode w = .error (.unassignedOpcode op)) : op = w.op := by
  unfold decode decodeFields at h
  split at h
  all_goals cases h
  rfl

/-- Format L: bit 31 is `CE`. -/
theorem argL_ce (ce sel : Bool) (cap : BitVec 30) : (argL ce sel cap).getLsbD 31 = ce := by
  simp only [argL, BitVec.getLsbD_append]
  cases ce <;> rfl

/-- Format L: bit 30 is `AS`. -/
theorem argL_sel (ce sel : Bool) (cap : BitVec 30) : (argL ce sel cap).getLsbD 30 = sel := by
  simp only [argL, BitVec.getLsbD_append]
  cases sel <;> rfl

/-- Format L: bits 29:0 are `CAP`. -/
theorem argL_cap (ce sel : Bool) (cap : BitVec 30) : (argL ce sel cap).extractLsb' 0 30 = cap := by
  apply BitVec.eq_of_getLsbD_eq
  intro i hi
  simp only [argL, BitVec.getLsbD_append, BitVec.getLsbD_extractLsb', hi, Nat.zero_add, decide_true, Bool.true_and,
    cond_true, if_true]

end Sys2Proof
end

