-- ==== Sys2Proof/Laws/Encoder.lean ====
section
/-! SUPPORT. What the loops of the two encoders do to the output string register: its length stays, `ENC16` writes one
character after the other from the front, `ENC64` from the back (42_base16.md R143, 43_base64v.md R164). -/

namespace Sys2Proof.Machine

/-- One word of `ENC16` is its eight nibbles, most significant first, one character each. -/
theorem putWord_eq (cap : Option Nat) (al : Vector Symbol 16) (t : Nat) (l : Enc16Loop) (w : Word) :
    l.putWord cap al t w = ((Source.nibbles w).map (sym16 al t)).foldl (fun l c => l.put cap c) l := rfl

/-- `ENC16` as one loop over the characters of all words. -/
theorem putWords_eq (cap : Option Nat) (al : Vector Symbol 16) (t : Nat) (ws : List Word) (l : Enc16Loop) :
    ws.foldl (Enc16Loop.putWord cap al t) l =
      ((ws.flatMap Source.nibbles).map (sym16 al t)).foldl (fun l c => l.put cap c) l := by
  induction ws generalizing l with
  | nil => rfl
  | cons w ws ih =>
    rw [List.foldl_cons, ih, putWord_eq, List.flatMap_cons, List.map_append, List.foldl_append]

theorem nibbles_length (ws : List Word) : (ws.flatMap Source.nibbles).length = 8 * ws.length := by
  induction ws with
  | nil => rfl
  | cons w ws ih => simp [ih, Source.nibbles]; omega

/-- Characters put from position `p` on: `p` counts them, the register keeps its length, and position `j` holds the
character put there where the cap keeps it, and what it held before elsewhere. -/
theorem putAll (cap : Option Nat) (cs : List Symbol) (l : Enc16Loop) (hl : l.p + cs.length ≤ l.OSTR.length) :
    (cs.foldl (fun l c => l.put cap c) l).p = l.p + cs.length ∧
    (cs.foldl (fun l c => l.put cap c) l).OSTR.length = l.OSTR.length ∧
    ∀ j, (cs.foldl (fun l c => l.put cap c) l).OSTR[j]? =
      if l.p ≤ j ∧ j < l.p + cs.length ∧ keeps cap j then cs[j - l.p]? else l.OSTR[j]? := by
  induction cs generalizing l with
  | nil => exact ⟨rfl, rfl, fun j => (if_neg fun h => absurd h.2.1 (Nat.not_lt_of_le h.1)).symm⟩
  | cons c cs ih =>
    have len : (l.put cap c).OSTR.length = l.OSTR.length := by simp only [Enc16Loop.put]; split <;> simp
    have pos : (l.put cap c).p = l.p + 1 := rfl
    simp only [List.length_cons] at hl
    obtain ⟨h1, h2, h3⟩ := ih (l.put cap c) (by rw [len, pos]; omega)
    refine ⟨by rw [List.foldl_cons, h1, pos, List.length_cons]; omega, by rw [List.foldl_cons, h2, len], fun j => ?_⟩
    rw [List.foldl_cons, h3, pos]
    by_cases hj : j = l.p
    · subst hj
      rw [if_neg (by omega)]
      simp only [Enc16Loop.put, List.length_cons]
      by_cases hk : keeps cap l.p = true
      · rw [if_pos hk, if_pos ⟨Nat.le_refl _, by omega, hk⟩, List.getElem?_set_self (by omega)]; simp
      · rw [if_neg hk, if_neg (fun h => hk h.2.2)]
    · have other : (l.put cap c).OSTR[j]? = l.OSTR[j]? := by
        simp only [Enc16Loop.put]; split
        · exact List.getElem?_set_ne (by omega)
        · rfl
      rw [other]
      by_cases hr : l.p + 1 ≤ j ∧ j < l.p + 1 + cs.length ∧ keeps cap j = true
      · rw [if_pos hr, if_pos ⟨by omega, by simp only [List.length_cons]; omega, hr.2.2⟩,
          show j - l.p = j - (l.p + 1) + 1 by omega, List.getElem?_cons_succ]
      · rw [if_neg hr, if_neg (fun h => hr ⟨by omega, by have := h.2.1; simp only [List.length_cons] at this; omega, h.2.2⟩)]

/-- `ENC16` writes `OSTR` and `OLEN` and nothing else. -/
theorem enc16_frame (cap : Option Nat) (sel : Bool) (u : EncUnit) :
    u.enc16 cap sel = { u with OSTR := (u.enc16 cap sel).OSTR, OLEN := (u.enc16 cap sel).OLEN } := rfl

/-- `ENC64` writes `OSTR` and `OLEN`, leaves `ACC` and `BC` at 0, and nothing else. -/
theorem enc64_frame (cap : Option Nat) (sel : Bool) (u : EncUnit) :
    u.enc64 cap sel = { u with OSTR := (u.enc64 cap sel).OSTR, OLEN := (u.enc64 cap sel).OLEN, ACC := 0, BC := 0 } := rfl

@[simp] theorem emit_length (cap : Option Nat) (al : Vector Symbol 64) (l : Enc64Loop) :
    (l.emit cap al).OSTR.length = l.OSTR.length := by
  simp only [Enc64Loop.emit]; split <;> simp

@[simp] theorem drain_length (cap : Option Nat) (al : Vector Symbol 64) (thr : Int) (fuel : Nat) (l : Enc64Loop) :
    (l.drain cap al thr fuel).OSTR.length = l.OSTR.length := by
  induction fuel generalizing l with
  | zero => rfl
  | succ fuel ih =>
    simp only [Enc64Loop.drain]; split
    · rw [ih, emit_length]
    · rfl

@[simp] theorem step64_length (cap : Option Nat) (al : Vector Symbol 64) (ws : List Word) (l : Enc64Loop) (i : Nat) :
    (l.step cap al ws i).OSTR.length = l.OSTR.length := by
  rw [Enc64Loop.step, drain_length]; rfl

theorem enc64_length (cap : Option Nat) (sel : Bool) (u : EncUnit) : (u.enc64 cap sel).OSTR.length = u.OSTR.length := by
  have : ∀ (is : List Nat) (l : Enc64Loop),
      (is.foldl (Enc64Loop.step cap (u.alphabet64 sel) u.words) l).OSTR.length = l.OSTR.length := by
    intro is
    induction is with
    | nil => intro l; rfl
    | cons i is ih => intro l; rw [List.foldl_cons, ih, step64_length]
  exact this _ _

theorem put_length (cap : Option Nat) (c : Symbol) (l : Enc16Loop) : (l.put cap c).OSTR.length = l.OSTR.length := by
  simp only [Enc16Loop.put]; split <;> simp

theorem enc16_length (cap : Option Nat) (sel : Bool) (u : EncUnit) : (u.enc16 cap sel).OSTR.length = u.OSTR.length := by
  have : ∀ (cs : List Symbol) (l : Enc16Loop), (cs.foldl (fun l c => l.put cap c) l).OSTR.length = l.OSTR.length := by
    intro cs
    induction cs with
    | nil => intro l; rfl
    | cons c cs ih => intro l; rw [List.foldl_cons, ih, put_length]
  simp only [EncUnit.enc16, putWords_eq, this]

/-- The length of a capped string is at most the natural one, and at most the cap. -/
theorem cappedLength_le (cap : Option Nat) (p : Nat) : cappedLength cap p ≤ p := by
  unfold cappedLength
  cases cap with
  | none => exact Nat.le_refl p
  | some c => dsimp only; split <;> omega

/-- The natural length of the Base64 variant is at most that of Base16 (R21: `OSMAX` is enough for both). -/
theorem naturalLength64_le (n : Nat) : naturalLength64 n ≤ 8 * n := by unfold naturalLength64; omega

end Sys2Proof.Machine
end

