-- ==== Sys2Proof/Laws/PerInstr.lean ====
section
/-! SUPPORT. The per-instruction family `ReservedBits`: well-formedness, which `WellFormed.lean` says on the fields, is the
check of 30_encoding.md R66 on the argument word. -/

namespace Sys2Proof.Machine

/-- Format I: the mask of R66 sees exactly the reserved half. -/
theorem argI_mask (rsvd idx : BitVec 16) : argI rsvd idx &&& 0xFFFF0000#32 = 0#32 ↔ rsvd = 0#16 := by
  constructor
  · intro h
    apply BitVec.eq_of_getLsbD_eq
    intro i hi
    have := congrArg (BitVec.getLsbD · (i + 16)) h
    simp only [argI, BitVec.getLsbD_and, BitVec.getLsbD_append] at this
    have hm : (0xFFFF0000#32).getLsbD (i + 16) = true := by
      have : ∀ i : Fin 16, (0xFFFF0000#32).getLsbD (i.val + 16) = true := by decide
      exact this ⟨i, hi⟩
    simpa [hm] using this
  · rintro rfl
    apply BitVec.eq_of_getLsbD_eq
    intro i hi
    simp only [argI, BitVec.getLsbD_and, BitVec.getLsbD_append]
    by_cases h : i < 16
    · have : ∀ i : Fin 16, (0xFFFF0000#32).getLsbD i.val = false := by decide
      simp [this ⟨i, h⟩]
    · simp [h]

/-- Format S: the mask of R66 sees exactly the two reserved bytes. -/
theorem argS_mask (hi idx lo ch : BitVec 8) : argS hi idx lo ch &&& 0xFF00FF00#32 = 0#32 ↔ hi = 0#8 ∧ lo = 0#8 := by
  constructor
  · intro h
    constructor <;> apply BitVec.eq_of_getLsbD_eq <;> intro i hi'
    · have := congrArg (BitVec.getLsbD · (i + 24)) h
      simp only [argS, BitVec.getLsbD_and, BitVec.getLsbD_append] at this
      have hm : (0xFF00FF00#32).getLsbD (i + 24) = true := by
        have : ∀ i : Fin 8, (0xFF00FF00#32).getLsbD (i.val + 24) = true := by decide
        exact this ⟨i, hi'⟩
      simp only [hm, show ¬ i + 24 < 8 by omega, show ¬ i + 24 - 8 < 8 by omega, show ¬ i + 24 - 8 - 8 < 8 by omega,
        decide_false, cond_false, Bool.and_true, show i + 24 - 8 - 8 - 8 = i by omega] at this
      simpa using this
    · have := congrArg (BitVec.getLsbD · (i + 8)) h
      simp only [argS, BitVec.getLsbD_and, BitVec.getLsbD_append] at this
      have hm : (0xFF00FF00#32).getLsbD (i + 8) = true := by
        have : ∀ i : Fin 8, (0xFF00FF00#32).getLsbD (i.val + 8) = true := by decide
        exact this ⟨i, hi'⟩
      simp only [hm, show ¬ i + 8 < 8 by omega, decide_false, cond_false, Bool.and_true, show i + 8 - 8 = i by omega,
        hi', decide_true, cond_true] at this
      simpa using this
  · rintro ⟨rfl, rfl⟩
    apply BitVec.eq_of_getLsbD_eq
    intro i hi
    simp only [argS, BitVec.getLsbD_and, BitVec.getLsbD_append]
    have : ∀ i : Fin 32, i.val < 8 ∨ (8 ≤ i.val ∧ i.val < 16) ∨ (16 ≤ i.val ∧ i.val < 24 ∧ (0xFF00FF00#32).getLsbD i.val = false) ∨ 24 ≤ i.val := by
      decide
    have low : ∀ i : Fin 8, (0xFF00FF00#32).getLsbD i.val = false := by decide
    rcases this ⟨i, hi⟩ with h | h | h | h
    · simp [low ⟨i, h⟩]
    · simp [show ¬ i < 8 by simp at h; omega, show i - 8 < 8 by simp at h; omega]
    · simp [h.2.2]
    · simp [show ¬ i < 8 by simp at h; omega, show ¬ i - 8 < 8 by simp at h; omega, show ¬ i - 8 - 8 < 8 by simp at h; omega]

/-- The check of R66 on the argument word is the check on the fields. -/
theorem reservedBroken_eq_not_wellFormed (i : Instr) : reservedBroken i.format i.arg = !i.wellFormed := by
  have maskN : ∀ r : BitVec 32, r &&& 4294967295#32 = r := fun r => by
    have : (4294967295#32) = BitVec.allOnes 32 := by decide
    rw [this, BitVec.and_allOnes]
  cases i with
  | rdcsr rsvd idx =>
    simp [reservedBroken, Instr.format, Instr.arg, Instr.wellFormed, Format.rsvdMask, bne, argI_mask, beq_eq_decide]
  | clre rsvd => simp [reservedBroken, Instr.format, Instr.arg, Instr.wellFormed, Format.rsvdMask, bne, maskN, beq_eq_decide]
  | srst rsvd => simp [reservedBroken, Instr.format, Instr.arg, Instr.wellFormed, Format.rsvdMask, bne, maskN, beq_eq_decide]
  | hinit rsvd => simp [reservedBroken, Instr.format, Instr.arg, Instr.wellFormed, Format.rsvdMask, bne, maskN, beq_eq_decide]
  | abs code => simp [reservedBroken, Instr.format, Instr.arg, Instr.wellFormed, Format.rsvdMask]
  | hfin rsvd => simp [reservedBroken, Instr.format, Instr.arg, Instr.wellFormed, Format.rsvdMask, bne, maskN, beq_eq_decide]
  | hrd rsvd idx =>
    simp [reservedBroken, Instr.format, Instr.arg, Instr.wellFormed, Format.rsvdMask, bne, argI_mask, beq_eq_decide]
  | ewclr rsvd => simp [reservedBroken, Instr.format, Instr.arg, Instr.wellFormed, Format.rsvdMask, bne, maskN, beq_eq_decide]
  | ewpush word => simp [reservedBroken, Instr.format, Instr.arg, Instr.wellFormed, Format.rsvdMask]
  | ewdig rsvd => simp [reservedBroken, Instr.format, Instr.arg, Instr.wellFormed, Format.rsvdMask, bne, maskN, beq_eq_decide]
  | a16set hi idx lo ch =>
    simp [reservedBroken, Instr.format, Instr.arg, Instr.wellFormed, Format.rsvdMask, bne, argS_mask, beq_eq_decide]
  | a16len rsvd idx =>
    simp [reservedBroken, Instr.format, Instr.arg, Instr.wellFormed, Format.rsvdMask, bne, argI_mask, beq_eq_decide]
  | a64set hi idx lo ch =>
    simp [reservedBroken, Instr.format, Instr.arg, Instr.wellFormed, Format.rsvdMask, bne, argS_mask, beq_eq_decide]
  | enc16 ce sel cap =>
    simp only [reservedBroken, Instr.format, Instr.arg, Instr.wellFormed, Format.rsvdMask, argL_ce, argL_cap]
    cases ce <;> simp [bne]
  | enc64 ce sel cap =>
    simp only [reservedBroken, Instr.format, Instr.arg, Instr.wellFormed, Format.rsvdMask, argL_ce, argL_cap]
    cases ce <;> simp [bne]
  | ord rsvd idx =>
    simp [reservedBroken, Instr.format, Instr.arg, Instr.wellFormed, Format.rsvdMask, bne, argI_mask, beq_eq_decide]

end Sys2Proof.Machine

namespace Sys2Proof.Laws.ReservedBits

open Sys2Proof.Machine

/-- R66: the check of the reserved bits on the argument word fails exactly where the command is not well formed. -/
def Statement (i : Instr) : Prop := reservedBroken i.format i.arg = !i.wellFormed

theorem rdcsr (rsvd idx : BitVec 16) : Statement (.rdcsr rsvd idx) := reservedBroken_eq_not_wellFormed _
theorem clre (rsvd : BitVec 32) : Statement (.clre rsvd) := reservedBroken_eq_not_wellFormed _
theorem srst (rsvd : BitVec 32) : Statement (.srst rsvd) := reservedBroken_eq_not_wellFormed _
theorem hinit (rsvd : BitVec 32) : Statement (.hinit rsvd) := reservedBroken_eq_not_wellFormed _
theorem abs (code : BitVec 32) : Statement (.abs code) := reservedBroken_eq_not_wellFormed _
theorem hfin (rsvd : BitVec 32) : Statement (.hfin rsvd) := reservedBroken_eq_not_wellFormed _
theorem hrd (rsvd idx : BitVec 16) : Statement (.hrd rsvd idx) := reservedBroken_eq_not_wellFormed _
theorem ewclr (rsvd : BitVec 32) : Statement (.ewclr rsvd) := reservedBroken_eq_not_wellFormed _
theorem ewpush (word : BitVec 32) : Statement (.ewpush word) := reservedBroken_eq_not_wellFormed _
theorem ewdig (rsvd : BitVec 32) : Statement (.ewdig rsvd) := reservedBroken_eq_not_wellFormed _
theorem a16set (hi idx lo ch : BitVec 8) : Statement (.a16set hi idx lo ch) := reservedBroken_eq_not_wellFormed _
theorem a16len (rsvd idx : BitVec 16) : Statement (.a16len rsvd idx) := reservedBroken_eq_not_wellFormed _
theorem a64set (hi idx lo ch : BitVec 8) : Statement (.a64set hi idx lo ch) := reservedBroken_eq_not_wellFormed _
theorem enc16 (ce sel : Bool) (cap : BitVec 30) : Statement (.enc16 ce sel cap) := reservedBroken_eq_not_wellFormed _
theorem enc64 (ce sel : Bool) (cap : BitVec 30) : Statement (.enc64 ce sel cap) := reservedBroken_eq_not_wellFormed _
theorem ord (rsvd idx : BitVec 16) : Statement (.ord rsvd idx) := reservedBroken_eq_not_wellFormed _

end Sys2Proof.Laws.ReservedBits
end

