-- ==== Sys2Proof/Laws/Exec.lean ====
section
/-! SUPPORT. What a command can do, once: it raises the first fault of its checks (60_exceptions.md R189), or has its
effect. Every claim about all commands goes through `exec_eq`, and none unfolds the meanings again. -/

namespace Sys2Proof.Machine

/-- The effect of a command that passes its checks, with its response. -/
def effect (i : Instr) (s : State) : State :=
  match i with
  | .rdcsr _ idx => s.answered 0 ((csrRead idx.toNat s).getD 0)
  | .clre _ => s.clearFault.answered 0 0
  | .srst _ => s.reinit.answered 0 0
  | .hinit _ => ({ s with hash := { s.hash with H := IV, LEN := 0, PHASE := .absorb } }).answered 0 0
  | .abs code => ({ s with hash := s.hash.absorb (byteOfCode code) }).answered 0 0
  | .hfin _ => ({ s with hash := { s.hash.padfin with PHASE := .done } }).answered 0 0
  | .hrd _ idx => s.answered 0 (s.hash.H[idx.toNat]?.getD 0)
  | .ewclr _ => ({ s with enc := { s.enc with EN := 0 } }).answered 0 0
  | .ewpush word =>
    ({ s with enc := { s.enc.setEW s.enc.EN.toNat word with EN := s.enc.EN + 1 } }).answered 0 0
  | .ewdig _ =>
    let u := (List.finRange 8).foldl (fun u (i : Fin 8) => u.setEW i s.hash.H[i]) s.enc
    ({ s with enc := { u with EN := 8 } }).answered 0 0
  | .a16set _ idx _ ch => ({ s with enc := { s.enc with A16 := s.enc.A16.setIfInBounds idx.toNat ch } }).answered 0 0
  | .a16len _ idx => ({ s with enc := { s.enc with A16LEN := idx.setWidth 5 } }).answered 0 0
  | .a64set _ idx _ ch => ({ s with enc := { s.enc with A64 := s.enc.A64.setIfInBounds idx.toNat ch } }).answered 0 0
  | .enc16 ce sel cap =>
    ({ s with enc := s.enc.enc16 (capOf ce cap) sel }).answered 0 ((s.enc.enc16 (capOf ce cap) sel).OLEN.setWidth 32)
  | .enc64 ce sel cap =>
    ({ s with enc := s.enc.enc64 (capOf ce cap) sel }).answered 0 ((s.enc.enc64 (capOf ce cap) sel).OLEN.setWidth 32)
  | .ord _ idx => s.answered 0 ((s.enc.getOSTR idx.toNat).setWidth 32)

/-- Registers 0 to 8 exist and no other (R24). -/
theorem csrRead_none_iff (n : Nat) (s : State) : csrRead n s = none ↔ 8 < n := by
  match n with
  | 0 | 1 | 2 | 3 | 4 | 5 | 6 | 7 | 8 => simp [csrRead]
  | n + 9 => simp [csrRead]

/-- The limit of `LEN`, as a number. -/
theorem lenAtLimit_iff (l : BitVec 29) : l = 0x1FFFFFFF#29 ↔ l.toNat = 536870911 :=
  ⟨fun h => by rw [h]; rfl, fun h => BitVec.eq_of_toNat_eq h⟩

/-- WHAT A COMMAND DOES: the first fault of its checks, in the order of R189, or its effect. -/
theorem exec_eq (i : Instr) (s : State) :
    exec i s = .next (match firstFault i s with
                      | some c => s.raise c i
                      | none => effect i s) := by
  unfold firstFault
  rw [reservedBroken_eq_not_wellFormed]
  cases i with
  | rdcsr rsvd idx =>
    simp only [exec, execRdcsr, reservedI]
    by_cases hr : rsvd = 0#16
    · cases hc : csrRead idx.toNat s with
      | none =>
        have := (csrRead_none_iff idx.toNat s).1 hc
        simp [Instr.wellFormed, hr, hc, phaseBroken, phaseNeeded, rangeBroken, this]
      | some v =>
        have : ¬ 8 < idx.toNat := fun h => by rw [(csrRead_none_iff idx.toNat s).2 h] at hc; cases hc
        simp [Instr.wellFormed, hr, hc, phaseBroken, phaseNeeded, rangeBroken, resourceBroken, effect, this]
    · simp [Instr.wellFormed, hr]
  | clre rsvd =>
    by_cases hr : rsvd = 0#32 <;>
      simp [exec, execClre, reservedN, Instr.wellFormed, hr, phaseBroken, phaseNeeded, rangeBroken, resourceBroken, effect]
  | srst rsvd =>
    by_cases hr : rsvd = 0#32 <;>
      simp [exec, execSrst, reservedN, Instr.wellFormed, hr, phaseBroken, phaseNeeded, rangeBroken, resourceBroken, effect]
  | hinit rsvd =>
    by_cases hr : rsvd = 0#32 <;>
      simp [exec, execHinit, reservedN, Instr.wellFormed, hr, phaseBroken, phaseNeeded, rangeBroken, resourceBroken, effect]
  | abs code =>
    have limit := lenAtLimit_iff s.hash.LEN
    by_cases hp : s.hash.PHASE = .absorb <;> by_cases hd : 255 < code.toNat <;>
      by_cases hl : s.hash.LEN.toNat = 536870911 <;> simp only [hl, iff_true, iff_false] at limit <;>
      simp [exec, execAbs, Instr.wellFormed, phaseBroken, phaseNeeded, rangeBroken, resourceBroken, effect, hp, hd, hl,
        codeOutOfDomain, limit]
  | hfin rsvd =>
    by_cases hr : rsvd = 0#32 <;> by_cases hp : s.hash.PHASE = .absorb <;>
      simp [exec, execHfin, reservedN, Instr.wellFormed, hr, phaseBroken, phaseNeeded, rangeBroken, resourceBroken, effect, hp]
  | hrd rsvd idx =>
    by_cases hr : rsvd = 0#16 <;> by_cases hp : s.hash.PHASE = .done <;> by_cases hi : idx.toNat < 8 <;>
      simp [exec, execHrd, reservedI, Instr.wellFormed, hr, phaseBroken, phaseNeeded, rangeBroken, resourceBroken,
        effect, hp, hi, show ¬ (7 < idx.toNat) ↔ idx.toNat < 8 by omega, show 7 < idx.toNat ↔ ¬ idx.toNat < 8 by omega]
  | ewclr rsvd =>
    by_cases hr : rsvd = 0#32 <;>
      simp [exec, execEwclr, reservedN, Instr.wellFormed, hr, phaseBroken, phaseNeeded, rangeBroken, resourceBroken, effect]
  | ewpush word =>
    by_cases hf : s.enc.EN.toNat = s.cfg.EWMAX <;>
      simp [exec, execEwpush, Instr.wellFormed, phaseBroken, phaseNeeded, rangeBroken, resourceBroken, effect, hf]
  | ewdig rsvd =>
    by_cases hr : rsvd = 0#32 <;> by_cases hp : s.hash.PHASE = .done <;>
      simp [exec, execEwdig, reservedN, Instr.wellFormed, hr, phaseBroken, phaseNeeded, rangeBroken, resourceBroken, effect, hp]
  | a16set rsvdHi idx rsvdLo ch =>
    by_cases hr : rsvdHi = 0#8 <;> by_cases hl : rsvdLo = 0#8 <;> by_cases hi : idx.toNat < 16 <;>
      simp [exec, execA16set, reservedS, Instr.wellFormed, hr, hl, phaseBroken, phaseNeeded, rangeBroken,
        resourceBroken, effect, hi, set_eq_setIfInBounds, show 15 < idx.toNat ↔ ¬ idx.toNat < 16 by omega]
  | a16len rsvd idx =>
    by_cases hr : rsvd = 0#16 <;> by_cases hi : idx.toNat = 0 ∨ 16 < idx.toNat <;>
      simp [exec, execA16len, reservedI, Instr.wellFormed, hr, phaseBroken, phaseNeeded, rangeBroken, resourceBroken,
        effect, hi, Nat.lt_one_iff]
  | a64set rsvdHi idx rsvdLo ch =>
    by_cases hr : rsvdHi = 0#8 <;> by_cases hl : rsvdLo = 0#8 <;> by_cases hi : idx.toNat < 64 <;>
      simp [exec, execA64set, reservedS, Instr.wellFormed, hr, hl, phaseBroken, phaseNeeded, rangeBroken,
        resourceBroken, effect, hi, set_eq_setIfInBounds, show 63 < idx.toNat ↔ ¬ idx.toNat < 64 by omega]
  | enc16 ce sel cap =>
    by_cases hr : ce = true <;> by_cases hc : cap = 0#30 <;>
      simp [exec, execEnc16, reservedL, Instr.wellFormed, hr, hc, phaseBroken, phaseNeeded, rangeBroken, resourceBroken, effect]
  | enc64 ce sel cap =>
    by_cases hr : ce = true <;> by_cases hc : cap = 0#30 <;>
      simp [exec, execEnc64, reservedL, Instr.wellFormed, hr, hc, phaseBroken, phaseNeeded, rangeBroken, resourceBroken, effect]
  | ord rsvd idx =>
    by_cases hr : rsvd = 0#16 <;> by_cases hi : s.enc.OLEN.toNat ≤ idx.toNat <;>
      simp [exec, execOrd, reservedI, Instr.wellFormed, hr, phaseBroken, phaseNeeded, rangeBroken, resourceBroken,
        effect, hi]

/-- The same checks with the reserved bits said on the fields. -/
theorem exec_checks (i : Instr) (s : State) :
    exec i s = .next (match (if i.wellFormed = false then some .rsvd
                             else if phaseBroken i s then some .phase
                             else (rangeBroken i s).orElse fun _ => resourceBroken i s : Option FaultCode) with
                      | some c => s.raise c i
                      | none => effect i s) := by
  simp only [exec_eq, firstFault, reservedBroken_eq_not_wellFormed, Bool.not_eq_true']

/-- The two ways a command ends: fault entry for the first check that fails, or its effect. -/
theorem exec_cases {i : Instr} {s t : State} (h : exec i s = .next t) :
    (∃ c, firstFault i s = some c ∧ t = s.raise c i) ∨ (firstFault i s = none ∧ t = effect i s) := by
  rw [exec_eq] at h
  cases hf : firstFault i s with
  | some c => exact .inl ⟨c, rfl, by simpa [hf] using h.symm⟩
  | none => exact .inr ⟨rfl, by simpa [hf] using h.symm⟩

/-- The data of the response of a command that has its effect. -/
def okData (i : Instr) (s : State) : Word :=
  match i with
  | .rdcsr _ idx => (csrRead idx.toNat s).getD 0
  | .hrd _ idx => s.hash.H[idx.toNat]?.getD 0
  | .enc16 ce sel cap => (s.enc.enc16 (capOf ce cap) sel).OLEN.setWidth 32
  | .enc64 ce sel cap => (s.enc.enc64 (capOf ce cap) sel).OLEN.setWidth 32
  | .ord _ idx => (s.enc.getOSTR idx.toNat).setWidth 32
  | .clre _ | .srst _ | .hinit _ | .abs _ | .hfin _ | .ewclr _ | .ewpush _ | .ewdig _ | .a16set _ _ _ _ | .a16len _ _
  | .a64set _ _ _ _ => 0

theorem effect_rsps (i : Instr) (s : State) : (effect i s).rsps = s.rsps ++ [{ CODE := 0, DATA := okData i s }] := by
  cases i <;> rfl

@[simp] theorem effect_cfg (i : Instr) (s : State) : (effect i s).cfg = s.cfg := by cases i <;> rfl

@[simp] theorem effect_cmds (i : Instr) (s : State) : (effect i s).cmds = s.cmds := by cases i <;> rfl

/-- The effect of a command outside the hash unit's leaves the hash unit alone. -/
theorem effect_hash {i : Instr} (h : i.drivesHash = false) (s : State) : (effect i s).hash = s.hash := by
  cases i <;> first | rfl | cases h

/-- The effect of a command outside the encoders' leaves the encoders alone. -/
theorem effect_enc {i : Instr} (h : i.drivesEncoder = false) (s : State) : (effect i s).enc = s.enc := by
  cases i <;> first | rfl | cases h

@[simp] theorem raise_cfg (c : FaultCode) (i : Instr) (s : State) : (s.raise c i).cfg = s.cfg := rfl
@[simp] theorem raise_enc (c : FaultCode) (i : Instr) (s : State) : (s.raise c i).enc = s.enc := rfl
@[simp] theorem raise_cmds (c : FaultCode) (i : Instr) (s : State) : (s.raise c i).cmds = s.cmds := rfl

/-- Only `ABS` raises a terminal fault. -/
theorem terminal_is_abs {i : Instr} {s : State} {c : FaultCode} (h : firstFault i s = some c) (hc : c.terminal = true) :
    ∃ code, i = .abs code ∧ s.hash.PHASE = .absorb ∧ (255 < code.toNat ∨ s.hash.LEN.toNat = 2 ^ 29 - 1) := by
  unfold firstFault at h
  split at h
  · cases h; cases hc
  split at h
  · cases h; cases hc
  cases i with
  | abs code =>
    rename_i hp
    refine ⟨code, rfl, by simpa [phaseBroken, phaseNeeded] using hp, ?_⟩
    by_cases hd : 255 < code.toNat
    · exact .inl hd
    · right
      by_contra hl
      simp [rangeBroken, resourceBroken, hd, show ¬ s.hash.LEN.toNat = 536870911 from hl] at h
  | _ =>
    simp only [rangeBroken, resourceBroken, Option.orElse] at h
    repeat' split at h
    all_goals first
      | (cases h; cases hc; done)
      | (cases h; rename_i hh; split at hh <;> cases hh; cases hc; done)
      | simp at h

/-- No command reads the input channel: it runs the same whatever the host still has to send. -/
theorem effect_withCmds (i : Instr) (s : State) (c : List HostInput) :
    effect i { s with cmds := c } = { effect i s with cmds := c } := by
  cases i <;> rfl

theorem firstFault_withCmds (i : Instr) (s : State) (c : List HostInput) :
    firstFault i { s with cmds := c } = firstFault i s := by
  cases i <;> rfl

/-- The fault record after an effect. -/
theorem effect_err (i : Instr) (s : State) :
    (effect i s).err = match i with
      | .clre _ | .srst _ => FaultRecord.clear
      | .rdcsr _ _ | .hinit _ | .abs _ | .hfin _ | .hrd _ _ | .ewclr _ | .ewpush _ | .ewdig _ | .a16set _ _ _ _
      | .a16len _ _ | .a64set _ _ _ _ | .enc16 _ _ _ | .enc64 _ _ _ | .ord _ _ => s.err := by
  cases i <;> rfl

end Sys2Proof.Machine
end

