-- ==== Sys2Proof/Tests/Slice0.lean ====
section
/-! SUPPORT. Tests of the model against the words, constants and vectors that the spec prints, and for each obligation with
hypotheses a witness that meets them all. -/

namespace Sys2Proof.Tests

open Sys2Proof Sys2Proof.Machine

/-! ## Well-formedness: one ill-formed term for each check, refused (30_encoding.md R66) -/

theorem test_illFormed_rdcsr : (Instr.rdcsr 1 0).wellFormed = false := by decide
theorem test_illFormed_clre : (Instr.clre 1).wellFormed = false := by decide
theorem test_illFormed_srst : (Instr.srst 0x80000000).wellFormed = false := by decide
theorem test_illFormed_hinit : (Instr.hinit 1).wellFormed = false := by decide
theorem test_illFormed_hfin : (Instr.hfin 1).wellFormed = false := by decide
theorem test_illFormed_hrd : (Instr.hrd 0x8000 0).wellFormed = false := by decide
theorem test_illFormed_ewclr : (Instr.ewclr 1).wellFormed = false := by decide
theorem test_illFormed_ewdig : (Instr.ewdig 1).wellFormed = false := by decide
theorem test_illFormed_a16set : (Instr.a16set 1 0 0 0).wellFormed = false ∧ (Instr.a16set 0 0 1 0).wellFormed = false := by
  decide
theorem test_illFormed_a16len : (Instr.a16len 1 1).wellFormed = false := by decide
theorem test_illFormed_a64set : (Instr.a64set 1 0 0 0).wellFormed = false ∧ (Instr.a64set 0 0 1 0).wellFormed = false := by
  decide
theorem test_illFormed_enc16 : (Instr.enc16 false true 1).wellFormed = false := by decide
theorem test_illFormed_enc64 : (Instr.enc64 false false 5).wellFormed = false := by decide
theorem test_illFormed_ord : (Instr.ord 1 0).wellFormed = false := by decide
/-- The two formats without reserved bits have nothing to refuse. -/
theorem test_wellFormed_abs_ewpush :
    (Instr.abs 0xFFFFFFFF).wellFormed = true ∧ (Instr.ewpush 0xFFFFFFFF).wellFormed = true := by decide

/-! ## Decoding: words written out from R60, R62 and R64 (those of 95_test_vectors.md where it has one) -/

/-- `RDCSR 6`: OP 0x01, idx in bits 15:0; with bit 16 set the reserved half is 1. -/
theorem test_decode_rdcsr : decode 0x0100000006 = .ok (.rdcsr 0 6) ∧ decode 0x0100010006 = .ok (.rdcsr 1 6) := by decide
theorem test_decode_clre : decode 0x0200000001 = .ok (.clre 1) := by decide
theorem test_decode_srst : decode 0x0300000000 = .ok (.srst 0) := by decide
theorem test_decode_hinit : decode 0x1000000001 = .ok (.hinit 1) := by decide
theorem test_decode_abs : decode 0x1100000061 = .ok (.abs 0x61) := by decide
theorem test_decode_hfin : decode 0x1200000000 = .ok (.hfin 0) := by decide
/-- V-H20: `0x1300010009` is `HRD` with a reserved bit and index 9. -/
theorem test_decode_hrd : decode 0x1300010009 = .ok (.hrd 1 9) := by decide
theorem test_decode_ewclr : decode 0x2000000000 = .ok (.ewclr 0) := by decide
/-- P3: `EWPUSH 0xdeadbeef`. -/
theorem test_decode_ewpush : decode 0x21DEADBEEF = .ok (.ewpush 0xDEADBEEF) := by decide
theorem test_decode_ewdig : decode 0x2200000000 = .ok (.ewdig 0) := by decide
/-- V-H5, V-H6: bit 24 is in the high reserved byte, bit 14 in the low one. -/
theorem test_decode_a16set : decode 0x2301000041 = .ok (.a16set 1 0 0 0x41) ∧ decode 0x2300004100 = .ok (.a16set 0 0 0x41 0) := by
  decide
/-- V-H14: `A16LEN 17`. -/
theorem test_decode_a16len : decode 0x2400000011 = .ok (.a16len 0 17) := by decide
/-- P3: `A64SET 62, '+'`. -/
theorem test_decode_a64set : decode 0x25003E002B = .ok (.a64set 0 62 0 0x2B) := by decide
/-- P2: `ENC16 cap=12` is `0x288000000C`: CE is bit 31. -/
theorem test_decode_enc16 : decode 0x288000000C = .ok (.enc16 true false 12) := by decide
/-- P3: `ENC64 cap=4, custom` is `0x29C0000004`, `ENC64 custom` is `0x2940000000`: AS is bit 30. -/
theorem test_decode_enc64 :
    decode 0x29C0000004 = .ok (.enc64 true true 4) ∧ decode 0x2940000000 = .ok (.enc64 false true 0) := by decide
/-- P2: `ORD 63`. -/
theorem test_decode_ord : decode 0x2A0000003F = .ok (.ord 0 63) := by decide
/-- V-H1 to V-H3: unassigned opcodes. -/
theorem test_decode_unassigned :
    decode 0x0000000000 = .error (.unassignedOpcode 0x00) ∧ decode 0xFF12345678 = .error (.unassignedOpcode 0xFF) ∧
    decode 0x2600000000 = .error (.unassignedOpcode 0x26) ∧ decode 0x2700000000 = .error (.unassignedOpcode 0x27) ∧
    decode 0x2B00000000 = .error (.unassignedOpcode 0x2B) ∧ decode 0x0400000000 = .error (.unassignedOpcode 0x04) ∧
    decode 0x1400000000 = .error (.unassignedOpcode 0x14) := by decide

/-! ## Constants, against their definitions -/

/-- The first 64 primes. -/
def primes : List Nat :=
  [2, 3, 5, 7, 11, 13, 17, 19, 23, 29, 31, 37, 41, 43, 47, 53, 59, 61, 67, 71, 73, 79, 83, 89, 97, 101, 103, 107, 109, 113, 127, 131]
    ++ [137, 139, 149, 151, 157, 163, 167, 173, 179, 181, 191, 193, 197, 199, 211, 223, 227, 229, 233, 239, 241, 251, 257, 263, 269, 271, 277, 281, 283, 293, 307, 311]

/-- `k` is the first 32 bits of the fraction of the `e`-th root of `p`: with `r` the integer part, `r 2^32 + k` is the
floor of the root of `p 2^(32 e)`. -/
def isRootFraction (e p : Nat) (k : Word) : Bool :=
  (List.range 18).any fun r =>
    let n := r * 2 ^ 32 + k.toNat
    decide (n ^ e ≤ p * 2 ^ (32 * e)) && decide (p * 2 ^ (32 * e) < (n + 1) ^ e)

/-- FIPS 180-4's definition of `K` (the cube roots of the first 64 primes), which 41_compressor.md R116's table must meet. -/
theorem test_K_is_cube_roots :
    primes.length = 64 ∧ ((primes.zip K.toList).all fun pk => isRootFraction 3 pk.1 pk.2) = true := by decide +kernel

/-- The initial hash values are the square roots of the first 8 primes. -/
theorem test_IV_is_square_roots : ((primes.zip IV.toList).all fun pk => isRootFraction 2 pk.1 pk.2) = true := by
  decide +kernel

/-- 42_base16.md R136 and 43_base64v.md R156: the alphabets have 16 and 64 different symbols; `.` is number 62, `_` is 63. -/
theorem test_alphabets : D16.toList.Nodup ∧ D64.toList.Nodup ∧ D64[62] = 0x2E ∧ D64[63] = 0x5F := by decide +kernel

/-! ## One step per test -/

/-- The 40 bits of the last response, 0xFFFFFFFFFF if there is none. -/
def answer : Result → BitVec 40
  | .next t => (t.rsps.getLast?.map Response.word).getD 0xFFFFFFFFFF
  | .fault _ => 0xFFFFFFFFFF
  | .refused _ => 0xFFFFFFFFFF

/-- A property of the state after the step. -/
def leaves (p : State → Bool) : Result → Bool
  | .next t => p t
  | .fault _ => false
  | .refused _ => false

/-- A message open with `len` bytes absorbed, the first of them `bytes`. -/
def messageOpen (len : Nat) (bytes : List Byte) : State :=
  { State.reset with hash := { State.reset.hash with
    H := IV
    BUF := Vector.ofFn fun i => bytes.getD i 0
    LEN := BitVec.ofNat 29 len
    PHASE := .absorb } }

/-- The digest of "abc" (S2 of 95_test_vectors.md) in `H`, phase DONE. -/
def abcDone : State :=
  { State.reset with hash := { State.reset.hash with
    H := #v[0xba7816bf, 0x8f01cfea, 0x414140de, 0x5dae2223, 0xb00361a3, 0x96177a9c, 0xb410ff61, 0xf20015ad]
    PHASE := .done } }

/-- The three words of P3 in the encoder input. -/
def threeWords : State :=
  { State.reset with enc := { State.reset.enc with
    EW := [0xdeadbeef, 0x00000000, 0x00000001] ++ List.replicate 13 0
    EN := 3 } }

/-- The encoder input is full. -/
def bufferFull : State := { State.reset with enc := { State.reset.enc with EN := 16 } }

/-- The string "dead" in the output string register. -/
def deadString : State :=
  { State.reset with enc := { State.reset.enc with
    OSTR := [0x64, 0x65, 0x61, 0x64] ++ List.replicate 124 0
    OLEN := 4 } }

/-- A fault of `ABS` recorded (V-H7). -/
def faultRecorded : State :=
  { State.reset with err := { EF := true, ECAUSE := 3, EOP := 0x11, EARG := 0x61 } }

/-- P4: STATUS is 4 with a fault recorded in phase IDLE; register 3 is `EARG`. -/
theorem test_rdcsr : answer (runCommand 0x0100000000 faultRecorded) = 0x0000000004 ∧
    answer (runCommand 0x0100000003 faultRecorded) = 0x0000000061 := by decide
/-- `EWMAX = 16` is register 8; register 9 does not exist. -/
theorem test_rdcsr_last : answer (runCommand 0x0100000008 State.reset) = 0x0000000010 ∧
    answer (runCommand 0x0100000009 State.reset) = 0x0500000000 := by decide
/-- V-G4: `CLRE` zeroes the record; with `ARG = 1` it clears nothing. -/
theorem test_clre : leaves (fun t => t.err == FaultRecord.clear) (runCommand 0x0200000000 faultRecorded) = true ∧
    leaves (fun t => t.err == faultRecorded.err) (runCommand 0x0200000001 faultRecorded) = true := by decide
/-- V-G5: after `SRST` the phase is IDLE, `EN`, `OLEN`, `LEN` are 0, `A16LEN` is 16. -/
theorem test_srst : answer (runCommand 0x0300000000 abcDone) = 0x0000000000 ∧
    leaves (fun t => t.hash.PHASE == .idle && t.hash.LEN == 0 && t.enc.EN == 0 && t.enc.OLEN == 0 && t.enc.A16LEN == 16)
      (runCommand 0x0300000000 abcDone) = true := by decide
/-- P1: after `HINIT` the phase is ABSORB and `H[7]` the last initial value; V-H4: not with a reserved bit. -/
theorem test_hinit : leaves (fun t => t.hash.PHASE == .absorb && t.hash.H[7] == 0x5be0cd19 && t.hash.LEN == 0)
      (runCommand 0x1000000000 abcDone) = true ∧
    answer (runCommand 0x1000000001 State.reset) = 0x0200000000 := by decide
/-- V-H12: `ABS 255` at the start of a message stores 0xff in `BUF[0]`. -/
theorem test_abs : leaves (fun t => t.hash.LEN == 1 && t.hash.BUF[0] == 0xff && t.hash.H == IV)
    (runCommand 0x11000000FF (messageOpen 0 [])) = true := by decide
/-- V-H24: at the length limit the domain is checked first; V-H16: then the limit. -/
theorem test_abs_limits : answer (runCommand 0x1100000100 (messageOpen 0x1FFFFFFF [])) = 0x0400000000 ∧
    answer (runCommand 0x1100000000 (messageOpen 0x1FFFFFFF [])) = 0x0600000000 := by decide
/-- S2, P1: `HFIN` after "abc" leaves the printed digest. -/
theorem test_hfin_abc : leaves (fun t => t.hash.H == abcDone.hash.H && t.hash.PHASE == .done && t.hash.LEN == 3)
    (runCommand 0x1200000000 (messageOpen 3 [0x61, 0x62, 0x63])) = true := by decide +kernel
/-- V-H18: `HFIN` of a message of 2^29 - 1 bytes ends in the length bytes `ff ff ff f8`. -/
theorem test_hfin_longest : leaves (fun t => t.hash.BUF.toList.drop 58 == [0, 0, 0xff, 0xff, 0xff, 0xf8])
    (runCommand 0x1200000000 (messageOpen 0x1FFFFFFF [])) = true := by decide +kernel
/-- P1: `HRD 1`; V-H13: `HRD 8`. -/
theorem test_hrd : answer (runCommand 0x1300000001 abcDone) = 0x008F01CFEA ∧
    answer (runCommand 0x1300000008 abcDone) = 0x0500000000 := by decide
theorem test_ewclr : leaves (fun t => t.enc.EN == 0 && t.enc.EW[0]? == some 0xdeadbeef) (runCommand 0x2000000000 threeWords) = true := by
  decide
/-- The fourth word goes to `EW[3]`; V-H19: a full buffer. -/
theorem test_ewpush : leaves (fun t => t.enc.words == [0xdeadbeef, 0, 1, 0x12345678]) (runCommand 0x2112345678 threeWords) = true ∧
    answer (runCommand 0x2100000000 bufferFull) = 0x0700000000 := by decide
/-- P5: `EWDIG` copies the digest; in phase IDLE it raises E_PHASE. -/
theorem test_ewdig : leaves (fun t => t.enc.words == abcDone.hash.H.toList) (runCommand 0x2200000000 abcDone) = true ∧
    answer (runCommand 0x2200000000 State.reset) = 0x0300000000 := by decide
/-- `A16SET 15, 'x'`; V-H15: `A16SET 16`. -/
theorem test_a16set : leaves (fun t => t.enc.A16[15] == 0x78 && t.enc.A16[14] == 0x65) (runCommand 0x23000F0078 State.reset) = true ∧
    answer (runCommand 0x2300100078 State.reset) = 0x0500000000 := by decide
/-- `A16LEN 1` and `A16LEN 16` are the ends of the range; V-H14: 0 and 17 are outside. -/
theorem test_a16len : leaves (fun t => t.enc.A16LEN == 1) (runCommand 0x2400000001 State.reset) = true ∧
    answer (runCommand 0x2400000010 State.reset) = 0x0000000000 ∧
    answer (runCommand 0x2400000000 State.reset) = 0x0500000000 ∧
    answer (runCommand 0x2400000011 State.reset) = 0x0500000000 := by decide
/-- P3: `A64SET 62, '+'`; V-H15: `A64SET 64`. -/
theorem test_a64set : leaves (fun t => t.enc.A64[62] == 0x2B && t.enc.A64[63] == 0x5F) (runCommand 0x25003E002B State.reset) = true ∧
    answer (runCommand 0x2500400078 State.reset) = 0x0500000000 := by decide +kernel
/-- P3: `ENC16 cap=9` of deadbeef 00000000 00000001 is `deadbeef0`. -/
theorem test_enc16_cap : leaves (fun t => t.enc.string == [0x64, 0x65, 0x61, 0x64, 0x62, 0x65, 0x65, 0x66, 0x30])
    (runCommand 0x2880000009 threeWords) = true := by decide
/-- `ENC16` without a cap: 24 characters, the last one `1`. -/
theorem test_enc16 : answer (runCommand 0x2800000000 threeWords) = 0x0000000018 ∧
    leaves (fun t => t.enc.OSTR[23]? == some 0x31) (runCommand 0x2800000000 threeWords) = true := by decide
/-- P3: `ENC64` of the same words is `3q2.7wAAAAAAAAAB`. -/
theorem test_enc64 : answer (runCommand 0x2900000000 threeWords) = 0x0000000010 ∧
    leaves (fun t => t.enc.string ==
      [0x33, 0x71, 0x32, 0x2E, 0x37, 0x77, 0x41, 0x41, 0x41, 0x41, 0x41, 0x41, 0x41, 0x41, 0x41, 0x42])
      (runCommand 0x2900000000 threeWords) = true := by decide +kernel
/-- P3: with `cap=4` the FIRST four characters stay (90_conflicts.md). -/
theorem test_enc64_cap : leaves (fun t => t.enc.string == [0x33, 0x71, 0x32, 0x2E]) (runCommand 0x2980000004 threeWords) = true := by
  decide +kernel
/-- `ORD 3` is the last character, `ORD 4` is beyond the string. -/
theorem test_ord : answer (runCommand 0x2A00000003 deadString) = 0x0000000064 ∧
    answer (runCommand 0x2A00000004 deadString) = 0x0500000000 := by decide
/-- V-H2: an unassigned opcode is recorded with its argument; the record keeps the first fault (R190). -/
theorem test_illop : leaves (fun t => t.err == { EF := true, ECAUSE := 1, EOP := 0xFF, EARG := 0x12345678 })
      (runCommand 0xFF12345678 State.reset) = true ∧
    leaves (fun t => t.err == faultRecorded.err) (runCommand 0xFF12345678 faultRecorded) = true := by decide
/-- V-H20, V-H21, V-H23: reserved before phase before range and domain. -/
theorem test_priority : answer (runCommand 0x1300010009 State.reset) = 0x0200000000 ∧
    answer (runCommand 0x1300000009 State.reset) = 0x0300000000 ∧
    answer (runCommand 0x1100000100 State.reset) = 0x0300000000 := by decide

/-! The word functions, the schedule and the first round, on the spec's vectors. -/

/-- V-A1, V-A2 (the row of 61626380), V-A3 (round 0). -/
theorem test_word_functions : rotr 0x12345678 28 = 0x23456781 ∧ rotr 0x12345678 0 = 0x12345678 ∧
    sigma0 0x61626380 = 0x940e90ef ∧ sigma1 0x61626380 = 0x7da86405 ∧
    bigSigma0 0x61626380 = 0x8dd59276 ∧ bigSigma1 0x61626380 = 0xc0b865f2 ∧
    ch 0x510e527f 0x9b05688c 0x1f83d9ab = 0x1f85c98c ∧ maj 0x6a09e667 0xbb67ae85 0x3c6ef372 = 0x3a6fe667 := by decide
/-- V-C2, round 0 of "abc": `a` and `e` after it. -/
theorem test_round : ((Working.round K[0] 0x61626380 (HashUnit.initwr (messageOpen 0 []).hash).wr).a = 0x5d6aebcd) ∧
    ((Working.round K[0] 0x61626380 (HashUnit.initwr (messageOpen 0 []).hash).wr).e = 0xfa2a4622) := by decide +kernel
/-- V-C1: words 16, 17, 18 and 63 of the schedule of "abc". -/
theorem test_schedule :
    let w := Source.schedule [0x61626380, 0, 0, 0, 0, 0, 0, 0, 0, 0, 0, 0, 0, 0, 0, 0x18] 48
    w[16]? = some 0x61626380 ∧ w[17]? = some 0x000f0000 ∧ w[18]? = some 0x7da86405 ∧ w[63]? = some 0x12b1edeb := by
  decide +kernel
/-- V-B1: the zero bytes for 0, 55, 56, 63 and 64 message bytes. -/
theorem test_zeroFill : [0, 55, 56, 63, 64].map Source.zeroFill = [55, 0, 63, 56, 55] := by decide

/-! ## Witnesses: states and operands that meet the hypotheses of the obligations, clause by clause -/

/-- The step answers a next state with exactly one response more than `s` had, and the response has `p`: what
`yields_exists` spells out. -/
def yields (s : State) (p : Response → Bool) : Result → Bool
  | .next t =>
    match t.rsps.drop s.rsps.length with
    | [r] => t.rsps == s.rsps ++ [r] && p r
    | _ => false
  | .fault _ => false
  | .refused _ => false

theorem yields_exists {s : State} {p : Response → Bool} {x : Result} (h : yields s p x = true) :
    ∃ t r, x = .next t ∧ t.rsps = s.rsps ++ [r] ∧ p r = true := by
  unfold yields at h
  split at h
  · split at h
    · simp only [Bool.and_eq_true, beq_iff_eq] at h
      exact ⟨_, _, rfl, h.1, h.2⟩
    · cases h
  · cases h
  · cases h

theorem resetInv : State.reset.Inv :=
  ⟨by decide, by decide, by decide, by decide +kernel, by decide, by decide, by decide, by decide, rfl, rfl, fun _ => rfl,
    fun h => by cases h⟩

theorem threeWordsInv : threeWords.Inv :=
  ⟨by decide, by decide, by decide, by decide +kernel, by decide, by decide, by decide, by decide, rfl, rfl, fun _ => rfl,
    fun h => by cases h⟩

theorem bufferFullInv : bufferFull.Inv :=
  ⟨by decide, by decide, by decide, by decide +kernel, by decide, by decide, by decide, by decide, rfl, rfl, fun _ => rfl,
    fun h => by cases h⟩

theorem deadStringInv : deadString.Inv :=
  ⟨by decide, by decide, by decide, by decide +kernel, by decide, by decide, by decide, by decide, rfl, rfl, fun _ => rfl,
    fun h => by cases h⟩

theorem abcDoneInv : abcDone.Inv :=
  ⟨by decide, by decide, by decide, by decide +kernel, by decide, by decide, by decide, by decide, rfl, rfl, fun _ => rfl,
    fun h => by cases h⟩

theorem witness_EncodeOfDecode : decode 0x29C0000004 = .ok (.enc64 true true 4) := by decide

/-- The ends of every unassigned range of R65, and a word on the other side of each. -/
theorem witness_UnassignedOpcodesRaiseIllop :
    ([0x00, 0x04, 0x0F, 0x14, 0x1F, 0x26, 0x27, 0x2B, 0xFF].all unassigned) = true ∧
    ([0x01, 0x03, 0x10, 0x13, 0x20, 0x25, 0x28, 0x2A].all fun n => !unassigned n) = true ∧
    unassigned ((0xFF12345678 : Command).toNat / 2 ^ 32) = true ∧
    unassigned ((0x2A00000000 : Command).toNat / 2 ^ 32) = false := by decide

/-- One broken command for each mask that is not 0, and the cap that `CE = 0` forbids. -/
theorem witness_ReservedBitsRaiseRsvd :
    (Instr.hinit 0x80000000).arg &&& (Instr.hinit 0x80000000).format.rsvdMask ≠ 0 ∧
    (Instr.rdcsr 1 0).arg &&& (Instr.rdcsr 1 0).format.rsvdMask ≠ 0 ∧
    (Instr.a16set 1 0 0 0).arg &&& (Instr.a16set 1 0 0 0).format.rsvdMask ≠ 0 ∧
    (Instr.a64set 0 0 1 0).arg &&& (Instr.a64set 0 0 1 0).format.rsvdMask ≠ 0 ∧
    (1 : BitVec 30) ≠ 0 := by decide

theorem witness_StepRunsDecodedCommand :
    State.reset.cmds = [] ∧
    ({ State.reset with cmds := [.cmd 0x1000000000, .rst none] }).cmds = .cmd 0x1000000000 :: [.rst none] ∧
    decode 0x1000000000 = .ok (.hinit 0) := by decide

/-- The two implications of the responses: a fault, and a command that passes no value. -/
theorem witness_OneResponsePerCommand :
    yields State.reset (fun r => r.CODE != 0) (runCommand 0x1100000061 State.reset) = true ∧
    (0x1100000061 : Command).extractLsb' 32 8 ∉ [0x01#8, 0x13#8, 0x28#8, 0x29#8, 0x2A#8] := by decide

/-- A reserved word that is not 0. -/
theorem witness_SrstRule : (0x80000000 : BitVec 32) ≠ 0 := by decide

theorem witness_ClreRule : (1 : BitVec 32) ≠ 0 := by decide

theorem witness_HinitRule : (1 : BitVec 32) ≠ 0 := by decide

theorem witness_EwclrRule : (0x80000000 : BitVec 32) ≠ 0 := by decide

theorem witness_ResetForgetsTheState :
    ∃ s t s' t' : State, s.cfg = t.cfg ∧ s.rsps = t.rsps ∧ s.cmds = .rst none :: [.cmd 5] ∧
      t.cmds = .rst (some 7) :: [.cmd 5] ∧ step s = .next s' ∧ step t = .next t' ∧ s.hash ≠ t.hash :=
  ⟨{ State.reset with cmds := .rst none :: [.cmd 5] }, { abcDone with cmds := .rst (some 7) :: [.cmd 5] }, _, _, rfl, rfl, rfl,
    rfl, rfl, rfl, by decide⟩

/-- A protocol fault and a terminal one. -/
theorem witness_FaultEntryRule :
    yields State.reset (fun r => r.CODE == 0x03) (runCommand 0x1100000061 State.reset) = true ∧
    yields (messageOpen 1 []) (fun r => r.CODE == 0x04) (runCommand 0x1100000100 (messageOpen 1 [])) = true := by decide

/-- The four clauses: a fault with a record, a fault without, `CLRE` and `SRST`, another command. -/
theorem witness_FaultRecordRule :
    (faultRecorded.err.EF = true ∧ yields faultRecorded (fun r => r.CODE != 0) (runCommand 0x1200000000 faultRecorded) = true) ∧
    (State.reset.err.EF = false ∧ yields State.reset (fun r => r.CODE != 0) (runCommand 0x1200000000 State.reset) = true) ∧
    yields faultRecorded (fun r => r.CODE == 0) (runCommand 0x0200000000 faultRecorded) = true ∧
    yields faultRecorded (fun r => r.CODE == 0) (runCommand 0x0300000000 faultRecorded) = true ∧
    yields faultRecorded (fun r => r.CODE == 0) (runCommand 0x1000000000 faultRecorded) = true := by decide +kernel

/-- The first code outside the domain, and the length limit with a code inside it. -/
theorem witness_TerminalFaultEndsMessage :
    ((messageOpen 5 []).hash.PHASE = .absorb ∧ 255 < (256 : BitVec 32).toNat) ∧
    ((messageOpen (2 ^ 29 - 1) []).hash.PHASE = .absorb ∧ (messageOpen (2 ^ 29 - 1) []).hash.LEN.toNat = 2 ^ 29 - 1) := by
  decide

theorem witness_RdcsrRule : 8 < (9 : BitVec 16).toNat ∧ 8 < (0xFFFF : BitVec 16).toNat ∧ (1 : BitVec 16) ≠ 0 := by decide

/-- The five clauses of `ABS`, at the boundary values 255 and 256, 2^29 - 1 and 2^29 - 2, 62 and 63. -/
theorem witness_AbsRule :
    State.reset.hash.PHASE ≠ .absorb ∧
    ((messageOpen 0 []).hash.PHASE = .absorb ∧ 255 < (256 : BitVec 32).toNat) ∧
    ((messageOpen (2 ^ 29 - 1) []).hash.PHASE = .absorb ∧ (255 : BitVec 32).toNat ≤ 255 ∧
      (messageOpen (2 ^ 29 - 1) []).hash.LEN.toNat = 2 ^ 29 - 1) ∧
    ((messageOpen (2 ^ 29 - 2) []).hash.LEN.toNat ≠ 2 ^ 29 - 1 ∧ (messageOpen (2 ^ 29 - 2) []).hash.LEN.toNat % 64 ≠ 63) ∧
    ((messageOpen 63 []).hash.PHASE = .absorb ∧ (messageOpen 63 []).hash.LEN.toNat ≠ 2 ^ 29 - 1 ∧
      (messageOpen 63 []).hash.LEN.toNat % 64 = 63) := by decide

theorem witness_HfinRule :
    (messageOpen 55 []).hash.PHASE = .absorb ∧ (messageOpen 56 []).hash.PHASE = .absorb ∧
    State.reset.hash.PHASE ≠ .absorb ∧ abcDone.hash.PHASE ≠ .absorb ∧ (1 : BitVec 32) ≠ 0 := by decide

theorem witness_PackBigEndian : (0 < 16) ∧ (15 < 16) := by decide

theorem witness_RotateAndSigmaBits : (0 < 32) ∧ (31 < 32) := by decide

theorem witness_ChooseAndMajorityBits : (0 < 32) ∧ (31 < 32) := by decide

/-- The ranges of the two clauses meet at 15 and 16. -/
theorem witness_ScheduleRule : (15 < 16) ∧ (16 ≤ 16) ∧ (16 < 64) ∧ (63 < 64) := by decide

theorem witness_RoundRule : (0 < 64) ∧ (63 < 64) := by decide

/-- Encoder and control commands, one of them broken, between the commands of the message "ab". -/
theorem witness_DigestOfMessage :
    ([0x61, 0x62] : List Byte).length ≤ 2 ^ 29 - 1 ∧
    [Instr.ewclr 0, .hinit 0, .ewpush 5, .abs 0x61, .rdcsr 1 1, .abs 0x62, .ewdig 0, .hfin 0, .hrd 0 1].filter Instr.drivesHash
      = [.hinit 0] ++ ([0x61, 0x62] : List Byte).map (fun b => .abs (b.setWidth 32)) ++ [.hfin 0] := by decide +kernel

theorem witness_DigestOperation : ([0x61, 0x62, 0x63] : List Byte).length ≤ 2 ^ 29 - 1 ∧
    (List.replicate 0 (0 : Byte)).length ≤ 2 ^ 29 - 1 := by decide

theorem witness_HrdRule :
    abcDone.hash.PHASE = .done ∧ (7 : BitVec 16).toNat < 8 ∧ 7 < (8 : BitVec 16).toNat ∧ State.reset.hash.PHASE ≠ .done ∧
    (0x8000 : BitVec 16) ≠ 0 := by decide

/-- The two clauses of `EWPUSH` meet at `EWMAX`. -/
theorem witness_EwpushRule :
    threeWords.Inv ∧ threeWords.enc.EN.toNat < threeWords.cfg.EWMAX ∧ bufferFull.Inv ∧
    bufferFull.enc.EN.toNat = bufferFull.cfg.EWMAX :=
  ⟨threeWordsInv, by decide, bufferFullInv, by decide⟩

theorem witness_EwdigRule :
    abcDone.Inv ∧ abcDone.hash.PHASE = .done ∧ State.reset.hash.PHASE ≠ .done ∧ (1 : BitVec 32) ≠ 0 :=
  ⟨abcDoneInv, by decide, by decide, by decide⟩

theorem witness_A16setRule :
    (15 : BitVec 8).toNat < 16 ∧ 15 < (16 : BitVec 8).toNat ∧ ((1 : BitVec 8) ≠ 0 ∨ (0 : BitVec 8) ≠ 0) := by decide

theorem witness_A16lenRule :
    (1 ≤ (1 : BitVec 16).toNat ∧ (16 : BitVec 16).toNat ≤ 16) ∧
    ((0 : BitVec 16).toNat = 0 ∨ 16 < (0 : BitVec 16).toNat) ∧ ((17 : BitVec 16).toNat = 0 ∨ 16 < (17 : BitVec 16).toNat) ∧
    (1 : BitVec 16) ≠ 0 := by decide

theorem witness_A64setRule :
    (63 : BitVec 8).toNat < 64 ∧ 63 < (64 : BitVec 8).toNat ∧ ((0 : BitVec 8) ≠ 0 ∨ (1 : BitVec 8) ≠ 0) := by decide

theorem witness_Enc16Rule : threeWords.Inv ∧ (false = true ∨ (0 : BitVec 30) = 0) ∧ (true = true ∨ (9 : BitVec 30) = 0) ∧
    (1 : BitVec 30) ≠ 0 := ⟨threeWordsInv, by decide, by decide, by decide⟩

theorem witness_Enc64Rule : threeWords.Inv ∧ (false = true ∨ (0 : BitVec 30) = 0) ∧ (true = true ∨ (4 : BitVec 30) = 0) ∧
    (1 : BitVec 30) ≠ 0 := ⟨threeWordsInv, by decide, by decide, by decide⟩

/-- The two clauses of `ORD` meet at `OLEN`. -/
theorem witness_OrdRule :
    deadString.Inv ∧ (3 : BitVec 16).toNat < deadString.enc.OLEN.toNat ∧ deadString.enc.OLEN.toNat ≤ (4 : BitVec 16).toNat ∧
    (1 : BitVec 16) ≠ 0 := ⟨deadStringInv, by decide, by decide, by decide⟩

/-- The last position of the output of one word. -/
theorem witness_Enc64ClosedForm : 5 < (32 * ([7] : List Word).length + 5) / 6 := by decide

/-- The two clauses meet at the number of chunks. -/
theorem witness_AccumulatorBounds : 1 < 2 * ([7] : List Word).length ∧ 2 = 2 * ([7] : List Word).length := by decide

theorem witness_TruncationLaw : threeWords.Inv := threeWordsInv

theorem witness_AlphabetSubstitutionLaw : D16.toList.Nodup ∧ D64.toList.Nodup := by decide +kernel

theorem witness_ShortAlphabetIsRepeated : 1 ≤ 1 ∧ 1 ≤ 16 ∧ 16 ≤ 16 := by decide

/-- As many words as the buffer holds, and the digest just computed; an alphabet of one symbol, and no alphabet. -/
theorem witness_EncodeBase16Operation :
    (State.reset.Inv ∧ State.reset.Supplies (.words (List.replicate 16 0)) (List.replicate 16 0)) ∧
    (abcDone.Inv ∧ abcDone.Supplies .digest abcDone.hash.H.toList) ∧
    (∀ a, some [(0x78 : Symbol)] = some a → 1 ≤ a.length ∧ a.length ≤ 16) ∧
    (∀ a, (none : Option (List Symbol)) = some a → 1 ≤ a.length ∧ a.length ≤ 16) := by
  refine ⟨⟨resetInv, rfl, by decide⟩, ⟨abcDoneInv, rfl, rfl⟩, ?_, ?_⟩
  · intro a h; cases h; decide
  · intro a h; cases h

theorem witness_EncodeBase64VariantOperation :
    (State.reset.Inv ∧ State.reset.Supplies (.words (List.replicate 16 0)) (List.replicate 16 0)) ∧
    (abcDone.Inv ∧ abcDone.Supplies .digest abcDone.hash.H.toList) :=
  ⟨⟨resetInv, rfl, by decide⟩, abcDoneInv, rfl, rfl⟩

/-- S2 as R70 writes it: the digest of "abc" loaded with `EWDIG`, then `ENC16` with a cap of 4. -/
theorem test_encodeBase16_of_digest :
    (HostSide.encodeBase16 .digest none (some 4)).map encode = [0x2200000000, 0x2880000004] := by decide

theorem witness_HashUnitFrame : Instr.drivesHash (.ewpush 5) = false ∧ ∃ t, exec (.ewpush 5) State.reset = .next t :=
  ⟨by decide, _, rfl⟩

theorem witness_EncoderFrame :
    (Instr.drivesEncoder (.abs 5) = false ∧ ∃ t, exec (.abs 5) State.reset = .next t) ∧
    (threeWords.enc.ACC = 0 ∧ threeWords.enc.BC = 0 ∧ ∃ t, exec (.enc64 false false 0) threeWords = .next t) :=
  ⟨⟨by decide, _, rfl⟩, by decide, by decide, _, rfl⟩

theorem witness_ParameterNeverWritten :
    (∃ t, step { State.reset with cmds := [.cmd 0x1000000000] } = .next t) ∧ ∃ t, exec (.hinit 0) State.reset = .next t :=
  ⟨⟨_, rfl⟩, _, rfl⟩

/-- Each transition of R16, and a step that changes the phase. -/
theorem witness_PhaseTransitions :
    (∃ t, exec (.hinit 0) State.reset = .next t ∧ t.hash.PHASE ≠ State.reset.hash.PHASE) ∧
    ((messageOpen 0 []).hash.PHASE = .absorb ∧ ∃ t, exec (.hfin 0) (messageOpen 0 []) = .next t) ∧
    (255 < (256 : BitVec 32).toNat ∧ ∃ t, exec (.abs 256) (messageOpen 0 []) = .next t) ∧
    ((messageOpen (2 ^ 29 - 1) []).hash.LEN.toNat = 2 ^ 29 - 1 ∧ ∃ t, exec (.abs 0) (messageOpen (2 ^ 29 - 1) []) = .next t) ∧
    (∃ t, exec (.srst 0) abcDone = .next t) ∧ (∃ t, runInput (.rst none) abcDone = .next t) :=
  ⟨⟨_, rfl, by decide⟩, ⟨by decide, _, rfl⟩, ⟨by decide, _, rfl⟩, ⟨by decide, _, rfl⟩, ⟨_, rfl⟩, ⟨_, rfl⟩⟩

theorem witness_HashStateWriters : ∃ t, exec (.hinit 0) State.reset = .next t ∧ t.hash.H ≠ State.reset.hash.H :=
  ⟨_, rfl, by decide⟩

/-- `ABS` at the last length that it accepts, and a step that changes `LEN`. -/
theorem witness_LenNeverWraps :
    (messageOpen (2 ^ 29 - 2) []).hash.PHASE = .absorb ∧ (255 : BitVec 32).toNat ≤ 255 ∧
    (messageOpen (2 ^ 29 - 2) []).hash.LEN.toNat ≠ 2 ^ 29 - 1 ∧
    (∃ t, exec (.abs 255) (messageOpen 2 []) = .next t ∧ t.hash.LEN ≠ (messageOpen 2 []).hash.LEN) ∧
    (∃ t, exec (.hinit 0) (messageOpen 2 []) = .next t) :=
  ⟨by decide, by decide, by decide, ⟨_, rfl, by decide⟩, _, rfl⟩

theorem witness_ReadCommandsAreIdempotent :
    yields State.reset (fun r => r.CODE == 0) (exec (.rdcsr 0 8) State.reset) = true ∧
    yields abcDone (fun r => r.CODE == 0) (exec (.hrd 0 7) abcDone) = true ∧
    yields deadString (fun r => r.CODE == 0) (exec (.ord 0 3) deadString) = true := by decide +kernel

theorem witness_StepKeepsInv : threeWords.Inv ∧ ∃ t, step { threeWords with cmds := [.cmd 0x2900000000] } = .next t :=
  ⟨threeWordsInv, _, rfl⟩

/-- Two states that differ in what no command may read before writing it. -/
theorem witness_HiddenStateUnobservable :
    ∃ s t s' t' : State, s.Inv ∧ t.Inv ∧ s.Agree t ∧ s.hash ≠ t.hash ∧ step s = .next s' ∧ step t = .next t' := by
  refine ⟨{ State.reset with cmds := [.cmd 0x1000000000] },
    { State.reset with
      hash := { State.reset.hash with H := IV, BUF := Vector.replicate 64 7 }
      cmds := [.cmd 0x1000000000]
      fresh := 3 }, _, _, ?_, ?_, ?_, by decide, rfl, rfl⟩
  · exact ⟨by decide, by decide, by decide, by decide +kernel, by decide, by decide, by decide, by decide, rfl, rfl, fun _ => rfl,
      fun h => by cases h⟩
  · exact ⟨by decide, by decide, by decide, by decide +kernel, by decide, by decide, by decide, by decide, rfl, rfl, fun _ => rfl,
      fun h => by cases h⟩
  · exact ⟨rfl, ⟨rfl, rfl, fun h => absurd rfl h, fun h => by cases h⟩, ⟨rfl, rfl, rfl, rfl, rfl, rfl, rfl⟩, rfl, rfl, rfl⟩

/-- A line of one command and a pseudo-command. -/
theorem witness_AssembledCommandsAreWellFormed :
    HostSide.assembleLine 0 "CLRE" = some [.clre 0] ∧
    HostSide.assembleLine 0 "MSG \"ab\"" = some [.abs 0x61, .abs 0x62] := by decide +kernel

/-! The text of commands: R68's operand forms, and the expansion of V-E3. -/

theorem test_assemble_character : HostSide.assembleLine 0 "A64SET 62, '+' ; comment" = some [.a64set 0 62 0 0x2B] ∧
    HostSide.assembleLine 0 "ABS ';'" = some [.abs 0x3B] := by decide +kernel
theorem test_assemble_alpha16 : (HostSide.assembleLine 0 "ALPHA16 \"xy\"").map (·.map encode) =
    some [0x2300000078, 0x2300010079, 0x2400000002] := by decide +kernel

end Sys2Proof.Tests
end

section
/-! What every step keeps, and a run as `exec` folded over the commands sent (00_scope.md R5, R6). -/

namespace Sys2Proof

/-- R60, R62: the fields of a format's argument are read back as they were assembled, so a command word decodes to the
command it was made of. -/
@[simp] theorem decode_encode (i : Instr) : decode (encode i) = .ok i := by
  unfold decode encode
  rw [op_append, arg_append]
  cases i with
  | rdcsr rsvd idx | hrd rsvd idx | a16len rsvd idx | ord rsvd idx =>
    simp only [Instr.opcode, Instr.arg, decodeFields, fieldIRsvd_argI, fieldIIdx_argI]
  | a16set hi idx lo ch | a64set hi idx lo ch =>
    simp only [Instr.opcode, Instr.arg, decodeFields, fieldSRsvdHi_argS, fieldSIdx_argS, fieldSRsvdLo_argS, fieldSCh_argS]
  | enc16 ce sel cap | enc64 ce sel cap =>
    simp only [Instr.opcode, Instr.arg, decodeFields, fieldCE, fieldAS, fieldCAP, argL_ce, argL_sel, argL_cap]
  | clre _ | srst _ | hinit _ | abs _ | hfin _ | ewclr _ | ewpush _ | ewdig _ => rfl

end Sys2Proof

namespace Sys2Proof.Machine

/-! Frames: the parameter and the command channel. -/

/-- R24: no command writes `EWMAX`. -/
theorem exec_cfg {i : Instr} {s t : State} (h : exec i s = .next t) : t.cfg = s.cfg := by
  obtain ⟨c, -, rfl⟩ | ⟨-, rfl⟩ := exec_cases h
  · exact raise_cfg c i s
  · exact effect_cfg i s

/-- No command takes anything from the channel or adds to it. -/
theorem exec_cmds {i : Instr} {s t : State} (h : exec i s = .next t) : t.cmds = s.cmds := by
  obtain ⟨c, -, rfl⟩ | ⟨-, rfl⟩ := exec_cases h
  · exact raise_cmds c i s
  · exact effect_cmds i s

/-- A command word either runs its command, or has an unassigned opcode and raises E_ILLOP (R65, R182). -/
theorem runCommand_cases (w : Command) (s : State) :
    (∃ i, decode w = .ok i ∧ runCommand w s = exec i s) ∨
    (decode w = .error (.unassignedOpcode w.op) ∧ runCommand w s = .next (s.protocolFault 0x01 w.op w.arg)) := by
  unfold runCommand
  cases hd : decode w with
  | ok i => exact .inl ⟨i, rfl, rfl⟩
  | error e =>
    obtain ⟨op⟩ := e
    obtain rfl := decode_error hd
    exact .inr ⟨rfl, rfl⟩

theorem runInput_cfg {x : HostInput} {s t : State} (h : runInput x s = .next t) : t.cfg = s.cfg := by
  cases x with
  | cmd w =>
    obtain ⟨i, -, hw⟩ | ⟨-, hw⟩ := runCommand_cases w s
    · exact exec_cfg (hw.symm.trans h)
    · cases hw.symm.trans h
      exact protocolFault_cfg 0x01 w.op w.arg s
  | rst p =>
    cases h
    exact reinit_cfg s

/-- One step: the core holds its state, or the oldest input is taken off the channel and run. -/
theorem step_cases {s t : State} (h : step s = .next t) :
    (s.cmds = [] ∧ t = s) ∨ ∃ x rest, s.cmds = x :: rest ∧ runInput x { s with cmds := rest } = .next t := by
  unfold step at h
  cases hc : s.cmds with
  | nil =>
    rw [hc] at h
    cases h
    exact .inl ⟨rfl, rfl⟩
  | cons x rest =>
    rw [hc] at h
    exact .inr ⟨x, rest, rfl, h⟩

theorem step_cfg {s t : State} (h : step s = .next t) : t.cfg = s.cfg := by
  obtain ⟨-, rfl⟩ | ⟨x, rest, -, hx⟩ := step_cases h
  · rfl
  · exact (runInput_cfg hx :)

/-- Settles O52: `step` runs one input, and no input's command, E_ILLOP or reset writes the parameter. -/
theorem parameterNeverWritten : Obligations.ParameterNeverWritten :=
  ⟨fun _ _ => step_cfg, fun _ _ _ => exec_cmds⟩

/-! Runs. -/

/-- Every command has a next state (R180, R217). -/
theorem exec_total (i : Instr) (s : State) : ∃ t, exec i s = .next t := ⟨_, exec_eq i s⟩

/-- A command's outcome does not depend on what the host still has to send, and carries it along. -/
theorem exec_withCmds {i : Instr} {s t : State} (h : exec i s = .next t) (c : List HostInput) :
    exec i { s with cmds := c } = .next { t with cmds := c } := by
  rw [exec_eq, firstFault_withCmds]
  obtain ⟨f, hf, rfl⟩ | ⟨hf, rfl⟩ := exec_cases h
  · rw [hf]; rfl
  · rw [hf, ← effect_withCmds]

/-- The next command of the host takes one step, which is `exec` of it (R52). -/
theorem step_encode (i : Instr) (s : State) (rest : List HostInput) :
    step { s with cmds := .cmd (encode i) :: rest } = exec i { s with cmds := rest } := by
  simp only [step, runInput, runCommand, decode_encode]

theorem execAll_cons {i : Instr} {s t : State} (h : exec i s = .next t) (is : List Instr) :
    execAll (i :: is) s = execAll is t := by
  rw [execAll, h]

theorem run_succ {s t : State} (h : step s = .next t) (k : Nat) :
    Host.Core.run core (k + 1) s = Host.Core.run core k t := by
  have hcore : core.step s = .next t := h
  simp only [Host.Core.run, hcore]

/-- Settles O59, by induction on the commands: the first takes one step, which is its `exec`; since no command reads the
channel, it leads to the same state with the others still on it as without them. -/
theorem runIsExecFold : Obligations.RunIsExecFold := by
  intro is
  induction is with
  | nil => intro s rest; rfl
  | cons i is ih =>
    intro s rest
    obtain ⟨t, ht⟩ := exec_total i s
    have hstep : step { s with cmds := sends (i :: is) ++ rest } = .next { t with cmds := sends is ++ rest } :=
      (step_encode i s (sends is ++ rest)).trans (exec_withCmds ht (sends is ++ rest))
    have hfold : execAll (i :: is) { s with cmds := rest } = execAll is { t with cmds := rest } :=
      execAll_cons (exec_withCmds ht rest) is
    exact (run_succ hstep is.length).trans ((ih t rest).trans hfold.symm)

end Sys2Proof.Machine
end

section
/-! What each command's checks select (60_exceptions.md R189), and what a fault or an effect leaves in each part of the
state. -/

namespace Sys2Proof.Machine

/-! The first fault, check by check and for the commands whose effect depends on it. -/

/-- A command has its effect exactly when all its checks pass. -/
theorem firstFault_none_iff (i : Instr) (s : State) :
    firstFault i s = none ↔
      i.wellFormed = true ∧ phaseBroken i s = false ∧ rangeBroken i s = none ∧ resourceBroken i s = none := by
  unfold firstFault
  rw [reservedBroken_eq_not_wellFormed]
  cases i.wellFormed <;> cases phaseBroken i s <;> cases rangeBroken i s <;> simp

theorem firstFault_clre_none_iff (rsvd : BitVec 32) (s : State) : firstFault (.clre rsvd) s = none ↔ rsvd = 0 := by
  simp [firstFault_none_iff, Instr.wellFormed, phaseBroken, phaseNeeded, rangeBroken, resourceBroken]

theorem firstFault_srst_none_iff (rsvd : BitVec 32) (s : State) : firstFault (.srst rsvd) s = none ↔ rsvd = 0 := by
  simp [firstFault_none_iff, Instr.wellFormed, phaseBroken, phaseNeeded, rangeBroken, resourceBroken]

theorem firstFault_hinit_none_iff (rsvd : BitVec 32) (s : State) : firstFault (.hinit rsvd) s = none ↔ rsvd = 0 := by
  simp [firstFault_none_iff, Instr.wellFormed, phaseBroken, phaseNeeded, rangeBroken, resourceBroken]

theorem firstFault_hfin_none_iff (rsvd : BitVec 32) (s : State) :
    firstFault (.hfin rsvd) s = none ↔ rsvd = 0 ∧ s.hash.PHASE = .absorb := by
  simp [firstFault_none_iff, Instr.wellFormed, phaseBroken, phaseNeeded, rangeBroken, resourceBroken]

theorem firstFault_ewdig_none_iff (rsvd : BitVec 32) (s : State) :
    firstFault (.ewdig rsvd) s = none ↔ rsvd = 0 ∧ s.hash.PHASE = .done := by
  simp [firstFault_none_iff, Instr.wellFormed, phaseBroken, phaseNeeded, rangeBroken, resourceBroken]

theorem firstFault_hrd_none_iff (rsvd idx : BitVec 16) (s : State) :
    firstFault (.hrd rsvd idx) s = none ↔ rsvd = 0 ∧ s.hash.PHASE = .done ∧ idx.toNat ≤ 7 := by
  simp [firstFault_none_iff, Instr.wellFormed, phaseBroken, phaseNeeded, rangeBroken, resourceBroken]

theorem firstFault_ewpush_none_iff (word : BitVec 32) (s : State) :
    firstFault (.ewpush word) s = none ↔ s.enc.EN.toNat ≠ s.cfg.EWMAX := by
  simp [firstFault_none_iff, Instr.wellFormed, phaseBroken, phaseNeeded, rangeBroken, resourceBroken]

theorem firstFault_a16len_none_iff (rsvd idx : BitVec 16) (s : State) :
    firstFault (.a16len rsvd idx) s = none ↔ rsvd = 0 ∧ 1 ≤ idx.toNat ∧ idx.toNat ≤ 16 := by
  simp [firstFault_none_iff, Instr.wellFormed, phaseBroken, phaseNeeded, rangeBroken, resourceBroken]
  omega

theorem firstFault_ord_none_iff (rsvd idx : BitVec 16) (s : State) :
    firstFault (.ord rsvd idx) s = none ↔ rsvd = 0 ∧ idx.toNat < s.enc.OLEN.toNat := by
  simp [firstFault_none_iff, Instr.wellFormed, phaseBroken, phaseNeeded, rangeBroken, resourceBroken]

/-- `ABS` in a message that is open: the domain, then the length limit (R95). -/
theorem firstFault_abs {s : State} (h : s.hash.PHASE = .absorb) (code : BitVec 32) :
    firstFault (.abs code) s =
      if 255 < code.toNat then some .domain else if s.hash.LEN.toNat = 2 ^ 29 - 1 then some .lenovf else none := by
  unfold firstFault
  rw [reservedBroken_eq_not_wellFormed]
  by_cases hd : 255 < code.toNat <;>
    simp [Instr.wellFormed, phaseBroken, phaseNeeded, rangeBroken, resourceBroken, h, hd]

theorem firstFault_abs_none_iff (code : BitVec 32) (s : State) :
    firstFault (.abs code) s = none ↔
      s.hash.PHASE = .absorb ∧ code.toNat ≤ 255 ∧ s.hash.LEN.toNat ≠ 2 ^ 29 - 1 := by
  simp [firstFault_none_iff, Instr.wellFormed, phaseBroken, phaseNeeded, rangeBroken, resourceBroken]

theorem exec_of_fault {i : Instr} {s : State} {c : FaultCode} (h : firstFault i s = some c) :
    exec i s = .next (s.raise c i) := by rw [exec_eq, h]

theorem exec_of_no_fault {i : Instr} {s : State} (h : firstFault i s = none) : exec i s = .next (effect i s) := by
  rw [exec_eq, h]

/-- A command whose checks pass leads to its effect and nowhere else. -/
theorem eq_effect {i : Instr} {s t : State} (h : exec i s = .next t) (hf : firstFault i s = none) : t = effect i s := by
  cases (exec_of_no_fault hf).symm.trans h
  rfl

/-! What fault entry leaves in the hash unit: a terminal fault sets the phase, and that is all (R190, R191). -/

section raise
variable (c : FaultCode) (i : Instr) (s : State)

theorem raise_hash : (s.raise c i).hash = if c.terminal then { s.hash with PHASE := .idle } else s.hash := rfl

@[simp] theorem raise_H : (s.raise c i).hash.H = s.hash.H := by rw [raise_hash]; split <;> rfl

@[simp] theorem raise_LEN : (s.raise c i).hash.LEN = s.hash.LEN := by rw [raise_hash]; split <;> rfl

theorem raise_PHASE : (s.raise c i).hash.PHASE = if c.terminal then .idle else s.hash.PHASE := by
  rw [raise_hash]; split <;> rfl

end raise

/-! What an effect leaves in the hash unit. -/

/-- R16: the phase after a command that has its effect. -/
theorem effect_PHASE (i : Instr) (s : State) :
    (effect i s).hash.PHASE = match i with
      | .hinit _ => .absorb
      | .hfin _ => .done
      | .srst _ => .idle
      | .rdcsr _ _ | .clre _ | .abs _ | .hrd _ _ | .ewclr _ | .ewpush _ | .ewdig _ | .a16set _ _ _ _ | .a16len _ _
      | .a64set _ _ _ _ | .enc16 _ _ _ | .enc64 _ _ _ | .ord _ _ => s.hash.PHASE := by
  cases i with
  | abs code => exact absorb_PHASE (byteOfCode code) s.hash
  | _ => rfl

/-- R15: the count after a command that has its effect. -/
theorem effect_LEN (i : Instr) (s : State) :
    (effect i s).hash.LEN = match i with
      | .hinit _ | .srst _ => 0
      | .abs _ => s.hash.LEN + 1
      | .rdcsr _ _ | .clre _ | .hfin _ | .hrd _ _ | .ewclr _ | .ewpush _ | .ewdig _ | .a16set _ _ _ _ | .a16len _ _
      | .a64set _ _ _ _ | .enc16 _ _ _ | .enc64 _ _ _ | .ord _ _ => s.hash.LEN := by
  cases i with
  | abs code => exact absorb_LEN (byteOfCode code) s.hash
  | hfin rsvd => exact padfin_LEN s.hash
  | _ => rfl

theorem fill_congr {u v : HashUnit} (h : u.LEN = v.LEN) : u.fill = v.fill := by rw [HashUnit.fill, HashUnit.fill, h]

/-- R14: the next free position after a byte. -/
theorem stored_fill (b : Byte) (u : HashUnit) : (stored b u).fill = (u.fill + 1) % 64 := by
  rw [stored, HashUnit.fill, HashUnit.fill, BitVec.toNat_add]
  simp

/-- `ABS` leaves `H` alone but for the byte that fills a block. -/
theorem absorb_H_of_not_full {b : Byte} {u : HashUnit} (h : (stored b u).fill ≠ 0) : (u.absorb b).H = u.H := by
  rw [absorb_of_not_full h]
  exact setBuf_H u.fill b u

/-! What an effect leaves in the encoders. -/

/-- The loop of `EWDIG`: `for i in 0..7: EW[i] <- H[i]` (R140). -/
def EncUnit.loadDigest (H : Vector Word 8) (u : EncUnit) : EncUnit :=
  (List.finRange 8).foldl (fun u (i : Fin 8) => u.setEW i H[i]) u

theorem effect_ewdig (rsvd : BitVec 32) (s : State) :
    effect (.ewdig rsvd) s = ({ s with enc := { s.enc.loadDigest s.hash.H with EN := 8 } }).answered 0 0 := rfl

/-- `EWDIG`'s loop writes `EW` and nothing else. -/
theorem loadDigest_frame (H : Vector Word 8) (u : EncUnit) :
    u.loadDigest H = { u with EW := (u.loadDigest H).EW } := by
  have others : ∀ v : EncUnit, { v.loadDigest H with EW := [] } = { v with EW := [] } := fun v =>
    foldl_keeps (fun u (i : Fin 8) => EncUnit.setEW i H[i] u) (fun u => { u with EW := [] }) (fun _ _ => rfl) _ v
  exact congrArg (fun v : EncUnit => { v with EW := (u.loadDigest H).EW }) (others u)

/-- `EWDIG`'s loop writes the digest over the first eight words, where the buffer has as many. -/
theorem loadDigest_EW (H : Vector Word 8) {u : EncUnit} (hu : 8 ≤ u.EW.length) :
    (u.loadDigest H).EW = H.toList ++ u.EW.drop 8 := by
  have unrolled : (u.loadDigest H).EW = (((((((u.EW.set 0 H[0]).set 1 H[1]).set 2 H[2]).set 3 H[3]).set 4 H[4]).set 5
      H[5]).set 6 H[6]).set 7 H[7] := rfl
  have words : H.toList = [H[0], H[1], H[2], H[3], H[4], H[5], H[6], H[7]] := by
    apply List.ext_getElem
    · simp
    · intro i hi hi'
      have : i < 8 := hi'
      interval_cases i <;> simp
  rw [unrolled, words]
  match u.EW, hu with
  | _ :: _ :: _ :: _ :: _ :: _ :: _ :: _ :: _, _ => rfl

end Sys2Proof.Machine
end

section
/-! The invariant, part by part, and that every step keeps it (10_state.md R19 to R24). -/

namespace Sys2Proof.Machine

/-- The clauses of `State.Inv` on the encoders. -/
structure EncUnit.Fits (cfg : Config) (u : EncUnit) : Prop where
  ew_size : u.EW.length = cfg.EWMAX
  ostr_size : u.OSTR.length = cfg.OSMAX
  en_le : u.EN.toNat ≤ cfg.EWMAX
  a16len_lo : 1 ≤ u.A16LEN.toNat
  a16len_hi : u.A16LEN.toNat ≤ 16
  olen_le : u.OLEN.toNat ≤ cfg.OSMAX
  acc_zero : u.ACC = 0
  bc_zero : u.BC = 0

/-- The clauses of `State.Inv` on the fault record. -/
structure FaultRecord.Valid (r : FaultRecord) : Prop where
  clear : r.EF = false → r = FaultRecord.clear
  code : r.EF = true → ∃ c : FaultCode, r.ECAUSE = c.code

/-- The invariant is one of the parameter, one of the encoders and one of the fault record. -/
theorem inv_iff (s : State) :
    s.Inv ↔ (8 ≤ s.cfg.EWMAX ∧ s.cfg.EWMAX ≤ 8192) ∧ s.enc.Fits s.cfg ∧ s.err.Valid := by
  constructor
  · rintro ⟨lo, hi, ew, ostr, en, a16lo, a16hi, olen, acc, bc, clear, code⟩
    exact ⟨⟨lo, hi⟩, ⟨ew, ostr, en, a16lo, a16hi, olen, acc, bc⟩, clear, code⟩
  · rintro ⟨⟨lo, hi⟩, ⟨ew, ostr, en, a16lo, a16hi, olen, acc, bc⟩, clear, code⟩
    exact ⟨lo, hi, ew, ostr, en, a16lo, a16hi, olen, acc, bc, clear, code⟩

theorem State.Inv.fits {s : State} (h : s.Inv) : s.enc.Fits s.cfg := ((inv_iff s).1 h).2.1

theorem State.Inv.valid {s : State} (h : s.Inv) : s.err.Valid := ((inv_iff s).1 h).2.2

/-- A state with the parameter of one that meets the invariant meets it where its encoders and its record do. -/
theorem State.Inv.of_parts {s t : State} (h : s.Inv) (hcfg : t.cfg = s.cfg) (henc : t.enc.Fits s.cfg)
    (herr : t.err.Valid) : t.Inv :=
  (inv_iff t).2 (hcfg ▸ ⟨⟨h.ewmax_lo, h.ewmax_hi⟩, henc, herr⟩)

/-! The fault record. -/

theorem clear_valid : FaultRecord.clear.Valid := ⟨fun _ => rfl, nofun⟩

/-- R190: fault entry keeps the record it finds, or writes one with a fault code. -/
theorem note_valid {r : FaultRecord} (h : r.Valid) (c : FaultCode) (op : BitVec 8) (arg : BitVec 32) :
    (r.note c op arg).Valid := by
  unfold FaultRecord.note
  split
  · exact h
  · exact ⟨nofun, fun _ => ⟨c, rfl⟩⟩

theorem effect_valid {s : State} (h : s.err.Valid) (i : Instr) : (effect i s).err.Valid := by
  rw [effect_err]
  cases i with
  | clre _ | srst _ => exact clear_valid
  | _ => exact h

/-! The reset state. -/

/-- R29 gives every element that the invariant speaks of a legal value. -/
theorem State.IsReset.inv {s : State} (h : s.IsReset) (hlo : 8 ≤ s.cfg.EWMAX) (hhi : s.cfg.EWMAX ≤ 8192) : s.Inv := by
  have henc : s.enc.Fits s.cfg :=
    { ew_size := h.ew_size
      ostr_size := h.ostr_size
      en_le := by simp [h.enc.en]
      a16len_lo := by simp [h.enc.a16len]
      a16len_hi := by simp [h.enc.a16len]
      olen_le := by simp [h.enc.olen]
      acc_zero := h.enc.acc
      bc_zero := h.enc.bc }
  exact (inv_iff s).2 ⟨⟨hlo, hhi⟩, henc, h.err ▸ clear_valid⟩

/-- A reset leaves every element that R29 gives a value at that value. -/
theorem reinit_isReset (s : State) : s.reinit.IsReset where
  hash := ⟨reinit_PHASE s, reinit_LEN s⟩
  enc := ⟨reinit_EN s, reinit_OLEN s, reinit_ACC s, reinit_BC s, reinit_A16LEN s, fun _ => rfl, fun _ => rfl⟩
  err := reinit_err s
  ew_size := reinit_EW_length s
  ostr_size := reinit_OSTR_length s

/-- A response is no element that R29 speaks of. -/
theorem State.IsReset.answered {s : State} (h : s.IsReset) (code : BitVec 8) (data : Word) :
    (s.answered code data).IsReset :=
  ⟨h.hash, h.enc, h.err, h.ew_size, h.ostr_size⟩

theorem State.Inv.reinit {s : State} (h : s.Inv) : s.reinit.Inv := (reinit_isReset s).inv h.ewmax_lo h.ewmax_hi

/-! The encoders, effect by effect. -/

/-- The encoder input has `EN` words (R19). -/
theorem EncUnit.Fits.words_length {cfg : Config} {u : EncUnit} (h : u.Fits cfg) : u.words.length = u.EN.toNat := by
  rw [EncUnit.words, List.length_take, h.ew_size]
  exact Nat.min_eq_left h.en_le

/-- R21: what fits in eight characters a word fits in `OSTR`. -/
theorem EncUnit.Fits.words_le {cfg : Config} {u : EncUnit} (h : u.Fits cfg) : 8 * u.words.length ≤ cfg.OSMAX := by
  rw [h.words_length]
  exact Nat.mul_le_mul_left 8 h.en_le

theorem putWords_p (cap : Option Nat) (al : Vector Symbol 16) (t : Nat) (ws : List Word) (l : Enc16Loop) :
    (ws.foldl (Enc16Loop.putWord cap al t) l).p = l.p + 8 * ws.length := by
  induction ws generalizing l with
  | nil => rfl
  | cons w ws ih =>
    have one : (l.putWord cap al t w).p = l.p + 8 := rfl
    rw [List.foldl_cons, ih, one, List.length_cons]
    omega

/-- `ENC16` produces eight characters a word (R143). -/
theorem enc16_OLEN (cap : Option Nat) (sel : Bool) (u : EncUnit) :
    (u.enc16 cap sel).OLEN = BitVec.ofNat 17 (cappedLength cap (8 * u.words.length)) := by
  simp only [EncUnit.enc16, putWords_p, Nat.zero_add]

theorem enc64_OLEN (cap : Option Nat) (sel : Bool) (u : EncUnit) :
    (u.enc64 cap sel).OLEN = BitVec.ofNat 17 (cappedLength cap (naturalLength64 u.words.length)) := rfl

theorem ofNat_cappedLength_le {cap : Option Nat} {n m : Nat} (h : n ≤ m) :
    (BitVec.ofNat 17 (cappedLength cap n)).toNat ≤ m :=
  calc (BitVec.ofNat 17 (cappedLength cap n)).toNat
      _ ≤ cappedLength cap n := by rw [BitVec.toNat_ofNat]; exact Nat.mod_le _ _
      _ ≤ n := cappedLength_le cap n
      _ ≤ m := h

theorem EncUnit.Fits.enc16 {cfg : Config} {u : EncUnit} (h : u.Fits cfg) (cap : Option Nat) (sel : Bool) :
    (u.enc16 cap sel).Fits cfg :=
  { h with
    ostr_size := (enc16_length cap sel u).trans h.ostr_size
    olen_le := by rw [enc16_OLEN]; exact ofNat_cappedLength_le h.words_le }

theorem EncUnit.Fits.enc64 {cfg : Config} {u : EncUnit} (h : u.Fits cfg) (cap : Option Nat) (sel : Bool) :
    (u.enc64 cap sel).Fits cfg :=
  { h with
    ostr_size := (enc64_length cap sel u).trans h.ostr_size
    olen_le := ofNat_cappedLength_le ((naturalLength64_le _).trans h.words_le)
    acc_zero := rfl
    bc_zero := rfl }

/-- `EWPUSH` below the capacity: the count stays within it, and 14 bits hold it (R139, R6). -/
theorem EncUnit.Fits.push {cfg : Config} {u : EncUnit} (h : u.Fits cfg) (hcap : cfg.EWMAX ≤ 8192)
    (hlt : u.EN.toNat ≠ cfg.EWMAX) (word : Word) :
    { u.setEW u.EN.toNat word with EN := u.EN + 1 : EncUnit }.Fits cfg :=
  { h with
    ew_size := (List.length_set ..).trans h.ew_size
    en_le := by
      have := h.en_le
      have count : (u.EN + 1).toNat = u.EN.toNat + 1 := BitVec.toNat_add_of_lt (by simp; omega)
      show (u.EN + 1).toNat ≤ cfg.EWMAX
      omega }

/-- `EWDIG` writes eight words over the first eight, and the buffer has as many (R140, R6). -/
theorem EncUnit.Fits.loadDigest {cfg : Config} {u : EncUnit} (h : u.Fits cfg) (hcap : 8 ≤ cfg.EWMAX)
    (H : Vector Word 8) : { u.loadDigest H with EN := 8 : EncUnit }.Fits cfg := by
  have hlen : (u.loadDigest H).EW.length = cfg.EWMAX := by
    have := h.ew_size
    rw [loadDigest_EW H (by omega)]
    simp
    omega
  rw [loadDigest_frame]
  exact { h with ew_size := hlen, en_le := hcap }

/-- `A16LEN` sets a length of 1 to 16, which its five bits hold (R142). -/
theorem EncUnit.Fits.setA16len {cfg : Config} {u : EncUnit} (h : u.Fits cfg) {idx : BitVec 16} (hlo : 1 ≤ idx.toNat)
    (hhi : idx.toNat ≤ 16) : { u with A16LEN := idx.setWidth 5 : EncUnit }.Fits cfg := by
  have value : (idx.setWidth 5).toNat = idx.toNat := by
    rw [BitVec.toNat_setWidth]
    exact Nat.mod_eq_of_lt (by omega)
  exact { h with a16len_lo := by rw [value]; exact hlo, a16len_hi := by rw [value]; exact hhi }

/-- A command that passes its checks leaves the encoders with legal values. -/
theorem effect_fits {i : Instr} {s : State} (h : s.Inv) (hf : firstFault i s = none) : (effect i s).enc.Fits s.cfg := by
  have hu := h.fits
  cases i with
  | srst _ => exact h.reinit.fits
  | ewclr _ => exact { hu with en_le := Nat.zero_le _ }
  | ewpush word => exact hu.push h.ewmax_hi ((firstFault_ewpush_none_iff word s).1 hf) word
  | ewdig _ => exact hu.loadDigest h.ewmax_lo s.hash.H
  | a16set _ _ _ _ | a64set _ _ _ _ => exact { hu with }
  | a16len rsvd idx =>
    obtain ⟨-, hlo, hhi⟩ := (firstFault_a16len_none_iff rsvd idx s).1 hf
    exact hu.setA16len hlo hhi
  | enc16 ce sel cap => exact hu.enc16 (capOf ce cap) sel
  | enc64 ce sel cap => exact hu.enc64 (capOf ce cap) sel
  | rdcsr _ _ | clre _ | hinit _ | abs _ | hfin _ | hrd _ _ | ord _ _ => exact hu

/-! Every step. -/

/-- Every command keeps the invariant, faulting or not. -/
theorem State.Inv.exec {i : Instr} {s t : State} (h : s.Inv) (ht : exec i s = .next t) : t.Inv := by
  obtain ⟨c, -, rfl⟩ | ⟨hf, rfl⟩ := exec_cases ht
  · exact h.of_parts (raise_cfg c i s) h.fits (note_valid h.valid c i.opcode i.arg)
  · exact h.of_parts (effect_cfg i s) (effect_fits h hf) (effect_valid h.valid i)

theorem State.Inv.runInput {x : HostInput} {s t : State} (h : s.Inv) (ht : runInput x s = .next t) : t.Inv := by
  cases x with
  | cmd w =>
    obtain ⟨i, -, hw⟩ | ⟨-, hw⟩ := runCommand_cases w s
    · exact h.exec (hw.symm.trans ht)
    · cases hw.symm.trans ht
      exact h.of_parts rfl h.fits (note_valid h.valid .illop w.op w.arg)
  | rst p =>
    cases ht
    exact h.reinit

/-- The invariant does not speak of the command channel. -/
theorem State.Inv.withCmds {s : State} (h : s.Inv) (cmds : List HostInput) : { s with cmds := cmds }.Inv :=
  h.of_parts rfl h.fits h.valid

/-- Settles O57: a step holds the state or runs one input, and every command, fault entry and reset keeps the encoders'
clauses and the record's; no one writes the parameter. -/
theorem stepKeepsInv : Obligations.StepKeepsInv := by
  intro s t h ht
  obtain ⟨-, rfl⟩ | ⟨x, rest, -, hx⟩ := step_cases ht
  · exact h
  · exact (h.withCmds rest).runInput hx

/-- Settles O9: a reset gives each element of R29 its value by `reinit`, and `SRST` adds only its response. -/
theorem resetValues : Obligations.ResetValues := by
  refine ⟨?_, fun s p rest => ⟨_, rfl, reinit_isReset _⟩, fun s => ⟨_, rfl, (reinit_isReset s).answered 0 0⟩⟩
  exact ⟨⟨rfl, rfl⟩, ⟨rfl, rfl, rfl, rfl, rfl, fun _ => rfl, fun _ => rfl⟩, rfl, List.length_replicate,
    List.length_replicate⟩

/-- Settles O10: the state after reset is a reset state with a legal parameter. -/
theorem resetSatisfiesInv : Obligations.ResetSatisfiesInv := resetValues.1.inv (by decide) (by decide)

end Sys2Proof.Machine
end

section
/-! Frames and transitions: which commands write the hash unit and the encoders, and the moves of `PHASE`, `H` and `LEN`
(10_state.md R11 to R22). -/

namespace Sys2Proof.Machine

/-- A command outside the hash unit's raises no terminal fault, so its fault entry leaves the hash unit alone. -/
theorem raise_hash_of_not_drivesHash {i : Instr} {s : State} {c : FaultCode} (hi : i.drivesHash = false)
    (h : firstFault i s = some c) : (s.raise c i).hash = s.hash := by
  have protocol : c.terminal = false := by
    cases hc : c.terminal with
    | false => rfl
    | true =>
      obtain ⟨code, rfl, -⟩ := terminal_is_abs h hc
      cases hi
  rw [raise_hash, protocol]
  rfl

/-- Settles O50: fault entry changes the hash unit in a terminal fault only, which is one of `ABS`; and the effect of
another command than the four leaves it alone. -/
theorem hashUnitFrame : Obligations.HashUnitFrame := by
  intro i s t hi h
  obtain ⟨c, hf, rfl⟩ | ⟨-, rfl⟩ := exec_cases h
  · exact raise_hash_of_not_drivesHash hi hf
  · exact effect_hash hi s

/-- R22: the transient registers are at 0 after an effect that finds them at 0. -/
theorem effect_ACC_BC (i : Instr) {s : State} (hacc : s.enc.ACC = 0) (hbc : s.enc.BC = 0) :
    (effect i s).enc.ACC = 0 ∧ (effect i s).enc.BC = 0 := by
  cases i with
  | srst _ => exact ⟨reinit_ACC s, reinit_BC s⟩
  | ewdig rsvd =>
    rw [effect_ewdig, loadDigest_frame]
    exact ⟨hacc, hbc⟩
  | enc64 _ _ _ => exact ⟨rfl, rfl⟩
  | _ => exact ⟨hacc, hbc⟩

/-- Settles O51: fault entry leaves the encoders alone, and so does the effect of another command; `ENC64` clears `ACC`
and `BC` and no other command of the encoders moves them. -/
theorem encoderFrame : Obligations.EncoderFrame := by
  constructor
  · intro i s t hi h
    obtain ⟨c, -, rfl⟩ | ⟨-, rfl⟩ := exec_cases h
    · exact raise_enc c i s
    · exact effect_enc hi s
  · intro i s t hacc hbc h
    obtain ⟨c, -, rfl⟩ | ⟨-, rfl⟩ := exec_cases h
    · exact ⟨hacc, hbc⟩
    · exact effect_ACC_BC i hacc hbc

/-! `PHASE` (R16). -/

/-- R191: `ABS` beyond a limit in an open message ends it. -/
theorem abs_beyond_limit {code : BitVec 32} {s t : State} (h : exec (.abs code) s = .next t)
    (hp : s.hash.PHASE = .absorb) (hlim : 255 < code.toNat ∨ s.hash.LEN.toNat = 2 ^ 29 - 1) :
    t.hash.PHASE = .idle := by
  obtain ⟨c, hf, rfl⟩ | ⟨hf, -⟩ := exec_cases h
  · rw [firstFault_abs hp] at hf
    split at hf
    · cases hf; rfl
    · split at hf <;> cases hf
      rfl
  · obtain ⟨-, hd, hl⟩ := (firstFault_abs_none_iff code s).1 hf
    omega

/-- The commands that move `PHASE`: `HINIT`, `HFIN` in an open message, `SRST`, and the `ABS` beyond a limit. -/
theorem exec_PHASE_ne {i : Instr} {s t : State} (h : exec i s = .next t) (hne : t.hash.PHASE ≠ s.hash.PHASE) :
    i = .hinit 0 ∨ (i = .hfin 0 ∧ s.hash.PHASE = .absorb) ∨ i = .srst 0 ∨
      ∃ code, i = .abs code ∧ s.hash.PHASE = .absorb ∧ (255 < code.toNat ∨ s.hash.LEN.toNat = 2 ^ 29 - 1) := by
  obtain ⟨c, hf, rfl⟩ | ⟨hf, rfl⟩ := exec_cases h
  · have terminal : c.terminal = true := by
      by_contra hc
      exact hne (by rw [raise_PHASE, if_neg hc])
    exact .inr (.inr (.inr (terminal_is_abs hf terminal)))
  · rw [effect_PHASE] at hne
    cases i with
    | hinit rsvd =>
      obtain rfl := (firstFault_hinit_none_iff rsvd s).1 hf
      exact .inl rfl
    | hfin rsvd =>
      obtain ⟨rfl, hp⟩ := (firstFault_hfin_none_iff rsvd s).1 hf
      exact .inr (.inl ⟨rfl, hp⟩)
    | srst rsvd =>
      obtain rfl := (firstFault_srst_none_iff rsvd s).1 hf
      exact .inr (.inr (.inl rfl))
    | _ => exact absurd rfl hne

/-- Settles O53: each transition is the command's effect or its terminal fault, and `exec_PHASE_ne` says that there is no
other. -/
theorem phaseTransitions : Obligations.PhaseTransitions := by
  refine ⟨⟨rfl, rfl, rfl⟩, fun i s t h => ⟨?_, ?_, ?_, ?_, exec_PHASE_ne h⟩, ?_⟩
  · rintro rfl
    rw [eq_effect h ((firstFault_hinit_none_iff 0 s).2 rfl), effect_PHASE]
  · rintro rfl hp
    rw [eq_effect h ((firstFault_hfin_none_iff 0 s).2 ⟨rfl, hp⟩), effect_PHASE]
  · rintro code rfl hp hlim
    exact abs_beyond_limit h hp hlim
  · rintro rfl
    rw [eq_effect h ((firstFault_srst_none_iff 0 s).2 rfl), effect_PHASE]
  · intro s t p h
    cases h
    exact reinit_PHASE s

/-! `H` and `LEN` (R11, R15). -/

/-- Settles O54: fault entry leaves `H` alone; of the effects that do not, `ABS` moves `H` only where its byte fills the
block. -/
theorem hashStateWriters : Obligations.HashStateWriters := by
  intro i s t h hne
  obtain ⟨c, -, rfl⟩ | ⟨hf, rfl⟩ := exec_cases h
  · exact absurd (raise_H c i s) hne
  cases i with
  | hinit rsvd =>
    obtain rfl := (firstFault_hinit_none_iff rsvd s).1 hf
    exact .inl rfl
  | srst rsvd =>
    obtain rfl := (firstFault_srst_none_iff rsvd s).1 hf
    exact .inr (.inl rfl)
  | hfin rsvd =>
    obtain ⟨rfl, hp⟩ := (firstFault_hfin_none_iff rsvd s).1 hf
    exact .inr (.inr (.inl ⟨rfl, hp⟩))
  | abs code =>
    obtain ⟨hp, hd, hl⟩ := (firstFault_abs_none_iff code s).1 hf
    have full : (stored (byteOfCode code) s.hash).fill = 0 := by
      by_contra hnot
      exact hne (absorb_H_of_not_full hnot)
    exact .inr (.inr (.inr ⟨code, rfl, hp, hd, (stored_full_iff _ _ hl).1 full⟩))
  | _ => exact absurd rfl hne

/-- The commands that move `LEN`. -/
theorem exec_LEN_ne {i : Instr} {s t : State} (h : exec i s = .next t) (hne : t.hash.LEN ≠ s.hash.LEN) :
    i = .hinit 0 ∨ i = .srst 0 ∨
      ∃ code, i = .abs code ∧ s.hash.PHASE = .absorb ∧ code.toNat ≤ 255 ∧ s.hash.LEN.toNat ≠ 2 ^ 29 - 1 := by
  obtain ⟨c, -, rfl⟩ | ⟨hf, rfl⟩ := exec_cases h
  · exact absurd (raise_LEN c i s) hne
  rw [effect_LEN] at hne
  cases i with
  | hinit rsvd =>
    obtain rfl := (firstFault_hinit_none_iff rsvd s).1 hf
    exact .inl rfl
  | srst rsvd =>
    obtain rfl := (firstFault_srst_none_iff rsvd s).1 hf
    exact .inr (.inl rfl)
  | abs code => exact .inr (.inr ⟨code, rfl, (firstFault_abs_none_iff code s).1 hf⟩)
  | _ => exact absurd rfl hne

/-- Below the limit the count of 29 bits does not wrap (R15). -/
theorem toNat_LEN_succ {l : BitVec 29} (h : l.toNat ≠ 2 ^ 29 - 1) : (l + 1).toNat = l.toNat + 1 := by
  have := l.isLt
  exact BitVec.toNat_add_of_lt (by simp; omega)

/-- Settles O55: `HINIT` and `SRST` zero the count, an accepted `ABS` is below the limit and adds 1, and 29 bits times 8
fit in 32. -/
theorem lenNeverWraps : Obligations.LenNeverWraps := by
  refine fun i s t h => ⟨?_, ?_, exec_LEN_ne h, ?_⟩
  · rintro (rfl | rfl)
    · rw [eq_effect h ((firstFault_hinit_none_iff 0 s).2 rfl), effect_LEN]
    · rw [eq_effect h ((firstFault_srst_none_iff 0 s).2 rfl), effect_LEN]
  · rintro code rfl hp hd hl
    rw [eq_effect h ((firstFault_abs_none_iff code s).2 ⟨hp, hd, hl⟩), effect_LEN]
    exact toNat_LEN_succ hl
  · have := t.hash.LEN.isLt
    omega

end Sys2Proof.Machine
end

section
/-! The fault record: what a command word leaves in it (10_state.md R23, 60_exceptions.md R190). -/

namespace Sys2Proof

/-- R60, R62: a word is the opcode and the argument of the command it decodes to. -/
theorem encode_of_decode {w : Command} {i : Instr} (h : decode w = .ok i) : encode i = w := by
  unfold decode decodeFields at h
  split at h <;> cases h <;> rename_i hop <;>
    simp only [encode, Instr.opcode, Instr.arg, argI_fields, argS_fields, argL_fields, ← hop, op_append_arg]

theorem opcode_of_decode {w : Command} {i : Instr} (h : decode w = .ok i) : i.opcode = w.op := by
  rw [← encode_of_decode h, encode, op_append]

theorem arg_of_decode {w : Command} {i : Instr} (h : decode w = .ok i) : i.arg = w.arg := by
  rw [← encode_of_decode h, encode, arg_append]

end Sys2Proof

namespace Sys2Proof.Machine

@[simp] theorem faultEntry_rsps (c : FaultCode) (op : BitVec 8) (arg : BitVec 32) (s : State) :
    (s.faultEntry c op arg).rsps = s.rsps ++ [{ CODE := c.code, DATA := 0 }] := rfl

@[simp] theorem faultEntry_err (c : FaultCode) (op : BitVec 8) (arg : BitVec 32) (s : State) :
    (s.faultEntry c op arg).err = s.err.note c op arg := rfl

/-- A record that is set is kept. -/
theorem note_of_EF {r : FaultRecord} (h : r.EF = true) (c : FaultCode) (op : BitVec 8) (arg : BitVec 32) :
    r.note c op arg = r := if_pos h

/-- A record that is clear takes the fault. -/
theorem note_of_not_EF {r : FaultRecord} (h : r.EF = false) (c : FaultCode) (op : BitVec 8) (arg : BitVec 32) :
    r.note c op arg = { EF := true, ECAUSE := c.code, EOP := op, EARG := arg } := by
  rw [FaultRecord.note, h]; rfl

/-- WHAT A COMMAND WORD DOES: fault entry with the word's own `OP` and `ARG`, or the effect of its command. -/
theorem runCommand_next {w : Command} {s t : State} (h : runCommand w s = .next t) :
    (∃ c, t = s.faultEntry c w.op w.arg) ∨ ∃ i, decode w = .ok i ∧ firstFault i s = none ∧ t = effect i s := by
  obtain ⟨i, hd, hw⟩ | ⟨-, hw⟩ := runCommand_cases w s
  · obtain ⟨c, -, rfl⟩ | ⟨hf, rfl⟩ := exec_cases (hw.symm.trans h)
    · exact .inl ⟨c, by rw [State.raise, opcode_of_decode hd, arg_of_decode hd]⟩
    · exact .inr ⟨i, hd, hf, rfl⟩
  · cases hw.symm.trans h
    exact .inl ⟨.illop, rfl⟩

/-- R23: no effect but that of `CLRE` and of `SRST` writes the record. -/
theorem effect_err_of_other {i : Instr} {s : State} (hf : firstFault i s = none) (hclre : i ≠ .clre 0)
    (hsrst : i ≠ .srst 0) : (effect i s).err = s.err := by
  rw [effect_err]
  cases i with
  | clre rsvd => exact absurd (congrArg Instr.clre ((firstFault_clre_none_iff rsvd s).1 hf)) hclre
  | srst rsvd => exact absurd (congrArg Instr.srst ((firstFault_srst_none_iff rsvd s).1 hf)) hsrst
  | _ => rfl

/-- Settles O16: a word that answers a fault code has taken fault entry, which keeps a set record and writes a clear one;
one that answers `OK` has had its effect, and `CLRE` and `SRST` alone clear the record in theirs. -/
theorem faultRecordRule : Obligations.FaultRecordRule := by
  refine ⟨fun w s t r h hr => ?_, fun s p => ⟨_, rfl, reinit_err s⟩⟩
  obtain ⟨c, rfl⟩ | ⟨i, hd, hf, rfl⟩ := runCommand_next h
  · obtain rfl : { CODE := c.code, DATA := 0 } = r := by simpa using hr
    have not_ok : c.code ≠ 0 := code_ne_zero c
    exact ⟨fun _ he => note_of_EF he c w.op w.arg, fun _ he => note_of_not_EF he c w.op w.arg,
      fun h0 => absurd h0 not_ok, fun h0 => absurd h0 not_ok⟩
  · obtain rfl : { CODE := 0, DATA := okData i s } = r := by simpa [effect_rsps] using hr
    refine ⟨fun h0 => absurd rfl h0, fun h0 => absurd rfl h0, fun _ hw => ?_, fun _ hclre hsrst => ?_⟩
    · obtain rfl | rfl := hw <;> cases hd <;> rfl
    · refine effect_err_of_other hf ?_ ?_
      · rintro rfl
        exact hclre (encode_of_decode hd).symm
      · rintro rfl
        exact hsrst (encode_of_decode hd).symm

end Sys2Proof.Machine
end

section
/-! `COMPRESS` as the pure function of R124 (41_compressor.md R118 to R123): the new `H` is a function of `H` and `BUF`. -/

namespace Sys2Proof.Machine

/-- R118: the first sixteen words of the schedule are the packed words. -/
theorem loadw_W (u : HashUnit) (j : Nat) (hj : j < 16) : u.loadw.W[j] = u.pack j hj := by
  have filled := (foldl_fill 0 16 (by decide) (fun _ j => packN u j) (fun _ _ _ _ => rfl) u.W).2 j hj
  have total : packN u j = u.pack j hj := dif_pos hj
  simp only [Nat.zero_add] at filled
  simp only [loadw_W_fold, Nat.zero_add, filled, total]

/-- R119: the `SCHED` turns leave the first sixteen words alone. -/
theorem schedAll_W_of_lt (u : HashUnit) (j : Nat) (hj : j < 16) : u.schedAll.W[j] = u.W[j] := by
  simp only [schedAll_W_fold]
  exact (foldl_fill 16 48 (by decide) schedN schedN_congr u.W).1 j (by omega) (.inl hj)

/-- R119: each word from the seventeenth on meets the recurrence on the final array. -/
theorem schedAll_W_of_ge (u : HashUnit) (i : Nat) (lo : 16 ≤ i) (hi : i < 64) :
    u.schedAll.W[i] = u.schedAll.W[i - 16] + sigma0 u.schedAll.W[i - 15] + u.schedAll.W[i - 7]
      + sigma1 u.schedAll.W[i - 2] := by
  obtain ⟨j, rfl⟩ := Nat.exists_eq_add_of_le lo
  have hj : j < 48 := by omega
  have value := (foldl_fill 16 48 (by decide) schedN schedN_congr u.W).2 j hj
  simp only [← schedAll_W_fold] at value
  rw [value, schedN, dif_pos hj]

/-- The sixteen words of the block in `BUF` (R96). -/
def HashUnit.blockWords (u : HashUnit) : List Word := List.ofFn fun j : Fin 16 => u.pack j j.isLt

theorem blockWords_getD (u : HashUnit) (j : Nat) (hj : j < 16) : u.blockWords.getD j 0 = u.pack j hj := by
  rw [HashUnit.blockWords, List.getD_eq_getElem?_getD, List.getElem?_ofFn, dif_pos hj]
  rfl

/-- R124: `W` after `LOADW` and the `SCHED` turns is the schedule of the block. (The 48 is a variable, so that no step of
the proof unfolds the 48 words.) -/
theorem schedule_blockWords (u : HashUnit) {n : Nat} (hn : n = 48) :
    Source.schedule u.blockWords n = u.loadw.schedAll.W.toList := by
  have hlen : u.blockWords.length = 16 := List.length_ofFn
  have first : ∀ (j : Nat) (hj : j < 16), u.loadw.schedAll.W[j] = u.blockWords.getD j 0 := fun j hj => by
    rw [schedAll_W_of_lt _ j hj, loadw_W u j hj, blockWords_getD u j hj]
  have hsched : (Source.schedule u.blockWords n).length = 64 := by rw [schedule_length, hlen, hn]
  apply List.ext_getElem
  · rw [hsched, Vector.length_toList]
  · intro i hi hi'
    have value := schedule_getD _ hlen _ first (schedAll_W_of_ge u.loadw) n (by omega) i (by omega) (by omega)
    rw [List.getD_eq_getElem _ _ hi] at value
    rw [value, Vector.getElem_toList]

/-- R120: `INITWR` copies `H` into the working registers. -/
theorem initwr_vec (u : HashUnit) : Working.vec u.initwr.wr = u.H := by
  ext i hi
  interval_cases i <;> rfl

/-- R122: `ADDH` adds the working registers to `H`. -/
theorem addh_H (u : HashUnit) : u.addh.H = Vector.zipWith (· + ·) u.H (Working.vec u.wr) := by
  ext i hi
  rw [Vector.getElem_zipWith]
  interval_cases i <;> rfl

/-- R124: `COMPRESS` performs `H <- compress(H, block)`. -/
theorem compress_H (u : HashUnit) : u.compress.H = Source.compress u.H u.blockWords := by
  rw [HashUnit.compress, addh_H, roundAll_vec, initwr_vec, Source.compress, schedule_blockWords u rfl]
  simp only [roundAll_H, initwr_H, initwr_W, schedAll_H, loadw_H]

end Sys2Proof.Machine
end

section
/-! The hash units that no command can tell apart (10_state.md R28, R30): `ABS` and `HFIN` write each byte of `BUF` that
they then read, and `COMPRESS` reads nothing but `H` and `BUF`. -/

namespace Sys2Proof.Machine

namespace HashUnit

/-- The same `H`, and the same bytes of `BUF` below position `n`. -/
structure AgreeBelow (n : Nat) (u v : HashUnit) : Prop where
  h : u.H = v.H
  buf : ∀ (j : Nat) (_ : j < 64), j < n → u.BUF[j] = v.BUF[j]

namespace AgreeBelow

variable {n m : Nat} {u v : HashUnit}

theorem mono (h : AgreeBelow n u v) (hmn : m ≤ n) : AgreeBelow m u v :=
  ⟨h.h, fun j hj hjm => h.buf j hj (Nat.lt_of_lt_of_le hjm hmn)⟩

theorem buf_eq (h : AgreeBelow 64 u v) : u.BUF = v.BUF := Vector.ext fun j hj => h.buf j hj hj

/-- A byte written at position `n` in both. -/
theorem setBuf (h : AgreeBelow n u v) (b : Byte) : AgreeBelow (n + 1) (u.setBuf n b) (v.setBuf n b) := by
  refine ⟨by rw [setBuf_H, setBuf_H, h.h], fun j hj hjn => ?_⟩
  rw [setBuf_BUF, setBuf_BUF, Vector.getElem_setIfInBounds, Vector.getElem_setIfInBounds]
  split
  · rfl
  · exact h.buf j hj (by omega)

/-- Zeros written from position `n` on in both. -/
theorem zeroBuf (h : AgreeBelow n u v) (k : Nat) : AgreeBelow (n + k) (u.zeroBuf n k) (v.zeroBuf n k) := by
  refine ⟨by rw [zeroBuf_H, zeroBuf_H, h.h], fun j hj hjn => ?_⟩
  rw [(zeroBuf_eq n k u).2 j hj, (zeroBuf_eq n k v).2 j hj]
  split
  · rfl
  · exact h.buf j hj (by omega)

/-- The length bytes fill the last eight positions. -/
theorem putLength (h : AgreeBelow 56 u v) (L : BitVec 32) : AgreeBelow 64 (u.putLength L) (v.putLength L) :=
  (((((((h.setBuf _).setBuf _).setBuf _).setBuf _).setBuf _).setBuf _).setBuf _).setBuf _

/-- `COMPRESS` on one block and one `H` gives one `H`, whatever `W` and `a` to `h` hold (R123, R124). -/
theorem compress (h : AgreeBelow 64 u v) : AgreeBelow 64 u.compress v.compress := by
  have block : u.blockWords = v.blockWords := congrArg List.ofFn (funext fun j => pack_congr h.buf_eq j j.isLt)
  refine ⟨by rw [compress_H, compress_H, h.h, block], fun j hj hjn => ?_⟩
  simp only [compress_BUF]
  exact h.buf j hj hjn

/-- `PADFIN` reads no byte of `BUF` at or beyond `LEN mod 64` before it writes it (R97). -/
theorem padfin_H (h : AgreeBelow u.fill u v) (hlen : u.LEN = v.LEN) : u.padfin.H = v.padfin.H := by
  have hfill : v.fill = u.fill := fill_congr hlen.symm
  have hbits : v.bitLength = u.bitLength := by rw [bitLength, bitLength, hlen]
  have hlt : u.fill < 64 := Nat.mod_lt _ (by decide)
  have marked := h.setBuf 0x80
  unfold HashUnit.padfin
  simp only [hfill, hbits]
  split
  · have last := (marked.zeroBuf (63 - u.fill)).mono (m := 64) (by omega)
    exact (((last.compress.mono (Nat.zero_le 64)).zeroBuf 56).putLength _).compress.h
  · have last := (marked.zeroBuf (55 - u.fill)).mono (m := 56) (by omega)
    exact (last.putLength _).compress.h

/-- `ABS` reads `BUF` only where its byte fills the block, and then every position has been written (R95). -/
theorem absorb (h : AgreeBelow u.fill u v) (hlen : u.LEN = v.LEN) (b : Byte) :
    AgreeBelow (u.absorb b).fill (u.absorb b) (v.absorb b) := by
  have hfill : v.fill = u.fill := fill_congr hlen.symm
  have hlt : u.fill < 64 := Nat.mod_lt _ (by decide)
  have hnext := stored_fill b u
  have hsame : (stored b v).fill = (stored b u).fill := by rw [stored_fill, stored_fill, hfill]
  have written : AgreeBelow (u.fill + 1) (stored b u) (stored b v) := by
    rw [stored, stored, hfill]
    exact ⟨(h.setBuf b).h, (h.setBuf b).buf⟩
  by_cases full : (stored b u).fill = 0
  · have last : u.fill + 1 = 64 := by omega
    rw [absorb_of_full full, absorb_of_full (hsame.trans full)]
    exact (last ▸ written).compress.mono (Nat.le_of_lt (Nat.mod_lt _ (by decide)))
  · rw [absorb_of_not_full full, absorb_of_not_full (hsame ▸ full)]
    exact written.mono (by omega)

end AgreeBelow

/-- The bytes that `ABS` has written are those below `LEN mod 64`. -/
theorem Agree.below {u v : HashUnit} (h : u.Agree v) (hp : u.PHASE = .absorb) : AgreeBelow u.fill u v :=
  ⟨h.h (by rw [hp]; decide), fun j hj hjn => h.buf hp ⟨j, hj⟩ hjn⟩

/-- In phase IDLE the count is all that a command can read. -/
theorem Agree.of_idle {u v : HashUnit} (hu : u.PHASE = .idle) (hv : v.PHASE = .idle) (hlen : u.LEN = v.LEN) :
    u.Agree v :=
  ⟨hu.trans hv.symm, hlen, fun h => absurd hu h, fun h => by rw [hu] at h; cases h⟩

/-- In phase DONE `BUF` is no longer read. -/
theorem Agree.of_done {u v : HashUnit} (hu : u.PHASE = .done) (hv : v.PHASE = .done) (hlen : u.LEN = v.LEN)
    (hH : u.H = v.H) : u.Agree v :=
  ⟨hu.trans hv.symm, hlen, fun _ => hH, fun h => by rw [hu] at h; cases h⟩

theorem Agree.of_below {u v : HashUnit} (h : AgreeBelow u.fill u v) (hp : u.PHASE = v.PHASE) (hlen : u.LEN = v.LEN) :
    u.Agree v :=
  ⟨hp, hlen, fun _ => h.h, fun _ j hj => h.buf j j.isLt hj⟩

/-- An accepted byte in both. -/
theorem Agree.absorb {u v : HashUnit} (h : u.Agree v) (hp : u.PHASE = .absorb) (b : Byte) :
    (u.absorb b).Agree (v.absorb b) :=
  of_below ((h.below hp).absorb h.len b) (by rw [absorb_PHASE, absorb_PHASE, h.phase])
    (by rw [absorb_LEN, absorb_LEN, h.len])

/-- The end of the message in both. -/
theorem Agree.finish {u v : HashUnit} (h : u.Agree v) (hp : u.PHASE = .absorb) :
    { u.padfin with PHASE := .done : HashUnit }.Agree { v.padfin with PHASE := .done } :=
  of_done rfl rfl (by rw [padfin_LEN, padfin_LEN, h.len]) ((h.below hp).padfin_H h.len)

/-- A fault in both: a terminal one ends the message (R191). -/
theorem Agree.endMessage {u v : HashUnit} (h : u.Agree v) (c : FaultCode) : (u.endMessage c).Agree (v.endMessage c) := by
  rw [HashUnit.endMessage, HashUnit.endMessage]
  split
  · exact .of_idle rfl rfl h.len
  · exact h

/-- A new message in both (R94). -/
theorem Agree.start (u v : HashUnit) :
    { u with H := IV, LEN := 0, PHASE := .absorb : HashUnit }.Agree { v with H := IV, LEN := 0, PHASE := .absorb } :=
  of_below ⟨rfl, fun _ _ hj => absurd hj (Nat.not_lt_zero _)⟩ rfl rfl

end HashUnit

/-- The effect of one command in both. -/
theorem effect_hash_agree {i : Instr} {s t : State} (h : s.hash.Agree t.hash) (hf : firstFault i s = none) :
    (effect i s).hash.Agree (effect i t).hash := by
  cases i with
  | srst _ => exact .of_idle (reinit_PHASE s) (reinit_PHASE t) rfl
  | hinit _ => exact .start s.hash t.hash
  | abs code =>
    obtain ⟨hp, -, -⟩ := (firstFault_abs_none_iff code s).1 hf
    exact h.absorb hp (byteOfCode code)
  | hfin rsvd =>
    obtain ⟨-, hp⟩ := (firstFault_hfin_none_iff rsvd s).1 hf
    exact h.finish hp
  | _ => exact h

end Sys2Proof.Machine
end

section
/-! The encoder states that no command can tell apart (10_state.md R19, R21, R30): each character of the string is written
by the encoding that sets `OLEN`, and `EW` is read below `EN` only. -/

namespace Sys2Proof.Machine

theorem take_congr_getElem? {α : Type} {l m : List α} {n : Nat} (h : ∀ j < n, l[j]? = m[j]?) :
    l.take n = m.take n := by
  ext j : 1
  rw [List.getElem?_take, List.getElem?_take]
  split
  · exact h j ‹_›
  · rfl

/-- A position below the capped length is one of the string, and the cap keeps it. -/
theorem keeps_of_lt_cappedLength {cap : Option Nat} {p j : Nat} (h : j < cappedLength cap p) :
    j < p ∧ keeps cap j = true := by
  cases cap with
  | none => exact ⟨h, rfl⟩
  | some c =>
    have hc : j < if c < p then c else p := h
    refine ⟨Nat.lt_of_lt_of_le h (cappedLength_le (some c) p), decide_eq_true ?_⟩
    split at hc <;> omega

theorem lt_cappedLength_of_lt_ofNat {cap : Option Nat} {p j : Nat}
    (h : j < (BitVec.ofNat 17 (cappedLength cap p)).toNat) : j < cappedLength cap p := by
  rw [BitVec.toNat_ofNat] at h
  exact Nat.lt_of_lt_of_le h (Nat.mod_le _ _)

/-! `ENC16`. -/

/-- The characters of `ENC16`, before the cap (R143). -/
def EncUnit.chars16 (sel : Bool) (u : EncUnit) : List Symbol :=
  (u.words.flatMap Source.nibbles).map (sym16 (u.alphabet16 sel).1 (u.alphabet16 sel).2)

theorem chars16_length (sel : Bool) (u : EncUnit) : (u.chars16 sel).length = 8 * u.words.length := by
  rw [EncUnit.chars16, List.length_map, nibbles_length]

/-- R143: `OSTR` has the characters at the positions that the cap keeps. -/
theorem enc16_OSTR {cap : Option Nat} {sel : Bool} {u : EncUnit} (hfit : 8 * u.words.length ≤ u.OSTR.length) {j : Nat}
    (hj : j < cappedLength cap (8 * u.words.length)) : (u.enc16 cap sel).OSTR[j]? = (u.chars16 sel)[j]? := by
  obtain ⟨hlt, hkeep⟩ := keeps_of_lt_cappedLength hj
  have hlen := chars16_length sel u
  have written := (putAll cap (u.chars16 sel) { OSTR := u.OSTR, p := 0 } (by simp only; omega)).2.2 j
  simp only [EncUnit.enc16, putWords_eq]
  refine written.trans ?_
  rw [if_pos ⟨Nat.zero_le j, by simp only; omega, hkeep⟩]
  rfl

/-! `ENC64`. -/

namespace Enc64Loop

/-- Two turns of the loop that are at one position, with one accumulator, and have produced the same symbols from there
on, where the cap keeps them. -/
structure AgreeFrom (cap : Option Nat) (n : Nat) (l m : Enc64Loop) : Prop where
  acc : l.ACC = m.ACC
  bc : l.BC = m.BC
  q : l.q = m.q
  size : l.OSTR.length = m.OSTR.length
  ostr : ∀ j, l.q ≤ j → j < n → keeps cap j = true → l.OSTR[j]? = m.OSTR[j]?

namespace AgreeFrom

variable {cap : Option Nat} {n : Nat} {l m : Enc64Loop}

theorem emit (h : AgreeFrom cap n l m) (al : Vector Symbol 64) : AgreeFrom cap n (l.emit cap al) (m.emit cap al) := by
  obtain ⟨acc, bc, q, size, ostr⟩ := h
  refine ⟨?_, ?_, ?_, ?_, ?_⟩
  · simp only [Enc64Loop.emit, acc]
  · simp only [Enc64Loop.emit, bc]
  · simp only [Enc64Loop.emit, q]
  · rw [emit_length, emit_length, size]
  · intro j hj hjn hkeep
    have hj : l.q - 1 ≤ j := hj
    simp only [Enc64Loop.emit, ← q, ← acc]
    by_cases here : j = l.q - 1
    · subst here
      rw [if_pos hkeep, if_pos hkeep, List.getElem?_set, List.getElem?_set, if_pos rfl, if_pos rfl, size]
    · have before := ostr j (by omega) hjn hkeep
      split
      · rw [List.getElem?_set_ne (Ne.symm here), List.getElem?_set_ne (Ne.symm here), before]
      · exact before

theorem drain (h : AgreeFrom cap n l m) (al : Vector Symbol 64) (thr : Int) (fuel : Nat) :
    AgreeFrom cap n (l.drain cap al thr fuel) (m.drain cap al thr fuel) := by
  induction fuel generalizing l m with
  | zero => exact h
  | succ fuel ih =>
    simp only [Enc64Loop.drain, h.bc]
    split
    · exact ih (h.emit al)
    · exact h

theorem enter (h : AgreeFrom cap n l m) (chunk : BitVec 16) : AgreeFrom cap n (l.enter chunk) (m.enter chunk) := by
  refine ⟨?_, ?_, h.q, h.size, h.ostr⟩
  · simp only [Enc64Loop.enter, h.acc, h.bc]
  · simp only [Enc64Loop.enter, h.bc]

theorem foldl_step (h : AgreeFrom cap n l m) (al : Vector Symbol 64) (ws : List Word) (is : List Nat) :
    AgreeFrom cap n (is.foldl (step cap al ws) l) (is.foldl (step cap al ws) m) := by
  induction is generalizing l m with
  | nil => exact h
  | cons i is ih => exact ih ((h.enter _).drain al _ 6)

end AgreeFrom

/-! The loop's control: `BC`, and the position `q` (R164, R165). -/

/-- A chunk entered: 16 more bits, and the signed six bits of `BC` hold them. -/
theorem enter_BC (chunk : BitVec 16) {l : Enc64Loop} (hlo : 0 ≤ l.BC.toInt) (hhi : l.BC.toInt ≤ 5) :
    (l.enter chunk).BC.toInt = l.BC.toInt + 16 := by
  show (l.BC + 16).toInt = _
  rw [BitVec.toInt_add]
  exact Int.bmod_eq_of_le (by simp; omega) (by simp; omega)

/-- A symbol emitted: 6 bits fewer. -/
theorem emit_BC (cap : Option Nat) (al : Vector Symbol 64) {l : Enc64Loop} (h : 1 ≤ l.BC.toInt) :
    (l.emit cap al).BC.toInt = l.BC.toInt - 6 := by
  have := BitVec.toInt_lt (x := l.BC)
  show (l.BC - 6).toInt = _
  rw [BitVec.toInt_sub]
  exact Int.bmod_eq_of_le (by simp; omega) (by simp; omega)

section drain
variable {cap : Option Nat} {al : Vector Symbol 64} {thr : Int} {fuel : Nat} {l : Enc64Loop}

theorem drain_of_le (h : thr ≤ l.BC.toInt) : l.drain cap al thr (fuel + 1) = (l.emit cap al).drain cap al thr fuel :=
  if_pos h

theorem drain_of_lt (h : ¬ thr ≤ l.BC.toInt) : l.drain cap al thr (fuel + 1) = l := if_neg h

end drain

/-- `while BC >= thr` ends below `thr`, within six of it, and moves `q` by one for each six bits. -/
theorem drain_control (cap : Option Nat) (al : Vector Symbol 64) {thr : Int} (hthr : 1 ≤ thr) (fuel : Nat)
    {l : Enc64Loop} (hlo : thr - 6 ≤ l.BC.toInt) (hhi : l.BC.toInt < 6 * fuel + thr) (hq : l.BC.toInt ≤ 6 * l.q) :
    thr - 6 ≤ (l.drain cap al thr fuel).BC.toInt ∧ (l.drain cap al thr fuel).BC.toInt < thr ∧
      6 * ((l.drain cap al thr fuel).q : Int) - (l.drain cap al thr fuel).BC.toInt = 6 * l.q - l.BC.toInt := by
  induction fuel generalizing l with
  | zero => exact ⟨hlo, by simpa [Enc64Loop.drain] using hhi, rfl⟩
  | succ fuel ih =>
    by_cases more : thr ≤ l.BC.toInt
    · have hbc := emit_BC cap al (l := l) (by omega)
      have hpos : (l.emit cap al).q = l.q - 1 := rfl
      have := ih (l := l.emit cap al) (by omega) (by push_cast at hhi; omega) (by omega)
      rw [drain_of_le more]
      exact ⟨this.1, this.2.1, by omega⟩
    · rw [drain_of_lt more]
      exact ⟨hlo, by omega, rfl⟩

/-- Where the loop starts (R164). -/
def start (ostr : List Symbol) (n : Nat) : Enc64Loop := { OSTR := ostr, ACC := 0, BC := 0, q := n }

/-- R165: after `i` chunks `BC` is 0 to 5, or -5 to 0 after the last, and `q` has moved by one for each symbol. -/
theorem control (cap : Option Nat) (al : Vector Symbol 64) (ws : List Word) (ostr : List Symbol) {i : Nat}
    (hi : i ≤ 2 * ws.length) :
    let l := (List.range i).foldl (step cap al ws) (start ostr (naturalLength64 ws.length))
    (i < 2 * ws.length → 0 ≤ l.BC.toInt ∧ l.BC.toInt ≤ 5) ∧
    (i = 2 * ws.length → -5 ≤ l.BC.toInt ∧ l.BC.toInt ≤ 0) ∧
    6 * (l.q : Int) - l.BC.toInt = 6 * (naturalLength64 ws.length : Int) - 16 * i := by
  induction i with
  | zero => simp [start]
  | succ i ih =>
    obtain ⟨bounds, -, position⟩ := ih (by omega)
    obtain ⟨hlo, hhi⟩ := bounds (by omega)
    rw [List.range_succ, List.foldl_append, List.foldl_cons, List.foldl_nil]
    generalize (List.range i).foldl (step cap al ws) (start ostr (naturalLength64 ws.length)) = l at *
    have hbc := enter_BC (chunk64 ws i) hlo hhi
    have hq : (l.enter (chunk64 ws i)).q = l.q := rfl
    have hn : 32 * ws.length ≤ 6 * naturalLength64 ws.length := by unfold naturalLength64; omega
    rw [step]
    by_cases last : i = 2 * ws.length - 1
    · rw [if_pos last]
      have := drain_control cap al (thr := 1) (by decide) 6 (l := l.enter (chunk64 ws i)) (by omega) (by omega) (by omega)
      omega
    · rw [if_neg last]
      have := drain_control cap al (thr := 6) (by decide) 6 (l := l.enter (chunk64 ws i)) (by omega) (by omega) (by omega)
      omega

/-- The last symbol goes to position 0 (R164, "q = 0"). -/
theorem q_at_end (cap : Option Nat) (al : Vector Symbol 64) (ws : List Word) (ostr : List Symbol) :
    ((List.range (2 * ws.length)).foldl (step cap al ws) (start ostr (naturalLength64 ws.length))).q = 0 := by
  obtain ⟨-, bounds, position⟩ := control cap al ws ostr (Nat.le_refl _)
  have hn : 6 * naturalLength64 ws.length ≤ 32 * ws.length + 5 := by unfold naturalLength64; omega
  have := bounds rfl
  omega

end Enc64Loop

/-- Two encoder states with the same words and alphabet and `OSTR` of one size: `ENC64` leaves the same symbols at the
positions that the cap keeps. -/
theorem enc64_OSTR_congr {cap : Option Nat} {sel : Bool} {u v : EncUnit} (hw : u.words = v.words) (hal : u.A64 = v.A64)
    (hsize : u.OSTR.length = v.OSTR.length) {j : Nat}
    (hj : j < cappedLength cap (naturalLength64 u.words.length)) :
    (u.enc64 cap sel).OSTR[j]? = (v.enc64 cap sel).OSTR[j]? := by
  obtain ⟨hlt, hkeep⟩ := keeps_of_lt_cappedLength hj
  have hal' : u.alphabet64 sel = v.alphabet64 sel := by rw [EncUnit.alphabet64, EncUnit.alphabet64, hal]
  have begin' : Enc64Loop.AgreeFrom cap (naturalLength64 u.words.length)
      (.start u.OSTR (naturalLength64 u.words.length)) (.start v.OSTR (naturalLength64 u.words.length)) :=
    ⟨rfl, rfl, rfl, hsize, fun j hj hjn => absurd hjn (Nat.not_lt_of_le hj)⟩
  have ended := begin'.foldl_step (u.alphabet64 sel) u.words (List.range (2 * u.words.length))
  have symbols := ended.ostr j (by rw [Enc64Loop.q_at_end]; exact Nat.zero_le j) hlt hkeep
  simp only [EncUnit.enc64, ← hw, ← hal']
  exact symbols

end Sys2Proof.Machine
end

section
/-! Hidden state is unobservable (10_state.md R30): every step takes two states that agree to two states that agree. -/

namespace Sys2Proof.Machine

/-! The word sequence after the commands that write it. -/

/-- `EWPUSH` below the capacity appends its word (R139). -/
theorem words_push {u : EncUnit} (hlt : u.EN.toNat < u.EW.length) (hsize : u.EW.length ≤ 8192) (word : Word) :
    { u.setEW u.EN.toNat word with EN := u.EN + 1 : EncUnit }.words = u.words ++ [word] := by
  have count : (u.EN + 1).toNat = u.EN.toNat + 1 := BitVec.toNat_add_of_lt (by simp; omega)
  show (u.EW.set u.EN.toNat word).take (u.EN + 1).toNat = u.EW.take u.EN.toNat ++ [word]
  rw [count, List.take_add_one, List.getElem?_set_self hlt, List.take_set_of_le (Nat.le_refl _)]
  rfl

/-- `EWDIG` makes the digest the word sequence (R140). -/
theorem words_loadDigest {u : EncUnit} (hu : 8 ≤ u.EW.length) (H : Vector Word 8) :
    { u.loadDigest H with EN := 8 : EncUnit }.words = H.toList := by
  show (u.loadDigest H).EW.take 8 = H.toList
  rw [loadDigest_EW H hu, List.take_append_of_le_length (by simp), List.take_of_length_le (by simp)]

namespace EncUnit.Agree

variable {u v : EncUnit}

/-- A character of the string is the same in both. -/
theorem getOSTR (h : u.Agree v) {j : Nat} (hj : j < u.OLEN.toNat) : u.getOSTR j = v.getOSTR j := by
  have char : u.OSTR[j]? = v.OSTR[j]? := by
    have := congrArg (·[j]?) h.ostr
    simpa only [EncUnit.string, List.getElem?_take, hj, h.olen ▸ hj, if_true] using this
  rw [EncUnit.getOSTR, EncUnit.getOSTR, List.getD_eq_getElem?_getD, List.getD_eq_getElem?_getD, char]

theorem push (h : u.Agree v) {cfg : Config} (hu : u.Fits cfg) (hv : v.Fits cfg) (hcap : cfg.EWMAX ≤ 8192)
    (hne : u.EN.toNat ≠ cfg.EWMAX) (word : Word) :
    { u.setEW u.EN.toNat word with EN := u.EN + 1 : EncUnit }.Agree
      { v.setEW v.EN.toNat word with EN := v.EN + 1 } := by
  have room : ∀ w : EncUnit, w.Fits cfg → w.EN = u.EN → w.EN.toNat < w.EW.length ∧ w.EW.length ≤ 8192 :=
    fun w hw hen => by
      have := hw.en_le
      rw [hw.ew_size, hen] at *
      omega
  obtain ⟨hlt, hsize⟩ := room u hu rfl
  obtain ⟨hlt', hsize'⟩ := room v hv h.en.symm
  exact { h with
    en := congrArg (· + 1) h.en
    ew := by rw [words_push hlt hsize, words_push hlt' hsize', h.ew] }

theorem loadDigest (h : u.Agree v) {cfg : Config} (hu : u.Fits cfg) (hv : v.Fits cfg) (hcap : 8 ≤ cfg.EWMAX)
    (H : Vector Word 8) :
    { u.loadDigest H with EN := 8 : EncUnit }.Agree { v.loadDigest H with EN := 8 } := by
  have words := (words_loadDigest (hu.ew_size ▸ hcap) H).trans (words_loadDigest (hv.ew_size ▸ hcap) H).symm
  rw [loadDigest_frame H u, loadDigest_frame H v] at words ⊢
  exact { h with en := rfl, ew := words }

theorem enc16_OLEN (h : u.Agree v) (cap : Option Nat) (sel : Bool) : (u.enc16 cap sel).OLEN = (v.enc16 cap sel).OLEN := by
  rw [Machine.enc16_OLEN, Machine.enc16_OLEN, h.ew]

theorem enc64_OLEN (h : u.Agree v) (cap : Option Nat) (sel : Bool) : (u.enc64 cap sel).OLEN = (v.enc64 cap sel).OLEN := by
  rw [Machine.enc64_OLEN, Machine.enc64_OLEN, h.ew]

theorem chars16 (h : u.Agree v) (sel : Bool) : u.chars16 sel = v.chars16 sel := by
  simp only [EncUnit.chars16, EncUnit.alphabet16, h.ew, h.a16, h.a16len]

theorem enc16 (h : u.Agree v) {cfg : Config} (hu : u.Fits cfg) (hv : v.Fits cfg) (cap : Option Nat) (sel : Bool) :
    (u.enc16 cap sel).Agree (v.enc16 cap sel) := by
  have hlen := h.enc16_OLEN cap sel
  have string : (u.enc16 cap sel).string = (v.enc16 cap sel).string := by
    rw [EncUnit.string, EncUnit.string, ← hlen]
    refine take_congr_getElem? fun j hj => ?_
    rw [Machine.enc16_OLEN] at hj
    have hj := lt_cappedLength_of_lt_ofNat hj
    rw [enc16_OSTR (hu.ostr_size ▸ hu.words_le) hj, enc16_OSTR (hv.ostr_size ▸ hv.words_le) (h.ew ▸ hj), h.chars16 sel]
  exact { h with olen := hlen, ostr := string }

theorem enc64 (h : u.Agree v) {cfg : Config} (hu : u.Fits cfg) (hv : v.Fits cfg) (cap : Option Nat) (sel : Bool) :
    (u.enc64 cap sel).Agree (v.enc64 cap sel) := by
  have hlen := h.enc64_OLEN cap sel
  have string : (u.enc64 cap sel).string = (v.enc64 cap sel).string := by
    rw [EncUnit.string, EncUnit.string, ← hlen]
    refine take_congr_getElem? fun j hj => ?_
    rw [Machine.enc64_OLEN] at hj
    exact enc64_OSTR_congr h.ew h.a64 (hu.ostr_size.trans hv.ostr_size.symm) (lt_cappedLength_of_lt_ofNat hj)
  exact { h with olen := hlen, ostr := string }

end EncUnit.Agree

/-- R29: a reset leaves no word and no character, so what the buffers hold is hidden. -/
theorem reinit_enc_agree (s t : State) : s.reinit.enc.Agree t.reinit.enc where
  en := rfl
  ew := (reinit_words s).trans (reinit_words t).symm
  a16 := rfl
  a16len := rfl
  a64 := rfl
  olen := rfl
  ostr := (reinit_string s).trans (reinit_string t).symm

/-! One command word and one step, said on the word and on the channel. -/

theorem runCommand_of_ok {w : Command} {i : Instr} (h : decode w = .ok i) (s : State) : runCommand w s = exec i s := by
  rw [runCommand, h]

theorem runCommand_of_error {w : Command} {op : BitVec 8} (h : decode w = .error (.unassignedOpcode op)) (s : State) :
    runCommand w s = .next (s.faultEntry .illop op w.arg) := by
  rw [runCommand, h]

theorem step_of_nil {s : State} (h : s.cmds = []) : step s = .next s := by rw [step, h]

theorem step_of_cons {s : State} {x : HostInput} {rest : List HostInput} (h : s.cmds = x :: rest) :
    step s = runInput x { s with cmds := rest } := by rw [step, h]

namespace State.Agree

variable {i : Instr} {s t : State}

/-- No check reads hidden state. -/
theorem firstFault (h : s.Agree t) (i : Instr) : firstFault i s = firstFault i t := by
  have phase : phaseBroken i s = phaseBroken i t := by simp only [phaseBroken, h.hash.phase]
  have range : rangeBroken i s = rangeBroken i t := by cases i <;> simp only [rangeBroken, h.enc.olen]
  have resource : resourceBroken i s = resourceBroken i t := by
    cases i <;> simp only [resourceBroken, h.hash.len, h.enc.en, h.cfg]
  rw [Machine.firstFault, Machine.firstFault, phase, range, resource]

theorem csrRead (h : s.Agree t) (n : Nat) : csrRead n s = csrRead n t := by
  simp only [Machine.csrRead, statusWord, h.err, h.hash.phase, h.hash.len, h.enc.en, h.enc.a16len, h.enc.olen, h.cfg]

/-- No response carries hidden state. -/
theorem okData (h : s.Agree t) (hf : Machine.firstFault i s = none) : okData i s = okData i t := by
  cases i with
  | rdcsr rsvd idx => simp only [Machine.okData, h.csrRead]
  | hrd rsvd idx =>
    obtain ⟨-, hp, -⟩ := (firstFault_hrd_none_iff rsvd idx s).1 hf
    simp only [Machine.okData, h.hash.h (by rw [hp]; decide)]
  | enc16 ce sel cap => simp only [Machine.okData, h.enc.enc16_OLEN]
  | enc64 ce sel cap => simp only [Machine.okData, h.enc.enc64_OLEN]
  | ord rsvd idx =>
    obtain ⟨-, hlt⟩ := (firstFault_ord_none_iff rsvd idx s).1 hf
    simp only [Machine.okData, h.enc.getOSTR hlt]
  | _ => rfl

/-- The effect of one command on the encoders, in both. -/
theorem effect_enc (h : s.Agree t) (hs : s.Inv) (ht : t.Inv) (hf : Machine.firstFault i s = none) :
    (effect i s).enc.Agree (effect i t).enc := by
  have hu : s.enc.Fits s.cfg := hs.fits
  have hv : t.enc.Fits s.cfg := h.cfg ▸ ht.fits
  have he := h.enc
  cases i with
  | srst _ => exact reinit_enc_agree s t
  | ewclr _ => exact { he with en := rfl, ew := rfl }
  | ewpush word => exact he.push hu hv hs.ewmax_hi ((firstFault_ewpush_none_iff word s).1 hf) word
  | ewdig rsvd =>
    obtain ⟨-, hp⟩ := (firstFault_ewdig_none_iff rsvd s).1 hf
    rw [effect_ewdig, effect_ewdig, h.hash.h (by rw [hp]; decide)]
    exact he.loadDigest hu hv hs.ewmax_lo t.hash.H
  | a16set _ idx _ ch => exact { he with a16 := congrArg (·.setIfInBounds idx.toNat ch) he.a16 }
  | a16len _ _ => exact { he with a16len := rfl }
  | a64set _ idx _ ch => exact { he with a64 := congrArg (·.setIfInBounds idx.toNat ch) he.a64 }
  | enc16 ce sel cap => exact he.enc16 hu hv (capOf ce cap) sel
  | enc64 ce sel cap => exact he.enc64 hu hv (capOf ce cap) sel
  | rdcsr _ _ | clre _ | hinit _ | abs _ | hfin _ | hrd _ _ | ord _ _ => exact he

theorem effect (h : s.Agree t) (hs : s.Inv) (ht : t.Inv) (hf : Machine.firstFault i s = none) :
    (effect i s).Agree (effect i t) where
  cfg := by rw [effect_cfg, effect_cfg, h.cfg]
  hash := effect_hash_agree h.hash hf
  enc := h.effect_enc hs ht hf
  err := by rw [effect_err, effect_err, h.err]
  cmds := by rw [effect_cmds, effect_cmds, h.cmds]
  rsps := by rw [effect_rsps, effect_rsps, h.rsps, h.okData hf]

/-- Fault entry in both (R190). -/
theorem faultEntry (h : s.Agree t) (c : FaultCode) (op : BitVec 8) (arg : BitVec 32) :
    (s.faultEntry c op arg).Agree (t.faultEntry c op arg) where
  cfg := h.cfg
  hash := h.hash.endMessage c
  enc := h.enc
  err := by rw [faultEntry_err, faultEntry_err, h.err]
  cmds := h.cmds
  rsps := by rw [faultEntry_rsps, faultEntry_rsps, h.rsps]

/-- R29, R30: two resets agree, whatever was there before and whatever free values each takes. -/
theorem reinit (hcfg : s.cfg = t.cfg) (hcmds : s.cmds = t.cmds) (hrsps : s.rsps = t.rsps) : s.reinit.Agree t.reinit where
  cfg := hcfg
  hash := .of_idle (reinit_PHASE s) (reinit_PHASE t) rfl
  enc := reinit_enc_agree s t
  err := rfl
  cmds := hcmds
  rsps := hrsps

/-- What the host still has to send is read by no clause but its own. -/
theorem withCmds (h : s.Agree t) (cmds : List HostInput) : { s with cmds := cmds }.Agree { t with cmds := cmds } :=
  { h with cmds := rfl }

variable {s' t' : State}

theorem exec (h : s.Agree t) (hs : s.Inv) (ht : t.Inv) (hes : exec i s = .next s') (het : exec i t = .next t') :
    s'.Agree t' := by
  cases hf : Machine.firstFault i s with
  | some c =>
    cases (exec_of_fault hf).symm.trans hes
    cases (exec_of_fault (h.firstFault i ▸ hf)).symm.trans het
    exact h.faultEntry c i.opcode i.arg
  | none =>
    rw [eq_effect hes hf, eq_effect het (h.firstFault i ▸ hf)]
    exact h.effect hs ht hf

theorem runInput (h : s.Agree t) (hs : s.Inv) (ht : t.Inv) {x : HostInput} (hes : runInput x s = .next s')
    (het : runInput x t = .next t') : s'.Agree t' := by
  cases x with
  | cmd w =>
    cases hd : decode w with
    | ok i => exact h.exec hs ht ((runCommand_of_ok hd s).symm.trans hes) ((runCommand_of_ok hd t).symm.trans het)
    | error e =>
      obtain ⟨op⟩ := e
      cases (runCommand_of_error hd s).symm.trans hes
      cases (runCommand_of_error hd t).symm.trans het
      exact h.faultEntry .illop op w.arg
  | rst p =>
    cases hes
    cases het
    exact reinit h.cfg h.cmds h.rsps

end State.Agree

/-- Settles O58: the two states have the same input next. The checks and the response read nothing hidden, and each effect
writes what it or a later command reads; the invariant gives the buffers the size that the writes need. -/
theorem hiddenStateUnobservable : Obligations.HiddenStateUnobservable := by
  intro s t s' t' hs ht h hes het
  cases hc : s.cmds with
  | nil =>
    cases (step_of_nil hc).symm.trans hes
    cases (step_of_nil (h.cmds ▸ hc)).symm.trans het
    exact h
  | cons x rest =>
    exact (h.withCmds rest).runInput (hs.withCmds rest) (ht.withCmds rest) ((step_of_cons hc).symm.trans hes)
      ((step_of_cons (h.cmds ▸ hc)).symm.trans het)

end Sys2Proof.Machine
end

section
/-! The read commands `RDCSR`, `HRD`, `ORD` (20_memory.md R49). -/

namespace Sys2Proof.Machine

/-- No check of a command looks at the responses already sent. -/
theorem firstFault_answered (i : Instr) (code : BitVec 8) (data : Word) (s : State) :
    firstFault i (s.answered code data) = firstFault i s := by
  cases i <;> rfl

/-- No command's answer depends on the responses already sent. -/
theorem okData_answered (i : Instr) (code : BitVec 8) (data : Word) (s : State) :
    okData i (s.answered code data) = okData i s := by
  cases i <;> rfl

/-- The effect of a read is its response and nothing else. -/
theorem effect_of_read {i : Instr} (h : (∃ a b, i = .rdcsr a b) ∨ (∃ a b, i = .hrd a b) ∨ (∃ a b, i = .ord a b))
    (s : State) : effect i s = s.answered 0 (okData i s) := by
  obtain ⟨rsvd, idx, rfl⟩ | ⟨rsvd, idx, rfl⟩ | ⟨rsvd, idx, rfl⟩ := h <;> rfl

/-- A command that responds `OK` passed all its checks: its response is its answer, and its next state is its effect. -/
theorem exec_ok {i : Instr} {s t : State} {r : Response} (h : exec i s = .next t) (hr : t.rsps = s.rsps ++ [r])
    (hok : r.CODE = 0) : firstFault i s = none ∧ t = effect i s ∧ r = { CODE := 0, DATA := okData i s } := by
  obtain ⟨c, -, rfl⟩ | ⟨hf, rfl⟩ := exec_cases h
  · obtain rfl : { CODE := c.code, DATA := 0 } = r := by simpa [raise_rsps] using hr
    exact absurd hok (code_ne_zero c)
  · exact ⟨hf, rfl, by simpa [effect_rsps] using hr.symm⟩

/-- Settles O56: a read that responds `OK` has only answered, and neither its checks nor its answer look at the responses,
so the same read answers the same again. -/
theorem readCommandsAreIdempotent : Obligations.ReadCommandsAreIdempotent := by
  intro i s t r hread ht hr hok
  obtain ⟨hf, rfl, rfl⟩ := exec_ok ht hr hok
  rw [effect_of_read hread]
  refine ⟨rfl, ?_⟩
  have hagain : firstFault i (s.answered 0 (okData i s)) = none := (firstFault_answered i 0 (okData i s) s).trans hf
  rw [exec_of_no_fault hagain, effect_of_read hread, okData_answered]
  rfl

end Sys2Proof.Machine
end

section
/-! Command words and their answers: decoding, the opcodes without a command, the reserved bits, and the one response of
each word (30_encoding.md R60 to R66). -/

namespace Sys2Proof

/-- Settles O1: the general lemma `decode_encode`, which reads back each format's fields. -/
theorem decodeOfEncode : Obligations.DecodeOfEncode := decode_encode

/-- Settles O2: the general lemma `encode_of_decode`, which puts a word together again from its fields. -/
theorem encodeOfDecode : Obligations.EncodeOfDecode := fun _ _ => encode_of_decode

/-- Settles O3: each word is a literal, whose fields compute. -/
theorem decodeOfSpecWords : Obligations.DecodeOfSpecWords := ⟨rfl, rfl, rfl, rfl, rfl, rfl, rfl, rfl, rfl⟩

/-- R60: `OP` is the word's number above its low 32 bits. -/
theorem op_toNat (w : Command) : w.op.toNat = w.toNat / 2 ^ 32 := by
  have := w.isLt
  rw [Command.op, BitVec.extractLsb'_toNat, Nat.shiftRight_eq_div_pow]
  exact Nat.mod_eq_of_lt (by omega)

end Sys2Proof

namespace Sys2Proof.Machine

/-! The opcodes without a command (R65). -/

/-- No row of R64 has an opcode of R65's list. -/
theorem opcode_not_unassigned (i : Instr) : unassigned i.opcode.toNat = false := by cases i <;> rfl

/-- An opcode outside R65's list is in a row of R64. -/
theorem mem_opcodes_of_not_unassigned : ∀ op : BitVec 8, unassigned op.toNat = false →
    op ∈ [0x01#8, 0x02, 0x03, 0x10, 0x11, 0x12, 0x13, 0x20, 0x21, 0x22, 0x23, 0x24, 0x25, 0x28, 0x29, 0x2A] := by
  decide

/-- R65: a word with an opcode of the list has no command. -/
theorem decode_error_of_unassigned {w : Command} (h : unassigned w.op.toNat = true) :
    decode w = .error (.unassignedOpcode w.op) := by
  cases hd : decode w with
  | ok i =>
    rw [← opcode_of_decode hd, opcode_not_unassigned] at h
    cases h
  | error e =>
    obtain ⟨op⟩ := e
    rw [decode_error hd]

theorem decode_ok_of_not_unassigned {w : Command} (h : unassigned w.op.toNat = false) : ∃ i, decode w = .ok i := by
  have listed := mem_opcodes_of_not_unassigned w.op h
  unfold decode
  generalize w.op = op at listed
  simp only [List.mem_cons, List.not_mem_nil, or_false] at listed
  rcases listed with rfl | rfl | rfl | rfl | rfl | rfl | rfl | rfl | rfl | rfl | rfl | rfl | rfl | rfl | rfl | rfl <;>
    exact ⟨_, rfl⟩

/-- A step with a word that decodes to no command is E_ILLOP's fault entry (R182). -/
theorem step_of_unassigned {w : Command} (h : unassigned w.op.toNat = true) (s : State) (rest : List HostInput) :
    step { s with cmds := .cmd w :: rest } = .next (({ s with cmds := rest }).protocolFault 0x01 w.op w.arg) :=
  runCommand_of_error (decode_error_of_unassigned h) { s with cmds := rest }

/-- Settles O4: the 16 rows of R64 and the 240 values of R65 share no opcode and together are all of them. -/
theorem unassignedOpcodesRaiseIllop : Obligations.UnassignedOpcodesRaiseIllop := by
  refine ⟨fun w s rest h => ?_, by decide +kernel, fun w h => ?_⟩
  · exact step_of_unassigned (op_toNat w ▸ h) s rest
  · exact decode_ok_of_not_unassigned (op_toNat w ▸ h)

/-! Reserved bits (R66). -/

/-- Reserved bits are checked before all else of a command (R183, R189). -/
theorem exec_of_reservedBroken {i : Instr} (h : reservedBroken i.format i.arg = true) (s : State) :
    exec i s = .next (s.protocolFault 0x02 i.opcode i.arg) :=
  exec_of_fault (if_pos h)

/-- Settles O5: both conditions make the check of R66 fail, which comes first. -/
theorem reservedBitsRaiseRsvd : Obligations.ReservedBitsRaiseRsvd := by
  refine ⟨⟨rfl, rfl, rfl, rfl, rfl, rfl⟩, fun i s h => ?_, fun sel cap s h => ⟨?_, ?_⟩⟩
  · exact exec_of_reservedBroken (by rw [reservedBroken, bne_iff_ne.2 h, Bool.true_or]) s
  · exact exec_of_reservedBroken (by simpa [reservedBroken_eq_not_wellFormed, Instr.wellFormed] using h) s
  · exact exec_of_reservedBroken (by simpa [reservedBroken_eq_not_wellFormed, Instr.wellFormed] using h) s

/-! One step, one response. -/

/-- Settles O6: `step_of_nil` and `step_of_cons`, with `runCommand` on a word that decodes. -/
theorem stepRunsDecodedCommand : Obligations.StepRunsDecodedCommand :=
  ⟨fun _ => step_of_nil, fun _ _ _ _ hc hd => (step_of_cons hc).trans (runCommand_of_ok hd _)⟩

/-- Five commands pass a value to `respond`; the others answer 0 (R61). -/
theorem okData_eq_zero {i : Instr} (h : i.opcode ∉ [0x01#8, 0x13#8, 0x28#8, 0x29#8, 0x2A#8]) (s : State) :
    okData i s = 0 := by
  cases i with
  | rdcsr _ _ | hrd _ _ | enc16 _ _ _ | enc64 _ _ _ | ord _ _ => exact absurd (by simp [Instr.opcode]) h
  | _ => rfl

/-- Every command word has a next state (R180). -/
theorem runCommand_total (w : Command) (s : State) : ∃ t, runCommand w s = .next t := by
  obtain ⟨i, -, hw⟩ | ⟨-, hw⟩ := runCommand_cases w s
  · exact hw ▸ exec_total i s
  · exact ⟨_, hw⟩

/-- Settles O8: a word ends in fault entry, which answers its code and 0, or in an effect, which answers `OK` and the
command's data. -/
theorem oneResponsePerCommand : Obligations.OneResponsePerCommand := by
  refine ⟨fun w s => ?_, fun r => ⟨op_append r.CODE r.DATA, arg_append r.CODE r.DATA⟩⟩
  obtain ⟨t, ht⟩ := runCommand_total w s
  obtain ⟨c, rfl⟩ | ⟨i, hd, -, rfl⟩ := runCommand_next ht
  · exact ⟨_, _, ht, faultEntry_rsps c w.op w.arg s, code_le_seven c, fun _ => rfl, fun _ => rfl⟩
  · refine ⟨_, _, ht, effect_rsps i s, Nat.zero_le 7, fun h => absurd rfl h, fun h => ?_⟩
    exact okData_eq_zero (opcode_of_decode hd ▸ h) s

end Sys2Proof.Machine
end

section
/-! The assembler sets every reserved bit to 0 (30_encoding.md R68, R69). -/

namespace Sys2Proof.HostSide

/-- Every command of a list is well formed. -/
def AllWellFormed (is : List Instr) : Prop := ∀ i ∈ is, i.wellFormed = true

theorem AllWellFormed.append {is js : List Instr} (hi : AllWellFormed is) (hj : AllWellFormed js) :
    AllWellFormed (is ++ js) :=
  List.forall_mem_append.2 ⟨hi, hj⟩

theorem AllWellFormed.singleton {i : Instr} (h : i.wellFormed = true) : AllWellFormed [i] :=
  List.forall_mem_singleton.2 h

theorem AllWellFormed.map {α : Type} {f : α → Instr} (h : ∀ x, (f x).wellFormed = true) (xs : List α) :
    AllWellFormed (xs.map f) :=
  List.forall_mem_map.2 fun x _ => h x

/-! The pseudo-commands. -/

theorem msg_wellFormed (codes : List (BitVec 32)) : AllWellFormed (msg codes) := .map (fun _ => rfl) codes

theorem digest_wellFormed (codes : List (BitVec 32)) : AllWellFormed (digest codes) :=
  .append (.append (.singleton rfl) (msg_wellFormed codes)) (.singleton rfl)

theorem words_wellFormed (ws : List (BitVec 32)) : AllWellFormed (words ws) :=
  .append (.singleton rfl) (.map (fun _ => rfl) ws)

theorem alpha16_wellFormed (al : List (BitVec 8)) : AllWellFormed (alpha16 al) :=
  .append (.map (fun _ => rfl) _) (.singleton rfl)

theorem alpha64_wellFormed (al : Vector (BitVec 8) 64) : AllWellFormed (alpha64 al) := .map (fun _ => rfl) _

theorem readh_wellFormed : AllWellFormed readh := .map (fun _ => rfl) _

theorem readstr_wellFormed (n : Nat) : AllWellFormed (readstr n) :=
  .append (.singleton rfl) (.map (fun _ => rfl) (List.range n))

theorem alpha16Line_wellFormed {cs : List Char} {is : List Instr} (h : alpha16Line cs = some is) :
    AllWellFormed is := by
  simp only [alpha16Line, Option.bind_eq_bind, Option.bind_eq_some_iff] at h
  obtain ⟨al, -, h⟩ := h
  split at h <;> cases h
  exact alpha16_wellFormed al

theorem alpha64Line_wellFormed {cs : List Char} {is : List Instr} (h : alpha64Line cs = some is) :
    AllWellFormed is := by
  simp only [alpha64Line, Option.bind_eq_bind, Option.bind_eq_some_iff] at h
  obtain ⟨al, -, h⟩ := h
  split at h <;> cases h
  exact alpha64_wellFormed _

/-! One command line. -/

/-- The options give a `CAP` other than 0 only together with `CE` (R66). -/
theorem options_cap {ops : List Operand} {o : Bool × Bool × BitVec 30} (h : options ops = some o) :
    (o.1 || o.2.2 == 0) = true := by
  induction ops generalizing o with
  | nil => cases h; rfl
  | cons op rest ih =>
    cases op with
    | num n => cases h
    | cap n =>
      simp only [options, Option.bind_eq_bind, Option.bind_eq_some_iff] at h
      obtain ⟨o', -, c, -, h⟩ := h
      split at h <;> cases h
      rfl
    | custom =>
      simp only [options, Option.bind_eq_bind, Option.bind_eq_some_iff] at h
      obtain ⟨o', ho, h⟩ := h
      split at h <;> cases h
      exact (ih ho :)

theorem assemble_wellFormed {mnemonic : String} {ops : List Operand} {i : Instr}
    (h : assemble mnemonic ops = some i) : i.wellFormed = true := by
  unfold assemble at h
  split at h <;>
    simp only [Option.map_eq_some_iff, Option.some.injEq, Option.bind_eq_bind, Option.bind_eq_some_iff, reduceCtorEq,
      Option.pure_def] at h
  case h_2 | h_3 | h_4 | h_6 | h_8 | h_10 =>
    obtain rfl := h
    rfl
  case h_1 | h_5 | h_7 | h_9 | h_12 | h_16 =>
    obtain ⟨_, -, rfl⟩ := h
    rfl
  case h_11 | h_13 =>
    obtain ⟨_, -, _, -, rfl⟩ := h
    rfl
  case h_14 | h_15 =>
    obtain ⟨o, ho, rfl⟩ := h
    exact options_cap ho

/-- Every command of a line is well formed. -/
theorem assembleLine_wellFormed {n : Nat} {line : String} {is : List Instr} (h : assembleLine n line = some is) :
    AllWellFormed is := by
  unfold assembleLine at h
  simp only at h
  split at h
  · cases h
    exact nofun
  · obtain ⟨text, -, rfl⟩ := Option.map_eq_some_iff.1 h
    exact msg_wellFormed _
  · obtain ⟨text, -, rfl⟩ := Option.map_eq_some_iff.1 h
    exact digest_wellFormed _
  · obtain ⟨ws, -, rfl⟩ := Option.map_eq_some_iff.1 h
    exact words_wellFormed ws
  · obtain ⟨cs, -, h⟩ := Option.bind_eq_some_iff.1 h
    exact alpha16Line_wellFormed h
  · obtain ⟨cs, -, h⟩ := Option.bind_eq_some_iff.1 h
    exact alpha64Line_wellFormed h
  · split at h <;> cases h
    exact readh_wellFormed
  · split at h <;> cases h
    exact readstr_wellFormed n
  · obtain ⟨ops, -, h⟩ := Option.bind_eq_some_iff.1 h
    obtain ⟨i, hi, rfl⟩ := Option.map_eq_some_iff.1 h
    exact .singleton (assemble_wellFormed hi)

end Sys2Proof.HostSide

namespace Sys2Proof.Machine

/-- Settles O60: each form of a line writes 0 in the reserved fields, which is what the check of R66 asks. -/
theorem assembledCommandsAreWellFormed : Obligations.AssembledCommandsAreWellFormed := by
  refine ⟨fun n line is h i hi => ?_, by decide +kernel⟩
  have wf := HostSide.assembleLine_wellFormed h i hi
  exact ⟨wf, by rw [reservedBroken_eq_not_wellFormed, wf]; rfl⟩

end Sys2Proof.Machine
end

section
/-! Command lists in which every command answers `OK` (30_encoding.md R61, R70): the responses of a run, in order. -/

namespace Sys2Proof.Machine

/-- The commands run one after another from the first state to the second, none of them faults, and the words are the data
of their responses in order. -/
inductive Answers : List Instr → State → List Word → State → Prop
  | nil (s : State) : Answers [] s [] s
  | cons {i : Instr} {is : List Instr} {s t : State} {ds : List Word} (hf : firstFault i s = none)
      (h : Answers is (effect i s) ds t) : Answers (i :: is) s (okData i s :: ds) t

/-- The response `OK` with data. -/
def okResponse (d : Word) : Response := { CODE := 0, DATA := d }

namespace Answers

variable {is js : List Instr} {s t u : State} {ds es : List Word}

/-- Such a list runs to its last state (R218). -/
theorem execAll (h : Answers is s ds t) : execAll is s = .next t := by
  induction h with
  | nil s => rfl
  | cons hf _ ih => exact (execAll_cons (exec_of_no_fault hf) _).trans ih

/-- The responses are `OK` with the data given, after those already sent. -/
theorem rsps (h : Answers is s ds t) : t.rsps = s.rsps ++ ds.map okResponse := by
  induction h with
  | nil s => exact (List.append_nil _).symm
  | cons hf _ ih => rw [ih, effect_rsps, List.append_assoc]; rfl

theorem inv (h : Answers is s ds t) (hs : s.Inv) : t.Inv := by
  induction h with
  | nil s => exact hs
  | cons hf _ ih => exact ih (hs.exec (exec_of_no_fault hf))

theorem cfg (h : Answers is s ds t) : t.cfg = s.cfg := by
  induction h with
  | nil s => rfl
  | cons hf _ ih => rw [ih, effect_cfg]

theorem append (h : Answers is s ds t) (h' : Answers js t es u) : Answers (is ++ js) s (ds ++ es) u := by
  induction h with
  | nil s => exact h'
  | cons hf _ ih => exact .cons hf (ih h')

theorem single {i : Instr} {s : State} (hf : firstFault i s = none) : Answers [i] s [okData i s] (effect i s) :=
  .cons hf (.nil _)

/-- THE LOOP RULE: one command for each element of a list, none of which answers a value. `P` says what holds after the
elements before the next one. -/
theorem loop {α : Type} (f : α → Instr) (P : List α → State → Prop) (xs : List α)
    (turn : ∀ pre x post s, xs = pre ++ x :: post → P pre s →
      firstFault (f x) s = none ∧ okData (f x) s = 0 ∧ P (pre ++ [x]) (effect (f x) s))
    {s : State} (h0 : P [] s) : ∃ t, Answers (xs.map f) s (List.replicate xs.length 0) t ∧ P xs t := by
  suffices from_here : ∀ post pre s, xs = pre ++ post → P pre s →
      ∃ t, Answers (post.map f) s (List.replicate post.length 0) t ∧ P xs t from from_here xs [] s rfl h0
  intro post
  induction post with
  | nil =>
    intro pre s hxs hP
    rw [List.append_nil] at hxs
    exact ⟨s, .nil s, hxs ▸ hP⟩
  | cons x post ih =>
    intro pre s hxs hP
    obtain ⟨hf, h0, hP'⟩ := turn pre x post s hxs hP
    obtain ⟨t, ht, hPt⟩ := ih (pre ++ [x]) (effect (f x) s) (by rw [hxs, List.append_assoc]; rfl) hP'
    have here := single hf
    rw [h0] at here
    exact ⟨t, here.append ht, hPt⟩

/-- Read commands that succeed answer what they read, and leave no trace for one another (20_memory.md R49). -/
theorem reads (is : List Instr) (s : State)
    (h : ∀ i ∈ is, ((∃ a b, i = .rdcsr a b) ∨ (∃ a b, i = .hrd a b) ∨ (∃ a b, i = .ord a b)) ∧
      firstFault i s = none) :
    ∃ t, Answers is s (is.map (okData · s)) t := by
  induction is generalizing s with
  | nil => exact ⟨s, .nil s⟩
  | cons i is ih =>
    obtain ⟨⟨hread, hf⟩, rest⟩ := List.forall_mem_cons.1 h
    have only_answers := effect_of_read hread s
    obtain ⟨t, ht⟩ := ih (effect i s) fun j hj => by
      rw [only_answers, firstFault_answered]
      exact rest j hj
    have same_data : is.map (okData · (effect i s)) = is.map (okData · s) := by
      simp only [only_answers, okData_answered]
    exact ⟨t, .cons hf (same_data ▸ ht)⟩

end Answers

end Sys2Proof.Machine
end

section
/-! SHA-256 of a byte string, and the hash unit's part of it: `BUF` as the bytes not yet compressed, `ABS` and `HFIN`
(40_hash_input.md R91 to R97, 41_compressor.md R124). -/

namespace Sys2Proof.Source

open Sys2Proof.Machine

/-! Packing bytes and cutting words into blocks. -/

theorem append_byte_toNat {n : Nat} (x : BitVec n) (b : Byte) : (x ++ b).toNat = x.toNat * 2 ^ 8 + b.toNat := by
  rw [BitVec.toNat_append, ← Nat.shiftLeft_add_eq_or_of_lt b.isLt, Nat.shiftLeft_eq]

/-- R92, R96: four bytes as a sum are the four bytes side by side. -/
theorem ofNat_bytes (b0 b1 b2 b3 : Byte) :
    BitVec.ofNat 32 (b0.toNat * 2 ^ 24 + b1.toNat * 2 ^ 16 + b2.toNat * 2 ^ 8 + b3.toNat) = b0 ++ b1 ++ b2 ++ b3 := by
  apply BitVec.eq_of_toNat_eq
  have := (b0 ++ b1 ++ b2 ++ b3).isLt
  simp only [append_byte_toNat, BitVec.toNat_ofNat] at *
  omega

theorem pack_append {k : Nat} {p : List Byte} (hp : p.length = 4 * k) (q : List Byte) :
    pack (p ++ q) = pack p ++ pack q := by
  induction k generalizing p with
  | zero =>
    obtain rfl : p = [] := List.eq_nil_of_length_eq_zero hp
    rfl
  | succ k ih =>
    match p, hp with
    | b0 :: b1 :: b2 :: b3 :: p, hp =>
      have hlen : p.length = 4 * k := by simp at hp; omega
      simp only [List.cons_append, pack, ih hlen]

theorem pack_length {k : Nat} {p : List Byte} (hp : p.length = 4 * k) : (pack p).length = k := by
  induction k generalizing p with
  | zero =>
    obtain rfl : p = [] := List.eq_nil_of_length_eq_zero hp
    rfl
  | succ k ih =>
    match p, hp with
    | b0 :: b1 :: b2 :: b3 :: p, hp =>
      have hlen : p.length = 4 * k := by simp at hp; omega
      simp only [pack, List.length_cons, ih hlen]

/-- R92 over the bytes `f 0`, `f 1`, ...: word `j` has the bytes `4j` to `4j + 3`. -/
theorem pack_map_range (f : Nat → Byte) (k : Nat) : pack ((List.range (4 * k)).map f) =
    (List.range k).map fun j => f (4 * j) ++ f (4 * j + 1) ++ f (4 * j + 2) ++ f (4 * j + 3) := by
  induction k with
  | zero => rfl
  | succ k ih =>
    have last : List.range (4 * (k + 1)) = List.range (4 * k) ++ [4 * k, 4 * k + 1, 4 * k + 2, 4 * k + 3] := by
      simp only [Nat.mul_add_one, List.range_succ, List.append_assoc, List.cons_append, List.nil_append]
    rw [last, List.map_append, pack_append (k := k) (by simp), ih, List.range_succ, List.map_append]
    simp only [List.map_cons, List.map_nil, pack, ofNat_bytes]

/-- R124: the first block, then the blocks of the rest. -/
theorem blocks_append {B : List Word} (hB : B.length = 16) (ws : List Word) : blocks (B ++ ws) = B :: blocks ws := by
  have count : (B ++ ws).length / 16 = ws.length / 16 + 1 := by rw [List.length_append, hB]; omega
  rw [blocks, count, List.range_succ_eq_map, List.map_cons, List.map_map, blocks]
  congr 1
  · rw [Nat.mul_zero, List.drop_zero, List.take_left' hB]
  · refine List.map_congr_left fun k _ => ?_
    have skip : 16 * (k + 1) = B.length + 16 * k := by omega
    simp only [Function.comp_apply, Nat.succ_eq_add_one, skip, List.drop_length_add_append]

/-! Bytes hashed from a state of the compressor on. -/

/-- The blocks of a byte string compressed one after another, from `S` on. -/
def hashBytes (S : Vector Word 8) (p : List Byte) : Vector Word 8 := (blocks (pack p)).foldl compress S

/-- R124. -/
theorem sha256_eq (m : List Byte) : sha256 m = hashBytes IV (pad m) := rfl

theorem hashBytes_nil (S : Vector Word 8) : hashBytes S [] = S := rfl

theorem hashBytes_block {p : List Byte} (hp : p.length = 64) (S : Vector Word 8) (q : List Byte) :
    hashBytes S (p ++ q) = hashBytes (compress S (pack p)) q := by
  rw [hashBytes, pack_append (k := 16) hp, blocks_append (pack_length hp), List.foldl_cons, hashBytes]

/-! Padding. -/

/-- What `pad` puts behind a message of `n` bytes (R91). -/
def padding (n : Nat) : List Byte :=
  [0x80] ++ List.replicate (zeroFill n) 0 ++ lengthBytes (BitVec.ofNat 32 (8 * n))

theorem pad_eq (m : List Byte) : pad m = m ++ padding m.length := by
  simp only [pad, padding, List.append_assoc]

/-- R93: the number of zero bytes, from the position of the message's end in its block. -/
theorem zeroFill_eq (n : Nat) : zeroFill n = (119 - n % 64) % 64 := by
  have position : zeroFill n = zeroFill (n % 64) := by
    have same : (fun z => (n + 1 + z + 8) % 64 == 0) = fun z => (n % 64 + 1 + z + 8) % 64 == 0 := by
      funext z
      rw [show (n + 1 + z + 8) % 64 = (n % 64 + 1 + z + 8) % 64 by omega]
    rw [zeroFill, zeroFill, same]
  have each : ∀ k : Fin 64, zeroFill k = (119 - k.val) % 64 := by decide +kernel
  rw [position]
  exact each ⟨n % 64, Nat.mod_lt _ (by decide)⟩

end Sys2Proof.Source

namespace Sys2Proof.Machine

open Sys2Proof.Source

/-- Elements written from position `k` on grow what stands below. -/
theorem take_setIfInBounds {α : Type} {n k : Nat} (v : Vector α n) (hk : k < n) (x : α) :
    (v.setIfInBounds k x).toList.take (k + 1) = v.toList.take k ++ [x] := by
  have hlen : k < v.toList.length := by simpa using hk
  have aslist : (v.setIfInBounds k x).toList = v.toList.set k x := by simp [← Vector.toList_toArray]
  rw [aslist, List.take_add_one, List.getElem?_set_self hlen, List.take_set_of_le (Nat.le_refl _)]
  rfl

namespace HashUnit

/-- The first `n` bytes of `BUF`. -/
def bytes (n : Nat) (u : HashUnit) : List Byte := u.BUF.toList.take n

theorem bytes_length {n : Nat} (hn : n ≤ 64) (u : HashUnit) : (u.bytes n).length = n := by
  rw [bytes, List.length_take, Vector.length_toList]
  exact Nat.min_eq_left hn

theorem bytes_setBuf {n : Nat} (hn : n < 64) (b : Byte) (u : HashUnit) :
    (u.setBuf n b).bytes (n + 1) = u.bytes n ++ [b] := by
  rw [bytes, setBuf_BUF, take_setIfInBounds u.BUF hn b, bytes]

theorem bytes_zeroBuf {n k : Nat} (hk : n + k ≤ 64) (u : HashUnit) :
    (u.zeroBuf n k).bytes (n + k) = u.bytes n ++ List.replicate k 0 := by
  induction k generalizing n u with
  | zero => exact (List.append_nil _).symm
  | succ k ih =>
    have first : u.zeroBuf n (k + 1) = (u.setBuf n 0).zeroBuf (n + 1) k := by simp [zeroBuf, List.range'_succ]
    rw [first, ← Nat.add_assoc, Nat.add_right_comm, ih (by omega), bytes_setBuf (by omega), List.append_assoc]
    rfl

/-- R97: the length bytes are the last eight. -/
theorem bytes_putLength (L : BitVec 32) (u : HashUnit) : (u.putLength L).bytes 64 = u.bytes 56 ++ lengthBytes L := by
  simp (disch := decide) only [putLength, bytes_setBuf, List.append_assoc, lengthBytes, List.cons_append,
    List.nil_append]

/-- R92, R96: the words of the block in `BUF` are the bytes of `BUF` packed. -/
theorem blockWords_eq_pack (u : HashUnit) : u.blockWords = Source.pack (u.bytes 64) := by
  have listed : u.bytes 64 = (List.range (4 * 16)).map fun i => u.BUF.toList.getD i 0 := by
    apply List.ext_getElem
    · simp [bytes_length]
    · intro i hi hi'
      have : i < 64 := by simpa using hi'
      simp [bytes, this]
  rw [listed, pack_map_range, blockWords, List.ofFn_eq_map, ← List.map_coe_finRange_eq_range, List.map_map]
  refine List.map_congr_left fun j _ => ?_
  have := j.isLt
  simp [HashUnit.pack, show 4 * j.val < 64 by omega, show 4 * j.val + 1 < 64 by omega,
    show 4 * j.val + 2 < 64 by omega, show 4 * j.val + 3 < 64 by omega]

/-- R123, R124: `COMPRESS` takes the bytes of `BUF` in front of any more of them. -/
theorem compress_hashes (u : HashUnit) (rest : List Byte) :
    hashBytes u.compress.H rest = hashBytes u.H (u.bytes 64 ++ rest) := by
  rw [hashBytes_block (bytes_length (Nat.le_refl 64) u), compress_H, blockWords_eq_pack]

/-- The bytes absorbed and not yet compressed (R14). -/
def pending (u : HashUnit) : List Byte := u.bytes u.fill

/-- R95: `ABS` moves its byte from the rest of the message to the unit, compressed or pending. -/
theorem absorb_hashes (b : Byte) (u : HashUnit) (rest : List Byte) :
    hashBytes (u.absorb b).H ((u.absorb b).pending ++ rest) = hashBytes u.H (u.pending ++ b :: rest) := by
  have hlt : u.fill < 64 := Nat.mod_lt _ (by decide)
  have hnext := stored_fill b u
  have written : (stored b u).bytes (u.fill + 1) = u.pending ++ [b] := bytes_setBuf hlt b u
  have hH : (stored b u).H = u.H := setBuf_H u.fill b u
  by_cases full : (stored b u).fill = 0
  · have last : u.fill + 1 = 64 := by omega
    have empty : (stored b u).compress.pending = [] := by
      rw [pending, fill_congr (compress_LEN _), full]; rfl
    rw [absorb_of_full full, empty, List.nil_append, compress_hashes, hH, ← last, written, List.append_assoc]
    rfl
  · have more : (stored b u).fill = u.fill + 1 := by omega
    rw [absorb_of_not_full full, hH, pending, more, written, List.append_assoc]
    rfl

/-- R97: the length in bits, of the message's bytes. -/
theorem bitLength_eq (u : HashUnit) : u.bitLength = BitVec.ofNat 32 (8 * u.LEN.toNat) := by
  apply BitVec.eq_of_toNat_eq
  simp [bitLength]

/-- `PADFIN` compresses the pending bytes with the padding of R91: one block, or two where the length does not fit. -/
theorem padfin_hashes (u : HashUnit) : u.padfin.H = hashBytes u.H (u.pending ++ padding u.LEN.toNat) := by
  have hlt : u.fill < 64 := Nat.mod_lt _ (by decide)
  have zeros : zeroFill u.LEN.toNat = (119 - u.fill) % 64 := zeroFill_eq u.LEN.toNat
  have marked : (u.setBuf u.fill 0x80).bytes (u.fill + 1) = u.pending ++ [0x80] := bytes_setBuf hlt 0x80 u
  have hH : (u.setBuf u.fill 0x80).H = u.H := setBuf_H u.fill 0x80 u
  unfold HashUnit.padfin
  dsimp only
  generalize u.setBuf u.fill 0x80 = v at marked hH
  rw [← hashBytes_nil (HashUnit.H _), compress_hashes, List.append_nil, bytes_putLength, putLength_H, padding,
    ← bitLength_eq, zeros]
  split
  next two =>
    have first := bytes_zeroBuf (n := u.fill + 1) (k := 63 - u.fill) (by omega) v
    have second := bytes_zeroBuf (n := 0) (k := 56) (by decide) (v.zeroBuf (u.fill + 1) (63 - u.fill)).compress
    rw [show u.fill + 1 + (63 - u.fill) = 64 by omega, marked] at first
    rw [Nat.zero_add] at second
    rw [zeroBuf_H, compress_hashes, zeroBuf_H, hH, first, second,
      show (119 - u.fill) % 64 = (63 - u.fill) + 56 by omega, List.replicate_add]
    simp only [bytes, List.take_zero, List.nil_append, List.append_assoc]
  next one =>
    have block := bytes_zeroBuf (n := u.fill + 1) (k := 55 - u.fill) (by omega) v
    rw [show u.fill + 1 + (55 - u.fill) = 56 by omega, marked] at block
    rw [zeroBuf_H, hH, block, show (119 - u.fill) % 64 = 55 - u.fill by omega]
    simp only [List.append_assoc]

/-- The bytes `m` absorbed since `HINIT`: counted, and compressed or pending. -/
structure Absorbed (m : List Byte) (u : HashUnit) : Prop where
  phase : u.PHASE = .absorb
  len : u.LEN.toNat = m.length
  hashes : ∀ rest, hashBytes u.H (u.pending ++ rest) = hashBytes IV (m ++ rest)

/-- R94: a message that `HINIT` opens has no bytes. -/
theorem Absorbed.start (u : HashUnit) : Absorbed [] { u with H := IV, LEN := 0, PHASE := .absorb } :=
  ⟨rfl, rfl, fun _ => rfl⟩

/-- R95: one byte more. -/
theorem Absorbed.absorb {m : List Byte} {u : HashUnit} (h : Absorbed m u) (hm : m.length < 2 ^ 29 - 1) (b : Byte) :
    Absorbed (m ++ [b]) (u.absorb b) := by
  obtain ⟨phase, len, hashes⟩ := h
  refine ⟨(absorb_PHASE b u).trans phase, ?_, fun rest => ?_⟩
  · rw [absorb_LEN, toNat_LEN_succ (by omega), len, List.length_append]
    rfl
  · rw [absorb_hashes, hashes, List.append_assoc]
    rfl

/-- R97, R98: `PADFIN` leaves the digest of the message in `H`. -/
theorem Absorbed.digest {m : List Byte} {u : HashUnit} (h : Absorbed m u) : u.padfin.H = sha256 m := by
  rw [padfin_hashes, h.hashes, h.len, sha256_eq, pad_eq]

end HashUnit

end Sys2Proof.Machine
end

section
/-! The operation `digest(message)` (30_encoding.md R70). -/

namespace Sys2Proof.Machine

open Sys2Proof.Source

theorem setWidth_byte_toNat (b : Byte) : (b.setWidth 32).toNat = b.toNat := by
  have := b.isLt
  rw [BitVec.toNat_setWidth]
  exact Nat.mod_eq_of_lt (by omega)

/-- R90: the code of a byte stands for that byte. -/
theorem byteOfCode_setWidth (b : Byte) : byteOfCode (b.setWidth 32) = b := by
  rw [byteOfCode, BitVec.setWidth_setWidth_of_le b (by decide), BitVec.setWidth_eq]

/-- `MSG`: in an open message each byte is absorbed (R69, R95). -/
theorem msg_answers {m : List Byte} {s : State} (hm : m.length ≤ 2 ^ 29 - 1) (hs : s.hash.Absorbed []) :
    ∃ t, Answers (HostSide.msg (m.map (·.setWidth 32))) s (List.replicate m.length 0) t ∧ t.hash.Absorbed m := by
  rw [HostSide.msg, List.map_map]
  refine Answers.loop _ (fun pre t => t.hash.Absorbed pre) m (fun pre b post t hsplit ht => ?_) hs
  have room : pre.length < 2 ^ 29 - 1 := by
    rw [hsplit, List.length_append, List.length_cons] at hm
    omega
  have domain : (b.setWidth 32).toNat ≤ 255 := by
    have := b.isLt
    rw [setWidth_byte_toNat]
    omega
  have hf : firstFault (.abs (b.setWidth 32)) t = none :=
    (firstFault_abs_none_iff _ t).2 ⟨ht.phase, domain, by rw [ht.len]; omega⟩
  have absorbed : (effect (.abs (b.setWidth 32)) t).hash = t.hash.absorb b := by
    rw [← congrArg (t.hash.absorb ·) (byteOfCode_setWidth b)]; rfl
  exact ⟨hf, rfl, absorbed ▸ ht.absorb room b⟩

/-- `DIGEST`: every response is `OK` and 0, and the digest is in `H` (R69, R98). -/
theorem digest_answers {m : List Byte} (hm : m.length ≤ 2 ^ 29 - 1) (s : State) :
    ∃ t, Answers (HostSide.digest (m.map (·.setWidth 32))) s (List.replicate (m.length + 2) 0) t ∧
      t.hash.PHASE = .done ∧ t.hash.H = sha256 m := by
  have opened := Answers.single ((firstFault_hinit_none_iff 0 s).2 rfl)
  obtain ⟨t, sent, absorbed⟩ := msg_answers hm (s := effect (.hinit 0) s) (.start s.hash)
  have closed := Answers.single ((firstFault_hfin_none_iff 0 t).2 ⟨rfl, absorbed.phase⟩)
  refine ⟨effect (.hfin 0) t, ?_, rfl, absorbed.digest⟩
  have zeros : [okData (.hinit 0) s] ++ List.replicate m.length 0 ++ [okData (.hfin 0) t] =
      List.replicate (m.length + 2) 0 := by
    rw [List.replicate_succ, List.replicate_succ']; rfl
  exact zeros ▸ (opened.append sent).append closed

/-- `READH` reads the eight words of `H` in order (R69, R125). -/
theorem readh_answers {s : State} (hp : s.hash.PHASE = .done) : ∃ t, Answers HostSide.readh s s.hash.H.toList t := by
  have small : ∀ i < 8, (BitVec.ofNat 16 i).toNat = i := fun i hi => by
    rw [BitVec.toNat_ofNat]
    exact Nat.mod_eq_of_lt (by omega)
  have words : HostSide.readh.map (okData · s) = s.hash.H.toList := by
    apply List.ext_getElem
    · simp [HostSide.readh]
    · intro i hi hi'
      have hi : i < 8 := by simpa using hi'
      simp only [HostSide.readh, List.map_map, List.getElem_map, List.getElem_range, Function.comp_apply, okData,
        small i hi, Vector.getElem?_eq_getElem hi, Option.getD_some, Vector.getElem_toList]
  refine words ▸ Answers.reads HostSide.readh s (List.forall_mem_map.2 fun i hi => ⟨.inr (.inl ⟨_, _, rfl⟩), ?_⟩)
  have hi : i < 8 := List.mem_range.1 hi
  exact (firstFault_hrd_none_iff _ _ s).2 ⟨rfl, hp, by rw [small i hi]; omega⟩

/-- Settles O31: `DIGEST` answers zeros and leaves the digest in `H`, and `READH` reads it. -/
theorem digestOperation : Obligations.DigestOperation := by
  intro m s hm
  obtain ⟨t, hashed, hp, hH⟩ := digest_answers hm s
  obtain ⟨u, read⟩ := readh_answers hp
  have all := hashed.append read
  refine ⟨u, all.execAll, ?_⟩
  rw [all.rsps, hH, List.map_append, List.map_replicate, List.append_assoc]
  rfl

end Sys2Proof.Machine
end

section
/-! What the two encoders leave in the output string: the source's string of the words, the alphabet and the cap
(42_base16.md R135, R143, 43_base64v.md R155, R164). -/

namespace Sys2Proof.Machine

/-! The cap. -/

theorem lt_cappedLength_iff {cap : Option Nat} {p j : Nat} : j < cappedLength cap p ↔ j < p ∧ keeps cap j = true := by
  refine ⟨keeps_of_lt_cappedLength, fun ⟨hp, hk⟩ => ?_⟩
  cases cap with
  | none => exact hp
  | some c =>
    have hc : j < c := of_decide_eq_true hk
    show j < if c < p then c else p
    split <;> assumption

theorem capped_length (cap : Option Nat) (cs : List Symbol) :
    (Source.capped cap cs).length = cappedLength cap cs.length := by
  cases cap with
  | none => rfl
  | some c =>
    rw [Source.capped, List.length_take]
    show min c cs.length = if c < cs.length then c else cs.length
    split <;> omega

theorem capped_getElem? {cap : Option Nat} {cs : List Symbol} {j : Nat} (hj : j < (Source.capped cap cs).length) :
    (Source.capped cap cs)[j]? = cs[j]? := by
  cases cap with
  | none => rfl
  | some c =>
    rw [Source.capped, List.length_take] at hj
    rw [Source.capped, List.getElem?_take_of_lt (by omega)]

/-- A register that holds the characters where the cap keeps them, and what it held before elsewhere, is the capped string
with the rest of what it held (R137). -/
theorem eq_capped_append {cap : Option Nat} {cs before after : List Symbol}
    (h : ∀ j, after[j]? = if j < cs.length ∧ keeps cap j = true then cs[j]? else before[j]?) :
    after = Source.capped cap cs ++ before.drop (Source.capped cap cs).length := by
  ext1 j
  rw [h j, List.getElem?_append]
  simp only [← lt_cappedLength_iff, ← capped_length]
  split
  next hlt => exact (capped_getElem? hlt).symm
  next hge => rw [List.getElem?_drop, Nat.add_sub_of_le (Nat.le_of_not_lt hge)]

/-! The output string. -/

/-- The string written over the front of `OSTR`, its length in `OLEN`. -/
def EncUnit.withString (str : List Symbol) (u : EncUnit) : EncUnit :=
  { u with OSTR := str ++ u.OSTR.drop str.length, OLEN := BitVec.ofNat 17 str.length }

theorem withString_OLEN {str : List Symbol} (h : str.length < 2 ^ 17) (u : EncUnit) :
    (u.withString str).OLEN.toNat = str.length :=
  (BitVec.toNat_ofNat _ _).trans (Nat.mod_eq_of_lt h)

theorem withString_string {str : List Symbol} (h : str.length < 2 ^ 17) (u : EncUnit) :
    (u.withString str).string = str := by
  rw [EncUnit.string, withString_OLEN h]
  exact List.take_left

/-! `ENC16`. -/

/-- The symbols of the Base16 alphabet in force. -/
def EncUnit.symbols16 (sel : Bool) (u : EncUnit) : List Symbol :=
  (u.alphabet16 sel).1.toList.take (u.alphabet16 sel).2

/-- The alphabet in force has 1 to 16 symbols (R24, R136). -/
theorem EncUnit.Fits.alphabet16_bounds {cfg : Config} {u : EncUnit} (h : u.Fits cfg) (sel : Bool) :
    1 ≤ (u.alphabet16 sel).2 ∧ (u.alphabet16 sel).2 ≤ 16 := by
  cases sel with
  | false => exact ⟨(by decide : 1 ≤ 16), Nat.le_refl 16⟩
  | true => exact ⟨h.a16len_lo, h.a16len_hi⟩

/-- R136: the symbol of a nibble, from the list of the symbols in force. -/
theorem sym16_eq_getD (al : Vector Symbol 16) {t : Nat} (hlo : 1 ≤ t) (hhi : t ≤ 16) (v : BitVec 4) :
    sym16 al t v = (al.toList.take t).getD (v.toNat % (al.toList.take t).length) 0 := by
  have count : (al.toList.take t).length = t := by
    rw [List.length_take, Vector.length_toList]
    exact Nat.min_eq_left hhi
  have below : v.toNat % t < t := Nat.mod_lt _ hlo
  rw [List.getD_eq_getElem _ _ (by rw [count]; exact below), List.getElem_take, Vector.getElem_toList]
  simp only [count, sym16]

theorem EncUnit.Fits.enc16_source {cfg : Config} {u : EncUnit} (h : u.Fits cfg) (cap : Option Nat) (sel : Bool) :
    Source.enc16 u.words (u.symbols16 sel) cap = Source.capped cap (u.chars16 sel) := by
  obtain ⟨hlo, hhi⟩ := h.alphabet16_bounds sel
  have symbol : (fun v : BitVec 4 => (u.symbols16 sel).getD (v.toNat % (u.symbols16 sel).length) 0) =
      sym16 (u.alphabet16 sel).1 (u.alphabet16 sel).2 := funext fun v => (sym16_eq_getD _ hlo hhi v).symm
  rw [Source.enc16, symbol, EncUnit.chars16]

/-- R143: `ENC16` writes the source's string. -/
theorem EncUnit.Fits.enc16_eq {cfg : Config} {u : EncUnit} (h : u.Fits cfg) (cap : Option Nat) (sel : Bool) :
    u.enc16 cap sel = u.withString (Source.enc16 u.words (u.symbols16 sel) cap) := by
  have room : 0 + (u.chars16 sel).length ≤ u.OSTR.length := by
    rw [Nat.zero_add, chars16_length, h.ostr_size]
    exact h.words_le
  have register : (u.enc16 cap sel).OSTR =
      Source.capped cap (u.chars16 sel) ++ u.OSTR.drop (Source.capped cap (u.chars16 sel)).length := by
    refine eq_capped_append fun j => ?_
    simp only [EncUnit.enc16, putWords_eq]
    refine ((putAll cap (u.chars16 sel) { OSTR := u.OSTR, p := 0 } room).2.2 j).trans ?_
    simp only [Nat.zero_le, true_and, Nat.zero_add, Nat.sub_zero]
  rw [enc16_frame, register, enc16_OLEN, h.enc16_source, EncUnit.withString, capped_length, chars16_length]

theorem EncUnit.Fits.enc16_source_length_le {cfg : Config} {u : EncUnit} (h : u.Fits cfg) (cap : Option Nat)
    (sel : Bool) : (Source.enc16 u.words (u.symbols16 sel) cap).length ≤ cfg.OSMAX := by
  rw [h.enc16_source, capped_length, chars16_length]
  exact (cappedLength_le _ _).trans h.words_le

end Sys2Proof.Machine

namespace Sys2Proof.Source

open Sys2Proof.Machine

/-! `enc64` as a loop over the numbers of the chunks, like that of `ENC64`. -/

namespace Accu

/-- A chunk entered above the bits that wait (R155 step 3). -/
def enter (r : BitVec 16) (a : Accu) : Accu :=
  { a with acc := a.acc ||| (r.toNat <<< a.bc.toNat), bc := a.bc + 16 }

/-- One symbol more, in front (R155 step 3). -/
def emit (al : Vector Symbol 64) (a : Accu) : Accu :=
  { acc := a.acc >>> 6, bc := a.bc - 6, out := al[a.acc % 64]'(Nat.mod_lt _ (by decide)) :: a.out }

theorem chunk_eq (al : Vector Symbol 64) (thr : Int) (r : BitVec 16) (a : Accu) :
    a.chunk al thr r = (a.enter r).drain al thr (a.enter r).bc.toNat := rfl

theorem drain_of_le {al : Vector Symbol 64} {thr : Int} {a : Accu} (h : thr ≤ a.bc) (fuel : Nat) :
    a.drain al thr (fuel + 1) = (a.emit al).drain al thr fuel := if_pos h

theorem drain_of_lt {al : Vector Symbol 64} {thr : Int} {a : Accu} (h : ¬ thr ≤ a.bc) (fuel : Nat) :
    a.drain al thr fuel = a := by
  cases fuel with
  | zero => rfl
  | succ fuel => exact if_neg h

/-- The chunk number `i` of the words, the last one drained to the end. -/
def step (al : Vector Symbol 64) (ws : List Word) (a : Accu) (i : Nat) : Accu :=
  a.chunk al (if i = 2 * ws.length - 1 then 1 else 6) (chunk64 ws i)

end Accu

/-- The reversed chunks of R155 in the order of R164. -/
theorem chunks_reverse (ws : List Word) : (chunks ws).reverse = (List.range (2 * ws.length)).map (chunk64 ws) := by
  induction ws with
  | nil => rfl
  | cons w ws ih =>
    have chunks_cons : chunks (w :: ws) = [w.extractLsb' 16 16, w.extractLsb' 0 16] ++ chunks ws := rfl
    have earlier : ∀ i ∈ List.range (2 * ws.length), chunk64 ws i = chunk64 (w :: ws) i := by
      intro i hi
      have hi : i < 2 * ws.length := List.mem_range.1 hi
      have word : (w :: ws).length - 1 - i / 2 = ws.length - 1 - i / 2 + 1 := by rw [List.length_cons]; omega
      simp only [chunk64, word, List.getD_cons_succ]
    have low : chunk64 (w :: ws) (2 * ws.length) = w.extractLsb' 0 16 := by simp [chunk64]
    have high : chunk64 (w :: ws) (2 * ws.length + 1) = w.extractLsb' 16 16 := by
      simp [chunk64, show (2 * ws.length + 1) / 2 = ws.length by omega, show (2 * ws.length + 1) % 2 = 1 by omega]
    rw [chunks_cons, List.reverse_append, ih, List.map_congr_left earlier, List.length_cons, Nat.mul_add_one,
      List.range_succ, List.range_succ, List.append_assoc, List.map_append, List.map_append, List.map_singleton,
      List.map_singleton, low, high]
    rfl

/-- R155 step 3 from chunk `i` on, `k` of them to go. -/
theorem accumulate_eq_foldl (al : Vector Symbol 64) (ws : List Word) {i k : Nat} (hik : i + k = 2 * ws.length)
    (a : Accu) :
    accumulate al ((List.range' i k).map (chunk64 ws)) a = (List.range' i k).foldl (Accu.step al ws) a := by
  induction k generalizing i a with
  | zero => rfl
  | succ k ih =>
    have last : (List.range' (i + 1) k).map (chunk64 ws) = [] ↔ i = 2 * ws.length - 1 := by
      rw [List.map_eq_nil_iff, List.range'_eq_nil_iff]
      omega
    rw [List.range'_succ, List.map_cons, accumulate, List.foldl_cons, ih (by omega), Accu.step]
    simp only [last]

/-- The variables of R155 at the start. -/
def Accu.start : Accu := { acc := 0, bc := 0, out := [] }

/-- The symbols of R155 before the cap. -/
def symbols64 (ws : List Word) (al : Vector Symbol 64) : List Symbol :=
  ((List.range (2 * ws.length)).foldl (Accu.step al ws) .start).out

theorem enc64_eq_capped (ws : List Word) (al : Vector Symbol 64) (cap : Option Nat) :
    enc64 ws al cap = capped cap (symbols64 ws al) := by
  rw [symbols64, enc64, chunks_reverse, List.range_eq_range', accumulate_eq_foldl al ws (Nat.zero_add _)]
  rfl

end Sys2Proof.Source

namespace Sys2Proof.Machine

open Sys2Proof.Source (Accu symbols64)

namespace Enc64Loop

/-- The loop of `ENC64` and the variables of R155 at the same place: the accumulator and the bit count are the same, and
`OSTR` holds the symbols built so far up to position `n`, where the cap keeps them, and `before` elsewhere. -/
structure Tracks (cap : Option Nat) (n : Nat) (before : List Symbol) (l : Enc64Loop) (a : Accu) : Prop where
  acc : l.ACC.toNat = a.acc
  bc : l.BC.toInt = a.bc
  count : l.q + a.out.length = n
  room : n ≤ l.OSTR.length
  ostr : ∀ j, l.OSTR[j]? = if (l.q ≤ j ∧ j < n) ∧ keeps cap j = true then a.out[j - l.q]? else before[j]?

namespace Tracks

variable {cap : Option Nat} {n : Nat} {before : List Symbol} {l : Enc64Loop} {a : Accu}

theorem start (cap : Option Nat) {n : Nat} {before : List Symbol} (room : n ≤ before.length) :
    Tracks cap n before (Enc64Loop.start before n) .start :=
  ⟨rfl, rfl, Nat.add_zero n, room, fun _ => (if_neg fun h => absurd h.1.2 (Nat.not_lt_of_le h.1.1)).symm⟩

/-- The shifted chunk loses no bit in the 21 of `ACC` (R165). -/
theorem shifted_chunk (r : BitVec 16) {k : Nat} (hk : k ≤ 5) :
    (r.setWidth 21 <<< k).toNat = r.toNat <<< k := by
  have wide : (r.setWidth 21).toNat = r.toNat := by
    have := r.isLt
    rw [BitVec.toNat_setWidth]
    exact Nat.mod_eq_of_lt (by omega)
  have fits : r.toNat <<< k < 2 ^ 21 := by
    rw [Nat.shiftLeft_eq]
    calc r.toNat * 2 ^ k
        _ ≤ r.toNat * 2 ^ 5 := Nat.mul_le_mul_left _ (Nat.pow_le_pow_right (by decide) hk)
        _ < 2 ^ 21 := by have := r.isLt; omega
  rw [BitVec.toNat_shiftLeft, wide, Nat.mod_eq_of_lt fits]

theorem enter (h : Tracks cap n before l a) (hlo : 0 ≤ l.BC.toInt) (hhi : l.BC.toInt ≤ 5) (r : BitVec 16) :
    Tracks cap n before (l.enter r) (a.enter r) := by
  have shift : l.BC.toNat = a.bc.toNat := by
    have := h.bc
    have := BitVec.toInt_eq_toNat_cond l.BC
    split at this <;> omega
  have small : l.BC.toNat ≤ 5 := by have := h.bc; omega
  refine ⟨?_, (enter_BC r hlo hhi).trans (congrArg (· + 16) h.bc), h.count, h.room, h.ostr⟩
  show (l.ACC ||| r.setWidth 21 <<< l.BC.toNat).toNat = a.acc ||| r.toNat <<< a.bc.toNat
  rw [BitVec.toNat_or, h.acc, shifted_chunk r small, shift]

theorem emit (h : Tracks cap n before l a) (al : Vector Symbol 64) (hbc : 1 ≤ l.BC.toInt) (hq : 1 ≤ l.q) :
    Tracks cap n before (l.emit cap al) (a.emit al) := by
  obtain ⟨acc, bc, count, room, ostr⟩ := h
  have symbol : al[(l.ACC.extractLsb' 0 6).toNat]'(BitVec.isLt _) = al[a.acc % 64]'(Nat.mod_lt _ (by decide)) := by
    simp only [BitVec.extractLsb'_toNat, Nat.shiftRight_zero, acc, Nat.reducePow]
  have hout : (a.emit al).out.length = a.out.length + 1 := rfl
  have hpos : (l.emit cap al).q = l.q - 1 := rfl
  refine ⟨?_, (emit_BC cap al hbc).trans (congrArg (· - 6) bc), by omega, by rw [emit_length]; exact room, fun j => ?_⟩
  · simp only [Enc64Loop.emit, Accu.emit, BitVec.toNat_ushiftRight, acc]
  rw [hpos]
  simp only [Enc64Loop.emit, Accu.emit, symbol]
  by_cases here : j = l.q - 1
  · subst here
    by_cases hk : keeps cap (l.q - 1) = true
    · rw [if_pos hk, List.getElem?_set_self (by omega), if_pos ⟨⟨Nat.le_refl _, by omega⟩, hk⟩, Nat.sub_self]
      rfl
    · rw [if_neg hk, ostr, if_neg (by simp [hk]), if_neg (by simp [hk])]
  · have other : (if keeps cap (l.q - 1) then l.OSTR.set (l.q - 1) (al[a.acc % 64]'(Nat.mod_lt _ (by decide)))
        else l.OSTR)[j]? = l.OSTR[j]? := by
      split
      · exact List.getElem?_set_ne (Ne.symm here)
      · rfl
    rw [other, ostr]
    simp only [show (l.q - 1 ≤ j ∧ j < n) ↔ (l.q ≤ j ∧ j < n) by omega]
    split
    next inside => rw [show j - (l.q - 1) = j - l.q + 1 by omega, List.getElem?_cons_succ]
    next => rfl

/-- Both `while` loops end together, each with fuel for as many rounds as it takes. -/
theorem drain (h : Tracks cap n before l a) (al : Vector Symbol 64) {thr : Int} (hthr : 1 ≤ thr) {fuel fuel' : Nat}
    (enough : l.BC.toInt < 6 * fuel + thr) (enough' : l.BC.toInt ≤ fuel') (hq : l.BC.toInt ≤ 6 * l.q) :
    Tracks cap n before (l.drain cap al thr fuel) (a.drain al thr fuel') := by
  have hbc := h.bc
  induction fuel generalizing fuel' l a with
  | zero =>
    rw [Accu.drain_of_lt (by omega)]
    exact h
  | succ fuel ih =>
    by_cases more : thr ≤ l.BC.toInt
    · obtain ⟨fuel', rfl⟩ : ∃ k, fuel' = k + 1 := ⟨fuel' - 1, by omega⟩
      have next := h.emit al (by omega) (by omega)
      have fewer := emit_BC cap al (l := l) (by omega)
      have hpos : (l.emit cap al).q = l.q - 1 := rfl
      rw [drain_of_le more, Accu.drain_of_le (hbc ▸ more)]
      exact ih next (by push_cast at enough; omega) (by omega) (by omega) next.bc
    · rw [drain_of_lt more, Accu.drain_of_lt (hbc ▸ more)]
      exact h

/-- The two loops chunk by chunk (R155 step 3, R164). -/
theorem foldl_step (cap : Option Nat) (al : Vector Symbol 64) (ws : List Word) {before : List Symbol}
    (room : naturalLength64 ws.length ≤ before.length) {i : Nat} (hi : i ≤ 2 * ws.length) :
    Tracks cap (naturalLength64 ws.length) before
      ((List.range i).foldl (Enc64Loop.step cap al ws) (Enc64Loop.start before (naturalLength64 ws.length)))
      ((List.range i).foldl (Accu.step al ws) .start) := by
  induction i with
  | zero => exact .start cap room
  | succ i ih =>
    have sofar := ih (by omega)
    obtain ⟨bounds, -, position⟩ := control cap al ws before (Nat.le_of_succ_le hi)
    obtain ⟨hlo, hhi⟩ := bounds (by omega)
    simp only [List.range_succ, List.foldl_append, List.foldl_cons, List.foldl_nil]
    generalize (List.range i).foldl (Enc64Loop.step cap al ws) (Enc64Loop.start before (naturalLength64 ws.length)) = l
      at *
    have entered := sofar.enter hlo hhi (chunk64 ws i)
    have hbc := enter_BC (chunk64 ws i) hlo hhi
    have hpos : (l.enter (chunk64 ws i)).q = l.q := rfl
    have hn : 32 * ws.length ≤ 6 * naturalLength64 ws.length := by unfold naturalLength64; omega
    have hthr : (1 : Int) ≤ if i = 2 * ws.length - 1 then 1 else 6 := by split <;> decide
    rw [Enc64Loop.step, Accu.step, Accu.chunk_eq]
    exact entered.drain al hthr (by omega) (by have := entered.bc; omega) (by omega)

end Tracks

end Enc64Loop

/-- R160: the symbols before the cap are as many as the natural length. -/
theorem symbols64_length (ws : List Word) (al : Vector Symbol 64) :
    (symbols64 ws al).length = naturalLength64 ws.length := by
  have room : naturalLength64 ws.length ≤ (List.replicate (naturalLength64 ws.length) (0 : Symbol)).length := by
    rw [List.length_replicate]
  have count := (Enc64Loop.Tracks.foldl_step none al ws room (Nat.le_refl _)).count
  rw [Enc64Loop.q_at_end, Nat.zero_add] at count
  exact count

/-- R164: `OSTR` holds the symbols where the cap keeps them. -/
theorem enc64_OSTR (cap : Option Nat) (sel : Bool) {u : EncUnit} (room : naturalLength64 u.words.length ≤ u.OSTR.length)
    (j : Nat) : (u.enc64 cap sel).OSTR[j]? =
      if j < naturalLength64 u.words.length ∧ keeps cap j = true
      then (symbols64 u.words (u.alphabet64 sel))[j]? else u.OSTR[j]? := by
  have symbol := (Enc64Loop.Tracks.foldl_step cap (u.alphabet64 sel) u.words room (Nat.le_refl _)).ostr j
  rw [Enc64Loop.q_at_end] at symbol
  simp only [Nat.zero_le, true_and, Nat.sub_zero] at symbol
  exact symbol

/-- R160: the length of the source's string under the cap. -/
theorem enc64_source_length (ws : List Word) (al : Vector Symbol 64) (cap : Option Nat) :
    (Source.enc64 ws al cap).length = cappedLength cap (naturalLength64 ws.length) := by
  rw [Source.enc64_eq_capped, capped_length, symbols64_length]

theorem EncUnit.Fits.room64 {cfg : Config} {u : EncUnit} (h : u.Fits cfg) :
    naturalLength64 u.words.length ≤ u.OSTR.length := by
  rw [h.ostr_size]
  exact (naturalLength64_le _).trans h.words_le

theorem EncUnit.Fits.enc64_source_length_le {cfg : Config} {u : EncUnit} (h : u.Fits cfg) (cap : Option Nat)
    (sel : Bool) : (Source.enc64 u.words (u.alphabet64 sel) cap).length ≤ cfg.OSMAX := by
  rw [enc64_source_length]
  exact (cappedLength_le _ _).trans ((naturalLength64_le _).trans h.words_le)

/-- R164: `ENC64` writes the source's string; `ACC` and `BC` are 0 before and after. -/
theorem EncUnit.Fits.enc64_eq {cfg : Config} {u : EncUnit} (h : u.Fits cfg) (cap : Option Nat) (sel : Bool) :
    u.enc64 cap sel = u.withString (Source.enc64 u.words (u.alphabet64 sel) cap) := by
  have register : (u.enc64 cap sel).OSTR = Source.enc64 u.words (u.alphabet64 sel) cap ++
      u.OSTR.drop (Source.enc64 u.words (u.alphabet64 sel) cap).length := by
    rw [Source.enc64_eq_capped]
    refine eq_capped_append fun j => ?_
    rw [symbols64_length]
    exact enc64_OSTR cap sel h.room64 j
  rw [enc64_frame, register, enc64_OLEN, ← enc64_source_length u.words (u.alphabet64 sel) cap, EncUnit.withString,
    ← h.acc_zero, ← h.bc_zero]

end Sys2Proof.Machine
end

section
/-! The operations `encodeBase16` and `encodeBase64Variant`, with the read-out of their string (30_encoding.md R70). -/

namespace Sys2Proof.Machine

open HostSide (Input capField readstr alpha16 alpha64)

/-! The checks of the commands that they send. -/

theorem firstFault_a16set_none_iff (hi idx lo ch : BitVec 8) (s : State) :
    firstFault (.a16set hi idx lo ch) s = none ↔ hi = 0 ∧ lo = 0 ∧ idx.toNat < 16 := by
  simp [firstFault_none_iff, Instr.wellFormed, phaseBroken, phaseNeeded, rangeBroken, resourceBroken, and_assoc,
    Nat.lt_succ_iff]

theorem firstFault_a64set_none_iff (hi idx lo ch : BitVec 8) (s : State) :
    firstFault (.a64set hi idx lo ch) s = none ↔ hi = 0 ∧ lo = 0 ∧ idx.toNat < 64 := by
  simp [firstFault_none_iff, Instr.wellFormed, phaseBroken, phaseNeeded, rangeBroken, resourceBroken, and_assoc,
    Nat.lt_succ_iff]

theorem firstFault_ewclr_none_iff (rsvd : BitVec 32) (s : State) : firstFault (.ewclr rsvd) s = none ↔ rsvd = 0 := by
  simp [firstFault_none_iff, Instr.wellFormed, phaseBroken, phaseNeeded, rangeBroken, resourceBroken]

theorem firstFault_rdcsr_none_iff (rsvd idx : BitVec 16) (s : State) :
    firstFault (.rdcsr rsvd idx) s = none ↔ rsvd = 0 ∧ idx.toNat ≤ 8 := by
  simp [firstFault_none_iff, Instr.wellFormed, phaseBroken, phaseNeeded, rangeBroken, resourceBroken]

theorem firstFault_enc16_none_iff (ce sel : Bool) (cap : BitVec 30) (s : State) :
    firstFault (.enc16 ce sel cap) s = none ↔ ce = true ∨ cap = 0 := by
  simp [firstFault_none_iff, Instr.wellFormed, phaseBroken, phaseNeeded, rangeBroken, resourceBroken]

theorem firstFault_enc64_none_iff (ce sel : Bool) (cap : BitVec 30) (s : State) :
    firstFault (.enc64 ce sel cap) s = none ↔ ce = true ∨ cap = 0 := by
  simp [firstFault_none_iff, Instr.wellFormed, phaseBroken, phaseNeeded, rangeBroken, resourceBroken]

/-- An optional length as `CE` and `CAP` breaks no rule of R66. -/
theorem capField_wellFormed (cap : Option (BitVec 30)) : (capField cap).1 = true ∨ (capField cap).2 = 0 := by
  cases cap with
  | none => exact .inr rfl
  | some c => exact .inl rfl

/-- The encoders use the optional length as it was given. -/
theorem capOf_capField (cap : Option (BitVec 30)) : capOf (capField cap).1 (capField cap).2 = cap.map (·.toNat) := by
  cases cap <;> rfl

/-! The words. -/

/-- `WORDS` makes its words the word sequence, where the buffer holds as many (R69, R139). -/
theorem words_answers {ws : List Word} {s : State} (hs : s.Inv) (hroom : ws.length ≤ s.cfg.EWMAX) :
    ∃ t, Answers (HostSide.words ws) s (List.replicate (ws.length + 1) 0) t ∧ t.enc.words = ws := by
  have cleared := Answers.single ((firstFault_ewclr_none_iff 0 s).2 rfl)
  have turn : ∀ pre w post (t : State), ws = pre ++ w :: post →
      (t.Inv ∧ t.cfg = s.cfg ∧ t.enc.words = pre) →
      firstFault (.ewpush w) t = none ∧ okData (.ewpush w) t = 0 ∧ (effect (.ewpush w) t).Inv ∧
        (effect (.ewpush w) t).cfg = s.cfg ∧ (effect (.ewpush w) t).enc.words = pre ++ [w] := by
    intro pre w post t hsplit ⟨ht, hcfg, hpre⟩
    have count : t.enc.EN.toNat = pre.length := by rw [← hpre, ht.fits.words_length]
    have more : pre.length < t.cfg.EWMAX := by
      rw [hsplit, List.length_append, List.length_cons] at hroom
      rw [hcfg]
      omega
    have hf : firstFault (.ewpush w) t = none := (firstFault_ewpush_none_iff w t).2 (by omega)
    have size := ht.fits.ew_size
    have pushed := words_push (u := t.enc) (by omega) (by have := ht.ewmax_hi; omega) w
    exact ⟨hf, rfl, ht.exec (exec_of_no_fault hf), hcfg, pushed.trans (by rw [hpre])⟩
  obtain ⟨t, sent, -, -, hwords⟩ := Answers.loop .ewpush (fun pre t => t.Inv ∧ t.cfg = s.cfg ∧ t.enc.words = pre) ws turn
    ⟨cleared.inv hs, rfl, rfl⟩
  exact ⟨t, cleared.append sent, hwords⟩

/-- Either input brings its words to the encoder, by commands that answer 0 (R70). -/
theorem load_answers {input : Input} {ws : List Word} {s : State} (hs : s.Inv) (hin : s.Supplies input ws) :
    ∃ t, Answers input.load s (List.replicate input.load.length 0) t ∧ t.enc.words = ws := by
  cases input with
  | words given =>
    obtain ⟨rfl, hroom⟩ := hin
    have count : (HostSide.words given).length = given.length + 1 := by
      simp only [HostSide.words, List.length_append, List.length_map, List.length_singleton, Nat.add_comm]
    rw [Input.load, count]
    exact words_answers hs hroom
  | digest =>
    obtain ⟨hp, rfl⟩ := hin
    have room : 8 ≤ s.enc.EW.length := by
      rw [hs.ew_size]
      exact hs.ewmax_lo
    refine ⟨_, .single ((firstFault_ewdig_none_iff 0 s).2 ⟨rfl, hp⟩), ?_⟩
    rw [effect_ewdig]
    exact words_loadDigest room s.hash.H

/-! The alphabets. -/

/-- The element behind the first `k` of a numbered list has the number `k`. -/
theorem zipIdx_eq_append_cons {α : Type} {xs : List α} {pre post : List (α × Nat)} {x : α × Nat}
    (h : xs.zipIdx = pre ++ x :: post) : x.2 = pre.length ∧ pre.length < xs.length := by
  have here : xs.zipIdx[pre.length]? = some x := by rw [h]; simp
  rw [List.getElem?_zipIdx, Option.map_eq_some_iff] at here
  obtain ⟨y, hy, rfl⟩ := here
  exact ⟨Nat.zero_add _, (List.getElem?_eq_some_iff.1 hy).1⟩

theorem toNat_ofNat_of_lt {w n : Nat} (h : n < 2 ^ w) : (BitVec.ofNat w n).toNat = n :=
  (BitVec.toNat_ofNat n w).trans (Nat.mod_eq_of_lt h)

/-- One symbol after the other into the alphabet that `get` reads: then they are its first symbols. `Q` is what the
commands keep. -/
theorem symbols_answers {n : Nat} (put : BitVec 8 → Symbol → Instr) (get : State → Vector Symbol n) (Q : State → Prop)
    (turn : ∀ (i : Nat) (c : Symbol) (s : State), i < n → Q s →
      firstFault (put (BitVec.ofNat 8 i) c) s = none ∧ okData (put (BitVec.ofNat 8 i) c) s = 0 ∧
        Q (effect (put (BitVec.ofNat 8 i) c) s) ∧
        get (effect (put (BitVec.ofNat 8 i) c) s) = (get s).setIfInBounds i c)
    {al : List Symbol} (hal : al.length ≤ n) {s : State} (hs : Q s) :
    ∃ t, Answers (al.zipIdx.map fun si => put (BitVec.ofNat 8 si.2) si.1) s (List.replicate al.length 0) t ∧ Q t ∧
      (get t).toList.take al.length = al := by
  obtain ⟨t, sent, hQ, hget⟩ := Answers.loop (fun si : Symbol × Nat => put (BitVec.ofNat 8 si.2) si.1)
    (fun pre t => Q t ∧ (get t).toList.take pre.length = pre.map Prod.fst) al.zipIdx
    (fun pre x post t hsplit ⟨hQ, hpre⟩ => by
      obtain ⟨hpos, hlt⟩ := zipIdx_eq_append_cons hsplit
      obtain ⟨hf, h0, hQ', hget⟩ := turn x.2 x.1 t (by omega) hQ
      refine ⟨hf, h0, hQ', ?_⟩
      rw [hget, hpos, List.length_append, List.length_singleton, take_setIfInBounds _ (by omega), hpre, List.map_append,
        List.map_singleton])
    ⟨hs, List.take_zero⟩
  rw [List.length_zipIdx] at sent hget
  rw [List.zipIdx_map_fst] at hget
  exact ⟨t, sent, hQ, hget⟩

/-- `ALPHA16` puts its symbols in force for `AS = 1` and leaves the words alone (R69, R141, R142). -/
theorem alpha16_answers {al : List Symbol} (hlo : 1 ≤ al.length) (hhi : al.length ≤ 16) (s : State) :
    ∃ t, Answers (alpha16 al) s (List.replicate (alpha16 al).length 0) t ∧ t.enc.words = s.enc.words ∧
      t.enc.symbols16 true = al := by
  obtain ⟨t, sent, hwords, hal⟩ := symbols_answers (.a16set 0 · 0 ·) (·.enc.A16) (·.enc.words = s.enc.words)
    (fun i c t hi hQ => by
      have index : (BitVec.ofNat 8 i).toNat = i := toNat_ofNat_of_lt (by omega)
      refine ⟨(firstFault_a16set_none_iff ..).2 ⟨rfl, rfl, index.symm ▸ hi⟩, rfl, hQ, ?_⟩
      exact congrArg (t.enc.A16.setIfInBounds · c) index) hhi rfl
  have index : (BitVec.ofNat 16 al.length).toNat = al.length := toNat_ofNat_of_lt (by omega)
  have hf : firstFault (.a16len 0 (BitVec.ofNat 16 al.length)) t = none :=
    (firstFault_a16len_none_iff ..).2 ⟨rfl, index.symm ▸ hlo, index.symm ▸ hhi⟩
  have length : ((BitVec.ofNat 16 al.length).setWidth 5).toNat = al.length := by
    rw [BitVec.toNat_setWidth, index]
    exact Nat.mod_eq_of_lt (by omega)
  have count : (alpha16 al).length = al.length + 1 := by simp [alpha16]
  refine ⟨effect (.a16len 0 (BitVec.ofNat 16 al.length)) t, ?_, hwords, ?_⟩
  · rw [count, List.replicate_succ']
    exact sent.append (.single hf)
  · show t.enc.A16.toList.take ((BitVec.ofNat 16 al.length).setWidth 5).toNat = al
    rw [length, hal]

/-- The commands of an optional Base16 alphabet put it in force, or leave the default in force for `AS = 0`. -/
theorem optional_alpha16_answers {al : Option (List Symbol)} (hal : ∀ a, al = some a → 1 ≤ a.length ∧ a.length ≤ 16)
    (s : State) :
    ∃ t, Answers (al.elim [] alpha16) s (List.replicate (al.elim [] alpha16).length 0) t ∧ t.enc.words = s.enc.words ∧
      t.enc.symbols16 al.isSome = al.getD D16.toList := by
  cases al with
  | none => exact ⟨s, .nil s, rfl, List.take_of_length_le (Nat.le_refl 16)⟩
  | some a =>
    obtain ⟨hlo, hhi⟩ := hal a rfl
    exact alpha16_answers hlo hhi s

/-- `ALPHA64` puts its symbols in force for `AS = 1` and leaves the words alone (R69, R163). -/
theorem alpha64_answers (al : Vector Symbol 64) (s : State) :
    ∃ t, Answers (alpha64 al) s (List.replicate (alpha64 al).length 0) t ∧ t.enc.words = s.enc.words ∧
      t.enc.alphabet64 true = al := by
  obtain ⟨t, sent, hwords, hal⟩ := symbols_answers (.a64set 0 · 0 ·) (·.enc.A64) (·.enc.words = s.enc.words)
    (fun i c t hi hQ => by
      have index : (BitVec.ofNat 8 i).toNat = i := toNat_ofNat_of_lt (by omega)
      refine ⟨(firstFault_a64set_none_iff ..).2 ⟨rfl, rfl, index.symm ▸ hi⟩, rfl, hQ, ?_⟩
      exact congrArg (t.enc.A64.setIfInBounds · c) index) (Nat.le_of_eq al.length_toList) rfl
  have count : (alpha64 al).length = al.toList.length := by simp [alpha64]
  rw [List.take_of_length_le (by simp)] at hal
  exact ⟨t, count ▸ sent, hwords, Vector.toList_inj.1 hal⟩

theorem optional_alpha64_answers (al : Option (Vector Symbol 64)) (s : State) :
    ∃ t, Answers (al.elim [] alpha64) s (List.replicate (al.elim [] alpha64).length 0) t ∧ t.enc.words = s.enc.words ∧
      t.enc.alphabet64 al.isSome = al.getD D64 := by
  cases al with
  | none => exact ⟨s, .nil s, rfl, rfl⟩
  | some a => exact alpha64_answers a s

/-! The read-out. -/

/-- A character of the string, as `ORD` reads it (R144). -/
theorem getOSTR_eq_getElem {u : EncUnit} {j : Nat} (hj : j < u.string.length) : u.getOSTR j = u.string[j] := by
  have held : j < u.OSTR.length := by
    rw [EncUnit.string, List.length_take] at hj
    omega
  simp only [EncUnit.getOSTR, EncUnit.string, List.getElem_take, List.getD_eq_getElem _ _ held]

/-- `READSTR` answers the length and then the characters (R69, R144). -/
theorem readstr_answers {s : State} (hlen : s.enc.string.length = s.enc.OLEN.toNat)
    (hmax : s.enc.string.length ≤ 2 ^ 16) :
    ∃ t, Answers (readstr s.enc.string.length) s
      (BitVec.ofNat 32 s.enc.string.length :: s.enc.string.map (·.setWidth 32)) t := by
  have small : ∀ i < s.enc.string.length, (BitVec.ofNat 16 i).toNat = i := fun i hi => toNat_ofNat_of_lt (by omega)
  have length : okData (.rdcsr 0 7) s = BitVec.ofNat 32 s.enc.string.length := by
    rw [hlen, BitVec.ofNat_toNat]; rfl
  have chars : ((List.range s.enc.string.length).map fun i => Instr.ord 0 (BitVec.ofNat 16 i)).map (okData · s) =
      s.enc.string.map (·.setWidth 32) := by
    apply List.ext_getElem
    · simp
    · intro i hi hi'
      have hi : i < s.enc.string.length := by simpa using hi'
      simp only [List.map_map, List.getElem_map, List.getElem_range, Function.comp_apply, okData, small i hi,
        getOSTR_eq_getElem hi]
  refine length ▸ chars ▸ Answers.reads (readstr s.enc.string.length) s (List.forall_mem_cons.2 ⟨?_, ?_⟩)
  · exact ⟨.inl ⟨_, _, rfl⟩, (firstFault_rdcsr_none_iff 0 7 s).2 ⟨rfl, by decide⟩⟩
  · refine List.forall_mem_map.2 fun i hi => ⟨.inr (.inr ⟨_, _, rfl⟩), ?_⟩
    have hi := List.mem_range.1 hi
    exact (firstFault_ord_none_iff _ _ s).2 ⟨rfl, by rw [small i hi]; omega⟩

/-! The operations. -/

/-- Commands that load an encoder, an encoding that writes `str` and answers its length, and `READSTR`. -/
theorem encoding_operation {load : List Instr} {enc : Instr} {s t : State} {str : List Symbol}
    (loaded : Answers load s (List.replicate load.length 0) t) (ht : t.Inv) (hf : firstFault enc t = none)
    (hdata : okData enc t = (effect enc t).enc.OLEN.setWidth 32) (henc : (effect enc t).enc = t.enc.withString str)
    (hfit : str.length ≤ t.cfg.OSMAX) :
    ∃ u, execAll (load ++ [enc] ++ readstr str.length) s = .next u ∧
      u.rsps = s.rsps ++ List.replicate ((load ++ [enc]).length - 1) { CODE := 0, DATA := 0 }
        ++ List.replicate 2 { CODE := 0, DATA := BitVec.ofNat 32 str.length }
        ++ str.map fun c => { CODE := 0, DATA := c.setWidth 32 } := by
  have hmax : str.length ≤ 2 ^ 16 := by
    have := ht.ewmax_hi
    rw [Config.OSMAX] at hfit
    omega
  have olen : (effect enc t).enc.OLEN.toNat = str.length := by rw [henc, withString_OLEN (by omega)]
  have string : (effect enc t).enc.string = str := by rw [henc, withString_string (by omega)]
  have answer : okData enc t = BitVec.ofNat 32 str.length := by
    rw [hdata, ← BitVec.ofNat_toNat, olen]
  obtain ⟨u, read⟩ := readstr_answers (s := effect enc t) (by rw [string, olen]) (by rw [string]; exact hmax)
  have all := (loaded.append (.single hf)).append read
  rw [string, answer] at all
  refine ⟨u, all.execAll, ?_⟩
  rw [all.rsps, List.length_append, List.length_singleton, Nat.add_sub_cancel]
  simp only [List.map_append, List.map_replicate, List.map_cons, List.map_nil, List.map_map, List.append_assoc]
  rfl

/-- Settles O48: the words and the alphabet are loaded by commands that answer 0, `ENC16` then writes the source's string
of both, and `READSTR` reads it. -/
theorem encodeBase16Operation : Obligations.EncodeBase16Operation := by
  intro input ws al cap s hs hin hal
  obtain ⟨t, loaded, hwords⟩ := load_answers hs hin
  obtain ⟨t', chosen, hwords', hsyms⟩ := optional_alpha16_answers hal t
  have both := loaded.append chosen
  rw [List.replicate_append_replicate, ← List.length_append] at both
  have ht' := both.inv hs
  have written := ht'.fits.enc16_eq (cap.map (·.toNat)) al.isSome
  have hlen := ht'.fits.enc16_source_length_le (cap.map (·.toNat)) al.isSome
  rw [hwords', hwords, hsyms] at written hlen
  have henc : (effect (.enc16 (capField cap).1 al.isSome (capField cap).2) t').enc = t'.enc.withString _ :=
    (congrArg (t'.enc.enc16 · al.isSome) (capOf_capField cap)).trans written
  exact encoding_operation both ht' ((firstFault_enc16_none_iff ..).2 (capField_wellFormed cap)) rfl henc hlen

/-- Settles O49, as O48 with `ENC64`. -/
theorem encodeBase64VariantOperation : Obligations.EncodeBase64VariantOperation := by
  intro input ws al cap s hs hin
  obtain ⟨t, loaded, hwords⟩ := load_answers hs hin
  obtain ⟨t', chosen, hwords', hal⟩ := optional_alpha64_answers al t
  have both := loaded.append chosen
  rw [List.replicate_append_replicate, ← List.length_append] at both
  have ht' := both.inv hs
  have written := ht'.fits.enc64_eq (cap.map (·.toNat)) al.isSome
  have hlen := ht'.fits.enc64_source_length_le (cap.map (·.toNat)) al.isSome
  rw [hwords', hwords, hal] at written hlen
  have henc : (effect (.enc64 (capField cap).1 al.isSome (capField cap).2) t').enc = t'.enc.withString _ :=
    (congrArg (t'.enc.enc64 · al.isSome) (capOf_capField cap)).trans written
  exact encoding_operation both ht' ((firstFault_enc64_none_iff ..).2 (capField_wellFormed cap)) rfl henc hlen

end Sys2Proof.Machine
end

section
/-! The rules of message input, command by command (40_hash_input.md R93 to R97). -/

namespace Sys2Proof.Machine

open Sys2Proof.Source

/-- The phase is checked right after the reserved bits (R184, R189). -/
theorem exec_of_phaseBroken {i : Instr} {s : State} (hw : i.wellFormed = true) (h : phaseBroken i s = true) :
    exec i s = .next (s.protocolFault 0x03 i.opcode i.arg) := by
  refine exec_of_fault (c := .phase) ?_
  rw [firstFault, reservedBroken_eq_not_wellFormed, hw, h]
  rfl

/-- In format N every bit of the argument is reserved (R62, R66). -/
theorem exec_of_formatN {i : Instr} (hN : i.format = .N) (h : i.arg ≠ 0) (s : State) :
    exec i s = .next (s.protocolFault 0x02 i.opcode i.arg) := by
  refine exec_of_reservedBroken ?_ s
  have allOnes : i.arg &&& Format.N.rsvdMask = i.arg := BitVec.and_allOnes
  rw [reservedBroken, hN, allOnes, bne_iff_ne.2 h, Bool.true_or]

/-- Settles O20: `HINIT` has its effect where no bit of its argument is 1, in any phase. -/
theorem hinitRule : Obligations.HinitRule :=
  ⟨fun s => exec_of_no_fault ((firstFault_hinit_none_iff 0 s).2 rfl),
    fun rsvd s h => exec_of_formatN (i := .hinit rsvd) rfl h s⟩

/-! `ABS` (R95). -/

/-- The byte stored and counted, field by field. -/
theorem stored_eq (b : Byte) (u : HashUnit) :
    stored b u = { u with
      BUF := u.BUF.set (u.LEN.toNat % 64) b (Nat.mod_lt _ (by decide))
      LEN := BitVec.ofNat 29 (u.LEN.toNat + 1) } := by
  have counted : u.LEN + 1 = BitVec.ofNat 29 (u.LEN.toNat + 1) := BitVec.eq_of_toNat_eq (by simp)
  rw [stored, counted, set_eq_setIfInBounds]
  rfl

/-- All of `BUF`. -/
theorem HashUnit.bytes_all (u : HashUnit) : u.bytes 64 = u.BUF.toList := List.take_of_length_le (by simp)

/-- R96: with all 64 bytes in place, the block's words are the bytes packed. -/
theorem compress_H_eq_pack (u : HashUnit) : u.compress.H = Source.compress u.H (Source.pack u.BUF.toList) := by
  rw [compress_H, HashUnit.blockWords_eq_pack, HashUnit.bytes_all]

/-- Settles O21: the three checks in their order; then the byte is stored, and the block compressed where it was the
last one. -/
theorem absRule : Obligations.AbsRule := by
  intro code s
  have absorbs (hp : s.hash.PHASE = .absorb) (hc : code.toNat ≤ 255) (hl : s.hash.LEN.toNat ≠ 2 ^ 29 - 1) :
      exec (.abs code) s =
        .next (({ s with hash := s.hash.absorb (BitVec.ofNat 8 code.toNat) }).answered 0 0) :=
    exec_of_no_fault ((firstFault_abs_none_iff code s).2 ⟨hp, hc, hl⟩)
  refine ⟨fun hp => ?phase, fun hp hc => ?domain, fun hp hc hl => ?limit, fun hp hc hl hfull => ?room,
    fun hp hc hl hfull => ?full⟩
  case phase => exact exec_of_phaseBroken (i := .abs code) rfl (bne_iff_ne.2 hp)
  case domain => exact exec_of_fault (c := .domain) (by rw [firstFault_abs hp, if_pos hc])
  case limit => exact exec_of_fault (c := .lenovf) (by rw [firstFault_abs hp, if_neg (by omega), if_pos hl])
  case room =>
    rw [absorbs hp hc hl, absorb_of_not_full (mt (stored_full_iff _ _ hl).1 hfull), stored_eq]
  case full =>
    intro full
    have stored_last : stored (BitVec.ofNat 8 code.toNat) s.hash = full := by
      rw [stored_eq]
      simp only [hfull, full]
    exact ⟨by rw [absorbs hp hc hl, absorb_of_full ((stored_full_iff _ _ hl).2 hfull), stored_last],
      compress_H_eq_pack full⟩

/-! `HFIN` (R97). -/

/-- The last bytes of the padded message are the pending ones with the padding of R91. -/
theorem lastBytes_eq (u : HashUnit) : lastBytes u.BUF u.LEN.toNat = u.pending ++ padding u.LEN.toNat := by
  simp only [lastBytes, padding, HashUnit.pending, HashUnit.bytes, HashUnit.fill, List.append_assoc]

/-- After `PADFIN` the block in `BUF` is the last 64 of the bytes that `padfin_hashes` compresses. -/
theorem padfin_BUF_suffix (u : HashUnit) : u.padfin.BUF.toList <:+ u.pending ++ padding u.LEN.toNat := by
  have hlt : u.fill < 64 := Nat.mod_lt _ (by decide)
  have zeros : zeroFill u.LEN.toNat = (119 - u.fill) % 64 := zeroFill_eq u.LEN.toNat
  have marked : (u.setBuf u.fill 0x80).bytes (u.fill + 1) = u.pending ++ [0x80] := HashUnit.bytes_setBuf hlt 0x80 u
  rw [HashUnit.padfin, compress_BUF, ← HashUnit.bytes_all, HashUnit.bytes_putLength, HashUnit.bitLength_eq, padding,
    ← List.append_assoc, ← List.append_assoc, List.suffix_append_self_iff, ← marked, zeros]
  split
  next two =>
    have block := HashUnit.bytes_zeroBuf (n := 0) (k := 56) (by decide)
      ((u.setBuf u.fill 0x80).zeroBuf (u.fill + 1) (63 - u.fill)).compress
    rw [Nat.zero_add] at block
    rw [block, show (119 - u.fill) % 64 = (63 - u.fill) + 56 by omega, List.replicate_add, ← List.append_assoc]
    exact List.suffix_append _ _
  next one =>
    have block := HashUnit.bytes_zeroBuf (n := u.fill + 1) (k := 55 - u.fill) (by omega) (u.setBuf u.fill 0x80)
    rw [show u.fill + 1 + (55 - u.fill) = 56 by omega] at block
    rw [block, show (119 - u.fill) % 64 = 55 - u.fill by omega]

/-- Settles O22: `padfin_hashes` for `H`, `padfin_BUF_suffix` for `BUF`. -/
theorem hfinRule : Obligations.HfinRule := by
  refine ⟨fun s hp => ?_, fun s hp => ?_, fun rsvd s h => exec_of_formatN (i := .hfin rsvd) rfl h s⟩
  · refine ⟨s.hash.padfin.wr, s.hash.padfin.W, s.hash.padfin.BUF, ?_, ?_⟩
    · rw [exec_of_no_fault ((firstFault_hfin_none_iff 0 s).2 ⟨rfl, hp⟩), lastBytes_eq, ← hashBytes, ← HashUnit.padfin_hashes,
        ← padfin_LEN]
      rfl
    · have last := List.suffix_iff_eq_drop.1 (padfin_BUF_suffix s.hash)
      rwa [Vector.length_toList, ← lastBytes_eq] at last
  · exact exec_of_phaseBroken (i := .hfin 0) rfl (bne_iff_ne.2 hp)

/-! Padding and packing (R93, R96). -/

/-- Settles O23: the zero bytes fill the last block, which the length ends. -/
theorem paddedLength : Obligations.PaddedLength := by
  intro m
  have zeros := zeroFill_eq m.length
  have total : (pad m).length = m.length + 9 + zeroFill m.length := by
    simp [pad, lengthBytes]
    omega
  have words : (pack (pad m)).length = 16 * ((m.length + 8) / 64 + 1) := pack_length (by omega)
  refine ⟨zeros, total, by omega, ?_⟩
  rw [blocks, List.length_map, List.length_range, words, Nat.mul_div_cancel_left _ (by decide)]

/-- Settles O24: `PACK` is the concatenation, whose value is the sum. -/
theorem packBigEndian : Obligations.PackBigEndian := by
  intro u j hj
  refine ⟨rfl, ?_⟩
  simp only [HashUnit.pack, append_byte_toNat]
  omega

end Sys2Proof.Machine
end

section
/-! A framed message among other commands (40_hash_input.md R98): the hash unit depends on the hash commands alone. -/

namespace Sys2Proof.Machine

open Sys2Proof.Source

/-- What the hash commands read and write: the hash unit, and the count of resets, which picks the values after `SRST`. -/
def State.hashSide (s : State) : HashUnit × Nat := (s.hash, s.fresh)

/-- The other commands leave it alone, whether they fault or not. -/
theorem exec_hashSide_of_not_drivesHash {i : Instr} {s t : State} (hi : i.drivesHash = false) (h : exec i s = .next t) :
    t.hashSide = s.hashSide := by
  have fresh : t.fresh = s.fresh := by
    obtain ⟨c, -, rfl⟩ | ⟨-, rfl⟩ := exec_cases h
    · rfl
    · cases i with
      | srst => cases hi
      | _ => rfl
  exact Prod.ext (hashUnitFrame i s t hi h) fresh

/-- The checks of a hash command read the hash unit only (R184, R185, R187). -/
theorem firstFault_congr_hash {i : Instr} {s s' : State} (hi : i.drivesHash = true) (h : s.hash = s'.hash) :
    firstFault i s = firstFault i s' := by
  have reads_hash : firstFault i s = firstFault i { s' with hash := s.hash } := by
    cases i with
    | srst | hinit | abs | hfin => rfl
    | _ => cases hi
  rw [reads_hash, h]

/-- So does its effect, but for the count of resets. -/
theorem effect_hashSide_congr {i : Instr} {s s' : State} (hi : i.drivesHash = true) (h : s.hashSide = s'.hashSide) :
    (effect i s).hashSide = (effect i s').hashSide := by
  obtain ⟨hash, fresh⟩ := Prod.mk.inj h
  have reads_hashSide : (effect i s).hashSide = (effect i { s' with hash := s.hash, fresh := s.fresh }).hashSide := by
    cases i with
    | srst | hinit | abs | hfin => rfl
    | _ => cases hi
  rw [reads_hashSide, hash, fresh]

/-- A hash command does the same to it, faulting or not, whatever the rest of the state. -/
theorem exec_hashSide_congr {i : Instr} {s s' t t' : State} (hi : i.drivesHash = true) (h : s.hashSide = s'.hashSide)
    (ht : exec i s = .next t) (ht' : exec i s' = .next t') : t.hashSide = t'.hashSide := by
  obtain ⟨hash, fresh⟩ := Prod.mk.inj h
  have checks := firstFault_congr_hash hi hash
  obtain ⟨c, hf, rfl⟩ | ⟨hf, rfl⟩ := exec_cases ht
  · cases (exec_of_fault (checks ▸ hf)).symm.trans ht'
    exact Prod.ext (by rw [State.hashSide, State.hashSide, raise_hash, raise_hash, hash]) fresh
  · rw [eq_effect ht' (checks ▸ hf), effect_hashSide_congr hi h]

/-- The hash unit after a command list is the one after its hash commands. -/
theorem execAll_hashSide (is : List Instr) {s s' : State} (h : s.hashSide = s'.hashSide) :
    ∃ t t', execAll is s = .next t ∧ execAll (is.filter Instr.drivesHash) s' = .next t' ∧ t.hashSide = t'.hashSide := by
  induction is generalizing s s' with
  | nil => exact ⟨s, s', rfl, rfl, h⟩
  | cons i is ih =>
    obtain ⟨u, hu⟩ := exec_total i s
    obtain ⟨u', hu'⟩ := exec_total i s'
    cases hi : i.drivesHash with
    | true =>
      obtain ⟨t, t', ht, ht', same⟩ := ih (exec_hashSide_congr hi h hu hu')
      exact ⟨t, t', (execAll_cons hu is).trans ht, by rw [List.filter_cons_of_pos hi, execAll_cons hu', ht'], same⟩
    | false =>
      obtain ⟨t, t', ht, ht', same⟩ := ih ((exec_hashSide_of_not_drivesHash hi hu).trans h)
      exact ⟨t, t', (execAll_cons hu is).trans ht, by rw [List.filter_cons_of_neg (by simp [hi]), ht'], same⟩

/-- `DIGEST` alone: the digest, the phase and the count (R69, R97). -/
theorem digest_run {m : List Byte} (hm : m.length ≤ 2 ^ 29 - 1) (s : State) :
    ∃ t, execAll (HostSide.digest (m.map (·.setWidth 32))) s = .next t ∧
      t.hash.H = sha256 m ∧ t.hash.PHASE = .done ∧ t.hash.LEN.toNat = m.length := by
  have opened := Answers.single ((firstFault_hinit_none_iff 0 s).2 rfl)
  obtain ⟨t, sent, absorbed⟩ := msg_answers hm (s := effect (.hinit 0) s) (.start s.hash)
  have closed := Answers.single ((firstFault_hfin_none_iff 0 t).2 ⟨rfl, absorbed.phase⟩)
  refine ⟨effect (.hfin 0) t, ((opened.append sent).append closed).execAll, absorbed.digest, rfl, ?_⟩
  rw [effect_LEN, absorbed.len]

/-- Settles O30: the hash commands of the list are `DIGEST`, and the others do not reach the hash unit. -/
theorem digestOfMessage : Obligations.DigestOfMessage := by
  intro m is s hm framed
  have digest : is.filter Instr.drivesHash = HostSide.digest (m.map (·.setWidth 32)) := by
    rw [framed, HostSide.digest, HostSide.msg, List.map_map]
    rfl
  obtain ⟨t, t', ht, ht', same⟩ := execAll_hashSide is (rfl : s.hashSide = s.hashSide)
  obtain ⟨d, hd, result⟩ := digest_run hm s
  have hash : t.hash = d.hash := by
    rw [digest, hd] at ht'
    cases ht'
    exact congrArg Prod.fst same
  exact ⟨t, ht, hash ▸ result⟩

end Sys2Proof.Machine
end

section
/-! The word functions, bit by bit (41_compressor.md R110 to R113). -/

namespace Sys2Proof.Machine

/-- R110: the low bits of the result come from the right shift, and those above them from the left shift. -/
theorem getLsbD_rotr (x : Word) {n i : Nat} (hn : n < 32) (hi : i < 32) :
    (rotr x n).getLsbD i = x.getLsbD ((i + n) % 32) := by
  rw [rotr, BitVec.getLsbD_or, BitVec.getLsbD_ushiftRight, BitVec.getLsbD_shiftLeft]
  by_cases low : i + n < 32
  · rw [Nat.mod_eq_of_lt low, decide_eq_true (show i < 32 - n by omega), Nat.add_comm n i]
    simp
  · have wraps : (i + n) % 32 = i - (32 - n) := by omega
    have gone : x.getLsbD (n + i) = false := BitVec.getLsbD_of_ge x _ (by omega)
    rw [wraps, gone, decide_eq_true hi, decide_eq_false (show ¬ i < 32 - n by omega)]
    simp

/-- R110, the corner case n = 0. -/
theorem rotr_zero (x : Word) : rotr x 0 = x :=
  BitVec.eq_of_getLsbD_eq fun i hi => by rw [getLsbD_rotr x (by decide) hi, Nat.add_zero, Nat.mod_eq_of_lt hi]

/-- R111: the logical shift brings in zeros. -/
theorem getLsbD_shiftRight (x : Word) (n i : Nat) :
    (x >>> n).getLsbD i = (decide (i + n < 32) && x.getLsbD (i + n)) := by
  rw [BitVec.getLsbD_ushiftRight, Nat.add_comm n i]
  by_cases inside : i + n < 32
  · rw [decide_eq_true inside, Bool.true_and]
  · rw [decide_eq_false inside, Bool.false_and, BitVec.getLsbD_of_ge x _ (by omega)]

/-- Settles O25: the bit law of `rotr`, through the exclusive ors. -/
theorem rotateAndSigmaBits : Obligations.RotateAndSigmaBits := by
  intro x i hi
  have rotated (n : Nat) (hn : n < 32) : (rotr x n).getLsbD i = x.getLsbD ((i + n) % 32) := getLsbD_rotr x hn hi
  refine ⟨rotated, rotr_zero x, ?sigma0, ?sigma1, ?bigSigma0, ?bigSigma1⟩
  case sigma0 =>
    rw [sigma0, BitVec.getLsbD_xor, BitVec.getLsbD_xor, rotated 7 (by decide), rotated 18 (by decide), getLsbD_shiftRight]
  case sigma1 =>
    rw [sigma1, BitVec.getLsbD_xor, BitVec.getLsbD_xor, rotated 17 (by decide), rotated 19 (by decide), getLsbD_shiftRight]
  case bigSigma0 =>
    rw [bigSigma0, BitVec.getLsbD_xor, BitVec.getLsbD_xor, rotated 2 (by decide), rotated 13 (by decide),
      rotated 22 (by decide)]
  case bigSigma1 =>
    rw [bigSigma1, BitVec.getLsbD_xor, BitVec.getLsbD_xor, rotated 6 (by decide), rotated 11 (by decide),
      rotated 25 (by decide)]

/-- R113: of the two terms of `Ch`, the one that `x` does not select is 0. -/
theorem getLsbD_ch (x y z : Word) {i : Nat} (hi : i < 32) :
    (ch x y z).getLsbD i = if x.getLsbD i then y.getLsbD i else z.getLsbD i := by
  rw [ch, BitVec.getLsbD_xor, BitVec.getLsbD_and, BitVec.getLsbD_and, BitVec.getLsbD_not, decide_eq_true hi]
  cases x.getLsbD i <;> simp

/-- The exclusive or of the three pairs of bits is 1 where one pair is 1 or all are: where two of the bits are 1. -/
theorem xor_pairs_eq_majority (a b c : Bool) :
    ((a && b) ^^ (a && c) ^^ (b && c)) = decide (2 ≤ a.toNat + b.toNat + c.toNat) := by
  revert a b c
  decide

/-- R113: `Maj`, one bit at a time. -/
theorem getLsbD_maj (x y z : Word) (i : Nat) :
    (maj x y z).getLsbD i = decide (2 ≤ (x.getLsbD i).toNat + (y.getLsbD i).toNat + (z.getLsbD i).toNat) := by
  rw [maj, BitVec.getLsbD_xor, BitVec.getLsbD_xor, BitVec.getLsbD_and, BitVec.getLsbD_and, BitVec.getLsbD_and,
    xor_pairs_eq_majority]

/-- Settles O26. -/
theorem chooseAndMajorityBits : Obligations.ChooseAndMajorityBits :=
  fun x y z i hi => ⟨getLsbD_ch x y z hi, getLsbD_maj x y z i⟩

end Sys2Proof.Machine
end

section
/-! The rules of the compressor, operation by operation (41_compressor.md R118 to R125). -/

namespace Sys2Proof.Machine

/-- A hash unit that shares all but the schedule with `u` is `u` with its own schedule. -/
theorem HashUnit.eq_with_W {u v : HashUnit} (H : v.H = u.H) (wr : v.wr = u.wr) (BUF : v.BUF = u.BUF)
    (LEN : v.LEN = u.LEN) (PHASE : v.PHASE = u.PHASE) : v = { u with W := v.W } := by
  rw [← H, ← wr, ← BUF, ← LEN, ← PHASE]

/-- R118, R119: `LOADW` and the `SCHED` turns write the schedule and nothing else. -/
theorem loadw_schedAll_frame (u : HashUnit) : u.loadw.schedAll = { u with W := u.loadw.schedAll.W } :=
  HashUnit.eq_with_W ((schedAll_H _).trans (loadw_H u)) ((schedAll_wr _).trans (loadw_wr u))
    ((schedAll_BUF _).trans (loadw_BUF u)) ((schedAll_LEN _).trans (loadw_LEN u))
    ((schedAll_PHASE _).trans (loadw_PHASE u))

/-- Settles O27: `SCHED` keeps the words that `LOADW` packed, and each later word meets the recurrence. -/
theorem scheduleRule : Obligations.ScheduleRule := fun u =>
  ⟨fun j hj => (schedAll_W_of_lt u.loadw j hj).trans (loadw_W u j hj), schedAll_W_of_ge u.loadw, loadw_schedAll_frame u⟩

/-- Settles O28: each operation is one simultaneous assignment, so its rule is its definition (`T1` and `T2` are
`Working.t1` and `Working.t2`). -/
theorem roundRule : Obligations.RoundRule := fun _ => ⟨rfl, fun _ _ => rfl, rfl⟩

/-- Settles O29: `compress_H` for `H`; the five operations of `COMPRESS` keep the other three. -/
theorem compressRule : Obligations.CompressRule := fun u =>
  ⟨compress_H u, compress_BUF u, compress_LEN u, compress_PHASE u⟩

/-! `HRD` (R125). -/

/-- A command with a reserved bit set faults before its other checks (R66, R183, R189). -/
theorem exec_of_illFormed {i : Instr} (h : i.wellFormed = false) (s : State) :
    exec i s = .next (s.protocolFault 0x02 i.opcode i.arg) :=
  exec_of_reservedBroken (by rw [reservedBroken_eq_not_wellFormed, h]; rfl) s

/-- The operand range is checked after the reserved bits and the phase (R185, R186, R189). -/
theorem exec_of_rangeBroken {i : Instr} {s : State} {c : FaultCode} (hw : i.wellFormed = true)
    (hp : phaseBroken i s = false) (h : rangeBroken i s = some c) : exec i s = .next (s.raise c i) := by
  refine exec_of_fault ?_
  rw [firstFault, reservedBroken_eq_not_wellFormed, hw, hp, h]
  rfl

/-- Settles O32: the read where all three checks pass, and each check where it is the first to fail. -/
theorem hrdRule : Obligations.HrdRule := by
  refine ⟨fun idx s h hp => ?read, fun idx s hp h => ?range, fun idx s hp => ?phase, fun rsvd idx s hr => ?reserved⟩
  case read =>
    rw [exec_of_no_fault ((firstFault_hrd_none_iff 0 idx s).2 ⟨rfl, hp, by omega⟩), effect, Vector.getElem?_eq_getElem h,
      Option.getD_some]
  case range =>
    exact exec_of_rangeBroken (i := .hrd 0 idx) (c := .range) rfl (bne_eq_false_iff_eq.2 hp) (if_pos h)
  case phase => exact exec_of_phaseBroken (i := .hrd 0 idx) rfl (bne_iff_ne.2 hp)
  case reserved => exact exec_of_illFormed (i := .hrd rsvd idx) (beq_false_of_ne hr) s

end Sys2Proof.Machine
end

section
/-! The rules of the encoder input, the Base16 alphabet and the read-out, command by command (42_base16.md R138 to R142,
R144). -/

namespace Sys2Proof.Machine

/-- The resource is checked last (R188, R189). -/
theorem exec_of_resourceBroken {i : Instr} {s : State} {c : FaultCode} (hw : i.wellFormed = true)
    (hp : phaseBroken i s = false) (hr : rangeBroken i s = none) (h : resourceBroken i s = some c) :
    exec i s = .next (s.raise c i) := by
  refine exec_of_fault ?_
  rw [firstFault, reservedBroken_eq_not_wellFormed, hw, hp, hr, h]
  rfl

/-- The count of a bit vector, one up. -/
theorem add_one_eq_ofNat {n : Nat} (x : BitVec n) : x + 1 = BitVec.ofNat n (x.toNat + 1) := by
  rw [BitVec.ofNat_add, BitVec.ofNat_toNat, BitVec.setWidth_eq]
  rfl

/-- In format S one of the two reserved bytes is enough (R62, R66). -/
theorem formatS_reserved {hi lo : BitVec 8} (h : hi ≠ 0 ∨ lo ≠ 0) : (hi == 0 && lo == 0) = false :=
  Bool.and_eq_false_iff.2 (h.imp beq_false_of_ne beq_false_of_ne)

/-- Settles O33: `EWCLR` has its effect where no bit of its argument is 1. -/
theorem ewclrRule : Obligations.EwclrRule :=
  ⟨fun s => exec_of_no_fault ((firstFault_ewclr_none_iff 0 s).2 rfl),
    fun rsvd s h => exec_of_formatN (i := .ewclr rsvd) rfl h s⟩

/-- Settles O34: one position of `EW` is written, and `words_push` says that the word sequence grows by the word. -/
theorem ewpushRule : Obligations.EwpushRule := by
  intro word s hs
  have size := hs.ew_size
  refine ⟨fun hlt => ⟨s.enc.EW.set s.enc.EN.toNat word, ?run, ?length, ?written, fun j hj => ?others, ?words⟩,
    fun hfull => ?full⟩
  case run =>
    rw [exec_of_no_fault ((firstFault_ewpush_none_iff word s).2 hlt.ne), ← add_one_eq_ofNat]
    rfl
  case length => rw [List.length_set, size]
  case written => exact List.getElem?_set_self (size ▸ hlt)
  case others => exact List.getElem?_set_ne hj.symm
  case words =>
    have count : (s.enc.EN + 1).toNat = s.enc.EN.toNat + 1 :=
      BitVec.toNat_add_of_lt (by have := hs.ewmax_hi; simp; omega)
    have grown := words_push (u := s.enc) (size ▸ hlt) (size ▸ hs.ewmax_hi) word
    rwa [EncUnit.words, count] at grown
  case full => exact exec_of_resourceBroken (i := .ewpush word) (c := .ewfull) rfl rfl rfl (if_pos hfull)

/-- Settles O35: `loadDigest_frame` and `loadDigest_EW` say what the eight writes leave. -/
theorem ewdigRule : Obligations.EwdigRule := by
  refine ⟨fun s hs hp => ?run, fun s hp => ?phase, fun rsvd s h => exec_of_formatN (i := .ewdig rsvd) rfl h s⟩
  case run =>
    rw [exec_of_no_fault ((firstFault_ewdig_none_iff 0 s).2 ⟨rfl, hp⟩), effect_ewdig, loadDigest_frame,
      loadDigest_EW s.hash.H (hs.ew_size ▸ hs.ewmax_lo)]
  case phase => exact exec_of_phaseBroken (i := .ewdig 0) rfl (bne_iff_ne.2 hp)

/-- Settles O36: the write where the index is in range, and each check where it is the first to fail. -/
theorem a16setRule : Obligations.A16setRule := by
  refine ⟨fun idx ch s h => ?run, fun idx ch s h => ?range, fun hi idx lo ch s h => ?reserved⟩
  case run =>
    rw [exec_of_no_fault ((firstFault_a16set_none_iff 0 idx 0 ch s).2 ⟨rfl, rfl, h⟩), set_eq_setIfInBounds]
    rfl
  case range => exact exec_of_rangeBroken (i := .a16set 0 idx 0 ch) (c := .range) rfl rfl (if_pos h)
  case reserved => exact exec_of_illFormed (i := .a16set hi idx lo ch) (formatS_reserved h) s

/-- Settles O37, as O36. -/
theorem a16lenRule : Obligations.A16lenRule := by
  refine ⟨fun idx s hlo hhi => ?run, fun idx s h => ?range, fun rsvd idx s hr => ?reserved⟩
  case run =>
    rw [exec_of_no_fault ((firstFault_a16len_none_iff 0 idx s).2 ⟨rfl, hlo, hhi⟩), BitVec.ofNat_toNat]
    rfl
  case range => exact exec_of_rangeBroken (i := .a16len 0 idx) (c := .range) rfl rfl (if_pos h)
  case reserved => exact exec_of_illFormed (i := .a16len rsvd idx) (beq_false_of_ne hr) s

/-- Settles O41: below `OLEN` the register has the position that is read. -/
theorem ordRule : Obligations.OrdRule := by
  refine ⟨fun idx s hs h => ?run, fun idx s h => ?range, fun rsvd idx s hr => ?reserved⟩
  case run =>
    have held : idx.toNat < s.enc.OSTR.length := h.trans_le (hs.ostr_size ▸ hs.olen_le)
    refine ⟨s.enc.OSTR[idx.toNat], List.getElem?_eq_getElem held, ?_⟩
    rw [exec_of_no_fault ((firstFault_ord_none_iff 0 idx s).2 ⟨rfl, h⟩), effect, EncUnit.getOSTR,
      List.getD_eq_getElem _ _ held, BitVec.ofNat_toNat]
  case range => exact exec_of_rangeBroken (i := .ord 0 idx) (c := .range) rfl rfl (if_pos h)
  case reserved => exact exec_of_illFormed (i := .ord rsvd idx) (beq_false_of_ne hr) s

end Sys2Proof.Machine
end

section
/-! `ENC16` and `ENC64` as commands, and the truncation law (42_base16.md R137, R143, 43_base64v.md R164). -/

namespace Sys2Proof.Machine

/-- `OLEN` counts every string that the register holds (R6, R21). -/
theorem State.Inv.length_lt_of_le_OSMAX {s : State} (h : s.Inv) {n : Nat} (hn : n ≤ s.cfg.OSMAX) : n < 2 ^ 17 := by
  have := h.ewmax_hi
  rw [Config.OSMAX] at hn
  omega

theorem withString_OLEN_setWidth {str : List Symbol} (h : str.length < 2 ^ 17) (u : EncUnit) :
    (u.withString str).OLEN.setWidth 32 = BitVec.ofNat 32 str.length := by
  rw [← BitVec.ofNat_toNat, withString_OLEN h]

section
variable {ce : Bool} {cap : BitVec 30} {s : State}

/-- R143: the state and the response of `ENC16`, with the source's string. -/
theorem exec_enc16 (hs : s.Inv) (hc : ce = true ∨ cap = 0) (sel : Bool) :
    let str := Source.enc16 s.enc.words (s.enc.symbols16 sel) (capOf ce cap)
    str.length < 2 ^ 17 ∧ exec (.enc16 ce sel cap) s =
      .next (({ s with enc := s.enc.withString str }).answered 0 (BitVec.ofNat 32 str.length)) := by
  have short := hs.length_lt_of_le_OSMAX (hs.fits.enc16_source_length_le (capOf ce cap) sel)
  refine ⟨short, ?_⟩
  rw [exec_of_no_fault ((firstFault_enc16_none_iff ce sel cap s).2 hc), effect, hs.fits.enc16_eq,
    withString_OLEN_setWidth short]

/-- R164: the state and the response of `ENC64`, with the source's string. -/
theorem exec_enc64 (hs : s.Inv) (hc : ce = true ∨ cap = 0) (sel : Bool) :
    let str := Source.enc64 s.enc.words (s.enc.alphabet64 sel) (capOf ce cap)
    str.length < 2 ^ 17 ∧ exec (.enc64 ce sel cap) s =
      .next (({ s with enc := s.enc.withString str }).answered 0 (BitVec.ofNat 32 str.length)) := by
  have short := hs.length_lt_of_le_OSMAX (hs.fits.enc64_source_length_le (capOf ce cap) sel)
  refine ⟨short, ?_⟩
  rw [exec_of_no_fault ((firstFault_enc64_none_iff ce sel cap s).2 hc), effect, hs.fits.enc64_eq,
    withString_OLEN_setWidth short]

end

/-- The smaller of the cap and the natural length, where there is a cap. -/
theorem cappedLength_capOf (ce : Bool) (cap : BitVec 30) (n : Nat) :
    cappedLength (capOf ce cap) n = if ce then min cap.toNat n else n := by
  cases ce with
  | false => rfl
  | true =>
    show (if cap.toNat < n then cap.toNat else n) = min cap.toNat n
    split <;> omega

/-- The symbols in force, by the bit `AS`. -/
theorem symbols16_eq (sel : Bool) (u : EncUnit) :
    u.symbols16 sel = if sel then u.A16.toList.take u.A16LEN.toNat else D16.toList := by
  cases sel <;> rfl

/-- Settles O39: `exec_enc16`, and eight characters a word before the cap. -/
theorem enc16Rule : Obligations.Enc16Rule := by
  refine ⟨fun ce sel cap s hs hc => ?run, fun sel cap s h => ?reserved⟩
  case run =>
    have run := (exec_enc16 hs hc sel).2
    have length : (Source.enc16 s.enc.words (s.enc.symbols16 sel) (capOf ce cap)).length =
        if ce then min cap.toNat (8 * s.enc.EN.toNat) else 8 * s.enc.EN.toNat := by
      rw [hs.fits.enc16_source, capped_length, chars16_length, hs.fits.words_length, cappedLength_capOf]
    rw [symbols16_eq] at run length
    exact ⟨run, length⟩
  case reserved => exact exec_of_illFormed (i := .enc16 false sel cap) (beq_false_of_ne h) s

/-- Settles O45: the source's capped string is `take` of the uncapped one, and each command leaves the source's
string. -/
theorem truncationLaw : Obligations.TruncationLaw := by
  intro sel cap s hs
  obtain ⟨short16, run16⟩ := exec_enc16 (ce := true) (cap := cap) hs (.inl rfl) sel
  obtain ⟨long16, runAll16⟩ := exec_enc16 (ce := false) hs (.inr rfl) sel
  obtain ⟨short64, run64⟩ := exec_enc64 (ce := true) (cap := cap) hs (.inl rfl) sel
  obtain ⟨long64, runAll64⟩ := exec_enc64 (ce := false) hs (.inr rfl) sel
  refine ⟨⟨_, _, run16, runAll16, ?_⟩, ⟨_, _, run64, runAll64, ?_⟩⟩
  · rw [answered_enc, answered_enc, withString_string short16, withString_string long16]
    rfl
  · rw [answered_enc, answered_enc, withString_string short64, withString_string long64]
    rfl

end Sys2Proof.Machine
end

section
/-! The alphabets (42_base16.md R136, R137): a shorter one repeated, and the indices that the words alone select. -/

namespace Sys2Proof.Machine

/-! A shorter alphabet (R136). -/

/-- A list repeated `n` times, by the position modulo its length. -/
theorem getElem?_flatten_replicate {α : Type} (l : List α) {n i : Nat} (hi : i < n * l.length) :
    (List.replicate n l).flatten[i]? = l[i % l.length]? := by
  induction n generalizing i with
  | zero => omega
  | succ n ih =>
    rw [List.replicate_succ, List.flatten_cons]
    by_cases first : i < l.length
    · rw [List.getElem?_append_left first, Nat.mod_eq_of_lt first]
    · rw [Nat.succ_mul] at hi
      rw [List.getElem?_append_right (Nat.le_of_not_lt first), ih (by omega),
        ← Nat.mod_eq_sub_mod (Nat.le_of_not_lt first)]

/-- Settles O47: sixteen copies of one symbol or more reach every nibble. -/
theorem shortAlphabetIsRepeated : Obligations.ShortAlphabetIsRepeated := by
  intro al t v hlo hhi
  have count : (al.toList.take t).length = t := by
    rw [List.length_take, Vector.length_toList]
    exact Nat.min_eq_left hhi
  have inside : v.toNat % (al.toList.take t).length < (al.toList.take t).length := Nat.mod_lt _ (by omega)
  rw [getElem?_flatten_replicate _ (by have := v.isLt; omega), sym16_eq_getD al hlo hhi,
    List.getD_eq_getElem _ _ inside, List.getElem?_eq_getElem inside]

end Sys2Proof.Machine

namespace Sys2Proof.Source

open Sys2Proof.Machine

/-! The selected indices (R137). -/

/-- The indices that `enc16` selects: the nibbles. -/
def indices16 (ws : List Word) : List (Fin 16) := (ws.flatMap nibbles).map BitVec.toFin

/-- R135 with a full alphabet: `v mod 16` is `v`. -/
theorem enc16_eq_map_indices16 (ws : List Word) (al : Vector Symbol 16) :
    enc16 ws al.toList none = (indices16 ws).map fun v => al[v] := by
  rw [enc16, capped, indices16, List.map_map]
  refine List.map_congr_left fun v _ => ?_
  have below : v.toNat % al.toList.length = v.toNat := by
    rw [Vector.length_toList]
    exact Nat.mod_eq_of_lt v.isLt
  rw [below, List.getD_eq_getElem _ _ (by rw [Vector.length_toList]; exact v.isLt), Vector.getElem_toList]
  rfl

/-- The symbols of the string replaced one by one. -/
def Accu.relabel (f : Symbol → Symbol) (a : Accu) : Accu := { a with out := a.out.map f }

section
variable {f : Symbol → Symbol} {al al' : Vector Symbol 64} (hf : ∀ v : Fin 64, f al[v] = al'[v])
include hf

namespace Accu

theorem relabel_emit (a : Accu) : (a.relabel f).emit al' = (a.emit al).relabel f := by
  have symbol : f (al[a.acc % 64]'(Nat.mod_lt _ (by decide))) = al'[a.acc % 64]'(Nat.mod_lt _ (by decide)) :=
    hf ⟨a.acc % 64, Nat.mod_lt _ (by decide)⟩
  simp only [emit, relabel, List.map_cons, symbol]

/-- The loop looks at the accumulator and the bit count only. -/
theorem relabel_drain (thr : Int) (fuel : Nat) (a : Accu) :
    (a.relabel f).drain al' thr fuel = (a.drain al thr fuel).relabel f := by
  induction fuel generalizing a with
  | zero => rfl
  | succ fuel ih =>
    by_cases more : thr ≤ a.bc
    · rw [drain_of_le (a := a.relabel f) more, drain_of_le more, relabel_emit hf, ih]
    · rw [drain_of_lt (a := a.relabel f) more, drain_of_lt more]

theorem relabel_step (ws : List Word) (a : Accu) (i : Nat) :
    (a.relabel f).step al' ws i = (a.step al ws i).relabel f :=
  relabel_drain hf _ _ (a.enter (chunk64 ws i))

end Accu

/-- R137: one alphabet mapped to another maps the string of the one to that of the other. -/
theorem map_enc64 (ws : List Word) : (enc64 ws al none).map f = enc64 ws al' none := by
  have strings := List.foldl_hom (Accu.relabel f) (l := List.range (2 * ws.length)) (init := .start)
    (Accu.relabel_step hf ws)
  rw [enc64_eq_capped, enc64_eq_capped]
  exact (congrArg Accu.out strings).symm

end

/-- The alphabet in which each symbol is its own index. -/
def indexAlphabet : Vector Symbol 64 := Vector.ofFn fun v => BitVec.ofNat 8 v

/-- The indices that `enc64` selects: its string in the alphabet of the indices. -/
def indices64 (ws : List Word) : List (Fin 64) := (enc64 ws indexAlphabet none).map fun c => Fin.ofNat 64 c.toNat

theorem ofNat_indexAlphabet : ∀ v : Fin 64, Fin.ofNat 64 (indexAlphabet[v]).toNat = v := by decide

/-- R155, R137: the string in the alphabet of the indices, mapped to the symbols of any other. -/
theorem enc64_eq_map_indices64 (ws : List Word) (al : Vector Symbol 64) :
    enc64 ws al none = (indices64 ws).map fun v => al[v] := by
  rw [indices64, List.map_map]
  exact (map_enc64 (fun v => congrArg (fun w : Fin 64 => al[w]) (ofNat_indexAlphabet v)) ws).symm

/-- An alphabet of distinct symbols can be mapped back to any other, symbol by symbol. -/
theorem exists_back {n : Nat} {al : Vector Symbol n} (distinct : al.toList.Nodup) (target : Vector Symbol n) :
    ∃ back : Symbol → Symbol, ∀ v : Fin n, back al[v] = target[v] := by
  have injective : Function.Injective fun v : Fin n => al[v] := fun v w h => by
    refine Fin.ext ((distinct.getElem_inj_iff (hi := by simp) (hj := by simp)).1 ?_)
    simpa using h
  exact ⟨Function.extend (fun v : Fin n => al[v]) (fun v => target[v]) (fun _ => 0), injective.extend_apply _ _⟩

end Sys2Proof.Source

namespace Sys2Proof.Machine

open Sys2Proof.Source

/-- Settles O46: the indices are those of the words alone, and the map back is one of the alphabets. -/
theorem alphabetSubstitutionLaw : Obligations.AlphabetSubstitutionLaw := by
  refine ⟨⟨indices16, enc16_eq_map_indices16⟩, ⟨indices64, enc64_eq_map_indices64⟩,
    fun al distinct => ?base16, fun al distinct => ?base64⟩
  case base16 =>
    obtain ⟨back, hback⟩ := exists_back distinct D16
    refine ⟨back, fun ws => ?_⟩
    rw [enc16_eq_map_indices16, enc16_eq_map_indices16, List.map_map]
    exact List.map_congr_left fun v _ => hback v
  case base64 =>
    obtain ⟨back, hback⟩ := exists_back distinct D64
    exact ⟨back, map_enc64 hback⟩

end Sys2Proof.Machine
end

section
/-! The rules of the Base64-variant encoder as commands, and the natural length (43_base64v.md R160, R163, R164). -/

namespace Sys2Proof.Machine

/-- Settles O38: the write where the index is in range, and each check where it is the first to fail. -/
theorem a64setRule : Obligations.A64setRule := by
  refine ⟨fun idx ch s h => ?run, fun idx ch s h => ?range, fun hi idx lo ch s h => ?reserved⟩
  case run =>
    rw [exec_of_no_fault ((firstFault_a64set_none_iff 0 idx 0 ch s).2 ⟨rfl, rfl, h⟩), set_eq_setIfInBounds]
    rfl
  case range => exact exec_of_rangeBroken (i := .a64set 0 idx 0 ch) (c := .range) rfl rfl (if_pos h)
  case reserved => exact exec_of_illFormed (i := .a64set hi idx lo ch) (formatS_reserved h) s

/-- R22: a string written where `ACC` and `BC` are 0 leaves them at 0. -/
theorem EncUnit.Fits.withString_eq {cfg : Config} {u : EncUnit} (h : u.Fits cfg) (str : List Symbol) :
    u.withString str = { u with
      OSTR := str ++ u.OSTR.drop str.length
      OLEN := BitVec.ofNat 17 str.length
      ACC := 0
      BC := 0 } := by
  rw [EncUnit.withString, ← h.acc_zero, ← h.bc_zero]

/-- Settles O40: `exec_enc64`, and the natural length before the cap. -/
theorem enc64Rule : Obligations.Enc64Rule := by
  refine ⟨fun ce sel cap s hs hc => ?run, fun sel cap s h => ?reserved⟩
  case run =>
    have run := (exec_enc64 hs hc sel).2
    have length := enc64_source_length s.enc.words (s.enc.alphabet64 sel) (capOf ce cap)
    rw [hs.fits.withString_eq] at run
    rw [cappedLength_capOf, hs.fits.words_length, naturalLength64] at length
    exact ⟨run, length⟩
  case reserved => exact exec_of_illFormed (i := .enc64 false sel cap) (beq_false_of_ne h) s

/-- Settles O42: `enc64_source_length` without a cap; the listed values are arithmetic. -/
theorem enc64NaturalLength : Obligations.Enc64NaturalLength :=
  ⟨fun ws al => enc64_source_length ws al none, by decide, by decide⟩

end Sys2Proof.Machine
end

section
/-! The registers `ACC` and `BC` of `ENC64` (43_base64v.md R165): what waits in `ACC` has `BC` bits, so a chunk enters
above it. -/

namespace Sys2Proof.Machine

/-- Bits joined above a number that does not reach them are added. -/
theorem or_shiftLeft_of_lt {x k : Nat} (h : x < 2 ^ k) (r : Nat) : x ||| r <<< k = x + r * 2 ^ k := by
  rw [Nat.or_comm, ← Nat.shiftLeft_add_eq_or_of_lt h, Nat.shiftLeft_eq, Nat.add_comm]

/-- What waits and the chunk above it have 16 bits more. -/
theorem add_chunk_lt (chunk : BitVec 16) {x k : Nat} (h : x < 2 ^ k) : x + chunk.toNat * 2 ^ k < 2 ^ (k + 16) :=
  calc x + chunk.toNat * 2 ^ k
      _ < (chunk.toNat + 1) * 2 ^ k := by rw [Nat.add_one_mul]; omega
      _ ≤ 2 ^ 16 * 2 ^ k := Nat.mul_le_mul_right _ chunk.isLt
      _ = 2 ^ (k + 16) := by rw [Nat.pow_add, Nat.mul_comm]

namespace Enc64Loop

/-- `BC` read as a number where its sign is not set. -/
theorem BC_toNat {l : Enc64Loop} (h : 0 ≤ l.BC.toInt) : (l.BC.toNat : Int) = l.BC.toInt := by
  have := BitVec.toInt_eq_toNat_cond l.BC
  split at this <;> omega

/-- A chunk entered above what waits (R165: it loses no bit and does not overlap `ACC`). -/
theorem enter_ACC (chunk : BitVec 16) {l : Enc64Loop} (hbc : l.BC.toNat ≤ 5) (hacc : l.ACC.toNat < 2 ^ l.BC.toNat) :
    (l.enter chunk).ACC.toNat = l.ACC.toNat + chunk.toNat * 2 ^ l.BC.toNat := by
  show (l.ACC ||| chunk.setWidth 21 <<< l.BC.toNat).toNat = _
  rw [BitVec.toNat_or, Tracks.shifted_chunk chunk hbc, or_shiftLeft_of_lt hacc]

/-- `ACC < 2^BC` after a symbol taken from six bits or more. -/
theorem emit_ACC_lt (cap : Option Nat) (al : Vector Symbol 64) {l : Enc64Loop} (hbc : 6 ≤ l.BC.toInt)
    (hacc : l.ACC.toNat < 2 ^ l.BC.toNat) : (l.emit cap al).ACC.toNat < 2 ^ (l.emit cap al).BC.toNat := by
  have before := BC_toNat (l := l) (by omega)
  have fewer := emit_BC cap al (l := l) (by omega)
  have after := BC_toNat (l := l.emit cap al) (by omega)
  show (l.ACC >>> 6).toNat < _
  rw [BitVec.toNat_ushiftRight, Nat.shiftRight_eq_div_pow, Nat.div_lt_iff_lt_mul (by decide), ← Nat.pow_add,
    show (l.emit cap al).BC.toNat + 6 = l.BC.toNat by omega]
  exact hacc

/-- `ACC < 2^BC` through the `while` loop of a chunk that is not the last. -/
theorem drain_ACC_lt (cap : Option Nat) (al : Vector Symbol 64) (fuel : Nat) {l : Enc64Loop}
    (hacc : l.ACC.toNat < 2 ^ l.BC.toNat) :
    (l.drain cap al 6 fuel).ACC.toNat < 2 ^ (l.drain cap al 6 fuel).BC.toNat := by
  induction fuel generalizing l with
  | zero => exact hacc
  | succ fuel ih =>
    by_cases more : 6 ≤ l.BC.toInt
    · rw [drain_of_le more]
      exact ih (emit_ACC_lt cap al more hacc)
    · rw [drain_of_lt more]
      exact hacc

/-- R165: `ACC < 2^BC` before each chunk. -/
theorem ACC_lt (cap : Option Nat) (al : Vector Symbol 64) (ws : List Word) (ostr : List Symbol) {i : Nat}
    (hi : i < 2 * ws.length) :
    let l := (List.range i).foldl (step cap al ws) (start ostr (naturalLength64 ws.length))
    l.ACC.toNat < 2 ^ l.BC.toNat := by
  induction i with
  | zero => exact Nat.one_pos
  | succ i ih =>
    have waiting := ih (by omega)
    obtain ⟨hlo, hhi⟩ := (control cap al ws ostr (i := i) (by omega)).1 (by omega)
    rw [List.range_succ, List.foldl_append, List.foldl_cons, List.foldl_nil]
    generalize (List.range i).foldl (step cap al ws) (start ostr (naturalLength64 ws.length)) = l at *
    have bits := BC_toNat hlo
    have hbc := enter_BC (chunk64 ws i) hlo hhi
    have bits' := BC_toNat (l := l.enter (chunk64 ws i)) (by omega)
    rw [step, if_neg (by omega)]
    refine drain_ACC_lt cap al 6 ?_
    rw [enter_ACC _ (by omega) waiting, show (l.enter (chunk64 ws i)).BC.toNat = l.BC.toNat + 16 by omega]
    exact add_chunk_lt _ waiting

end Enc64Loop

/-- Settles O44: `control` bounds `BC` and `q`, `ACC_lt` bounds `ACC`, and `enter_ACC` is the chunk entered. -/
theorem accumulatorBounds : Obligations.AccumulatorBounds := by
  intro cap al ws ostr i
  refine ⟨fun hi => ?before, fun hi => ?after⟩
  case before =>
    obtain ⟨hlo, hhi⟩ := (Enc64Loop.control cap al ws ostr (Nat.le_of_lt hi)).1 hi
    have waiting := Enc64Loop.ACC_lt cap al ws ostr hi
    have bits := Enc64Loop.BC_toNat hlo
    have entered := Enc64Loop.enter_ACC (chunk64 ws i) (by omega) waiting
    refine ⟨hlo, hhi, waiting, Enc64Loop.enter_BC _ hlo hhi, Int.add_le_add_right hhi 16, entered,
      BitVec.isLt _⟩
  case after =>
    subst hi
    obtain ⟨hlo, hhi⟩ := (Enc64Loop.control cap al ws ostr (Nat.le_refl _)).2.1 rfl
    exact ⟨hlo, hhi, Enc64Loop.q_at_end cap al ws ostr⟩

end Sys2Proof.Machine
end

section
/-! The source's `enc64` as a number in base 64 (43_base64v.md R161): the chunks are the digits of the big-endian number
in base 2^16, low one first, and the symbols are its digits in base 64. -/

namespace Sys2Proof.Source

open Sys2Proof.Machine

/-! The big-endian number and its chunks. -/

theorem bigEndian_concat (ws : List Word) (w : Word) : bigEndian (ws ++ [w]) = bigEndian ws * 2 ^ 32 + w.toNat := by
  rw [bigEndian, List.foldl_append, List.foldl_cons, List.foldl_nil, bigEndian]

theorem bigEndian_lt (ws : List Word) : bigEndian ws < 2 ^ (16 * (2 * ws.length)) := by
  induction ws using List.reverseRecOn with
  | nil => decide
  | append_singleton ws w ih =>
    have := w.isLt
    rw [bigEndian_concat, List.length_append, List.length_singleton,
      show 16 * (2 * (ws.length + 1)) = 16 * (2 * ws.length) + 32 by omega, Nat.pow_add]
    omega

/-- One word more at the low end: its halves are the first two chunks. -/
theorem chunk64_concat (ws : List Word) (w : Word) (i : Nat) :
    chunk64 (ws ++ [w]) 0 = w.extractLsb' 0 16 ∧ chunk64 (ws ++ [w]) 1 = w.extractLsb' 16 16 ∧
    (i < 2 * ws.length → chunk64 (ws ++ [w]) (i + 2) = chunk64 ws i) := by
  refine ⟨by simp [chunk64], by simp [chunk64], fun hi => ?_⟩
  have word : (ws ++ [w]).length - 1 - (i + 2) / 2 = ws.length - 1 - i / 2 := by
    rw [List.length_append, List.length_singleton]
    omega
  have inside : ws.length - 1 - i / 2 < ws.length := by omega
  simp only [chunk64, word, List.getD_append _ _ _ _ inside, Nat.add_mod_right]

/-- The chunks are the digits in base 2^16. -/
theorem chunk64_toNat (ws : List Word) {i : Nat} (hi : i < 2 * ws.length) :
    (chunk64 ws i).toNat = bigEndian ws / 2 ^ (16 * i) % 2 ^ 16 := by
  induction ws using List.reverseRecOn generalizing i with
  | nil => exact absurd hi (Nat.not_lt_zero _)
  | append_singleton ws w ih =>
    have := w.isLt
    obtain ⟨low, high, -⟩ := chunk64_concat ws w 0
    rw [bigEndian_concat]
    match i with
    | 0 =>
      rw [low, BitVec.extractLsb'_toNat, Nat.shiftRight_zero]
      omega
    | 1 =>
      rw [high, BitVec.extractLsb'_toNat, Nat.shiftRight_eq_div_pow]
      omega
    | i + 2 =>
      have hi : i < 2 * ws.length := by rw [List.length_append, List.length_singleton] at hi; omega
      rw [(chunk64_concat ws w i).2.2 hi, ih hi, show 16 * (i + 2) = 32 + 16 * i by omega, Nat.pow_add,
        ← Nat.div_div_eq_div_mul, show (bigEndian ws * 2 ^ 32 + w.toNat) / 2 ^ 32 = bigEndian ws by omega]

/-- The number that the first `i` chunks make. -/
def lowChunks (ws : List Word) (i : Nat) : Nat := bigEndian ws % 2 ^ (16 * i)

theorem lowChunks_succ (ws : List Word) {i : Nat} (hi : i < 2 * ws.length) :
    lowChunks ws (i + 1) = lowChunks ws i + (chunk64 ws i).toNat * 2 ^ (16 * i) := by
  rw [lowChunks, lowChunks, chunk64_toNat ws hi, Nat.mul_add_one, Nat.pow_add, Nat.mod_mul, Nat.mul_comm (2 ^ (16 * i))]

theorem lowChunks_all (ws : List Word) : lowChunks ws (2 * ws.length) = bigEndian ws :=
  Nat.mod_eq_of_lt (bigEndian_lt ws)

/-! The digits that the loop takes. -/

/-- The symbol of the digit number `k` in base 64, the least significant digit being number 0. -/
def digit64 (al : Vector Symbol 64) (n k : Nat) : Symbol := al[n / 2 ^ (6 * k) % 64]'(Nat.mod_lt _ (by decide))

/-- The `m` symbols of the low digits, most significant first. -/
def digits64 (al : Vector Symbol 64) (n m : Nat) : List Symbol := ((List.range m).map (digit64 al n)).reverse

theorem digits64_succ (al : Vector Symbol 64) (n m : Nat) :
    digits64 al n (m + 1) = digit64 al n m :: digits64 al n m := by
  rw [digits64, List.range_succ, List.map_append, List.map_singleton, List.reverse_append]
  rfl

theorem digits64_getElem? (al : Vector Symbol 64) (n : Nat) {m p : Nat} (hp : p < m) :
    (digits64 al n m)[p]? = some (digit64 al n (m - 1 - p)) := by
  rw [digits64, List.getElem?_reverse (by simpa using hp), List.length_map, List.length_range, List.getElem?_map,
    List.getElem?_range (by omega)]
  rfl

/-- Bits added above the `m` low digits leave these. -/
theorem digits64_add_of_le (al : Vector Symbol 64) {n m b : Nat} (hb : 6 * m ≤ b) (r : Nat) :
    digits64 al (n + r * 2 ^ b) m = digits64 al n m := by
  rw [digits64, digits64, List.map_congr_left fun k hk => ?_]
  have hk : k < m := List.mem_range.1 hk
  have above : r * 2 ^ b = r * 2 ^ (b - 6 * k - 6) * 64 * 2 ^ (6 * k) := by
    rw [Nat.mul_assoc, Nat.mul_assoc, show (64 : Nat) = 2 ^ 6 by decide, ← Nat.pow_add, ← Nat.pow_add,
      show b - 6 * k - 6 + (6 + 6 * k) = b by omega]
  simp only [digit64, above, Nat.add_mul_div_right _ _ (Nat.two_pow_pos (6 * k)), Nat.add_mul_mod_self_right]

namespace Accu

/-- The variables of R155 after `b` bits that make the number `n`: the symbols are the low digits of `n`, and the
accumulator is what is left of `n`. -/
structure Holds (al : Vector Symbol 64) (b n : Nat) (a : Accu) : Prop where
  bits : a.bc + 6 * a.out.length = b
  acc : a.acc = n / 2 ^ (6 * a.out.length)
  out : a.out = digits64 al n a.out.length

namespace Holds

variable {al : Vector Symbol 64} {b n : Nat} {a : Accu}

theorem start (al : Vector Symbol 64) : Holds al 0 0 .start := ⟨rfl, rfl, rfl⟩

/-- A symbol is the next digit. -/
theorem emit (h : Holds al b n a) : Holds al b n (a.emit al) := by
  have count : (a.emit al).out.length = a.out.length + 1 := rfl
  refine ⟨?_, ?_, ?_⟩
  · have := h.bits
    have fewer : (a.emit al).bc = a.bc - 6 := rfl
    omega
  · show a.acc >>> 6 = _
    rw [h.acc, Nat.shiftRight_eq_div_pow, Nat.div_div_eq_div_mul, ← Nat.pow_add, count, Nat.mul_add_one]
  · rw [count, digits64_succ, ← h.out]
    simp only [Accu.emit, digit64, h.acc]

theorem drain (h : Holds al b n a) (thr : Int) (fuel : Nat) : Holds al b n (a.drain al thr fuel) := by
  induction fuel generalizing a with
  | zero => exact h
  | succ fuel ih =>
    by_cases more : thr ≤ a.bc
    · rw [drain_of_le more]
      exact ih h.emit
    · rw [drain_of_lt more]
      exact h

/-- A chunk is 16 bits above those of `n`. -/
theorem enter (h : Holds al b n a) (hn : n < 2 ^ b) (hbc : 0 ≤ a.bc) (r : BitVec 16) :
    Holds al (b + 16) (n + r.toNat * 2 ^ b) (a.enter r) := by
  have taken : b = a.bc.toNat + 6 * a.out.length := by have := h.bits; omega
  have waiting : a.acc < 2 ^ a.bc.toNat := by
    rw [h.acc, Nat.div_lt_iff_lt_mul (Nat.two_pow_pos _), ← Nat.pow_add, ← taken]
    exact hn
  refine ⟨?_, ?_, ?_⟩
  · have := h.bits
    have more : (a.enter r).bc = a.bc + 16 := rfl
    have count : (a.enter r).out = a.out := rfl
    rw [more, count]
    omega
  · show a.acc ||| r.toNat <<< a.bc.toNat = (n + r.toNat * 2 ^ b) / 2 ^ (6 * a.out.length)
    rw [or_shiftLeft_of_lt waiting, h.acc, taken, Nat.pow_add, ← Nat.mul_assoc,
      Nat.add_mul_div_right _ _ (Nat.two_pow_pos _)]
  · show a.out = digits64 al (n + r.toNat * 2 ^ b) a.out.length
    rw [digits64_add_of_le al (by omega), ← h.out]

end Holds

/-- R165 in the variables of R155: before a chunk the bit count is not negative. -/
theorem bc_nonneg (al : Vector Symbol 64) (ws : List Word) {i : Nat} (hi : i < 2 * ws.length) :
    0 ≤ ((List.range i).foldl (step al ws) .start).bc := by
  have room := (List.length_replicate (n := naturalLength64 ws.length) (a := (0 : Symbol))).ge
  rw [← (Enc64Loop.Tracks.foldl_step none al ws room (Nat.le_of_lt hi)).bc]
  exact ((Enc64Loop.control none al ws _ (Nat.le_of_lt hi)).1 hi).1

/-- After `i` chunks the loop holds the number that they make. -/
theorem holds_foldl (al : Vector Symbol 64) (ws : List Word) {i : Nat} (hi : i ≤ 2 * ws.length) :
    Holds al (16 * i) (lowChunks ws i) ((List.range i).foldl (step al ws) .start) := by
  induction i with
  | zero =>
    rw [lowChunks, Nat.mul_zero, Nat.pow_zero, Nat.mod_one]
    exact .start al
  | succ i ih =>
    have below : lowChunks ws i < 2 ^ (16 * i) := Nat.mod_lt _ (Nat.two_pow_pos _)
    rw [List.range_succ, List.foldl_append, lowChunks_succ ws (by omega)]
    exact ((ih (by omega)).enter below (bc_nonneg al ws (by omega)) (chunk64 ws i)).drain _ _

end Accu

/-- R161: the symbols are all the digits of the big-endian number, leading zeros included. -/
theorem enc64_eq_digits64 (ws : List Word) (al : Vector Symbol 64) :
    enc64 ws al none = digits64 al (bigEndian ws) (naturalLength64 ws.length) := by
  have string := (Accu.holds_foldl al ws (Nat.le_refl _)).out
  rw [lowChunks_all] at string
  rw [enc64_eq_capped, ← symbols64_length ws al]
  exact string

end Sys2Proof.Source

namespace Sys2Proof.Machine

/-- Settles O43: `enc64_eq_digits64`, digit by digit. -/
theorem enc64ClosedForm : Obligations.Enc64ClosedForm := by
  intro ws al p hp
  rw [Source.enc64_eq_digits64]
  exact Source.digits64_getElem? al (Source.bigEndian ws) hp

end Sys2Proof.Machine
end

section
/-! The rules of the control commands (44_control.md R170 to R172). -/

namespace Sys2Proof.Machine

/-- Settles O11: `SRST` has its effect where no bit of its argument is 1, which is `reinit` and the response. -/
theorem srstRule : Obligations.SrstRule :=
  ⟨fun s => ⟨_, exec_of_no_fault ((firstFault_srst_none_iff 0 s).2 rfl), (reinit_isReset s).answered 0 0, rfl, rfl, rfl⟩,
    fun rsvd s h => exec_of_formatN (i := .srst rsvd) rfl h s⟩

/-- Settles O19: `CLRE` has its effect where no bit of its argument is 1, in any phase. -/
theorem clreRule : Obligations.ClreRule :=
  ⟨fun s => exec_of_no_fault ((firstFault_clre_none_iff 0 s).2 rfl),
    fun rsvd s h => exec_of_formatN (i := .clre rsvd) rfl h s⟩

/-! `RDCSR` (R170). -/

/-- R24: `EF` is bit 2 of STATUS, above the two bits of `PHASE`. -/
theorem statusWord_eq_ofNat (s : State) :
    statusWord s = BitVec.ofNat 32 (s.hash.PHASE.bits.toNat + if s.err.EF then 4 else 0) := by
  unfold statusWord
  cases s.err.EF <;> cases s.hash.PHASE <;> rfl

/-- R170: `PHASE` takes three of the four values of its bits, with `EF` or without. -/
theorem statusValue_mem (s : State) :
    s.hash.PHASE.bits.toNat + (if s.err.EF then 4 else 0) ∈ [0, 1, 2, 4, 5, 6] := by
  cases s.err.EF <;> cases s.hash.PHASE <;> decide

/-- `RDCSR` of a register answers its value and leaves the state alone. -/
theorem exec_rdcsr {idx : BitVec 16} {s : State} {v : Word} (h : csrRead idx.toNat s = some v) :
    exec (.rdcsr 0 idx) s = .next (s.answered 0 v) := by
  have register : idx.toNat ≤ 8 := by
    by_contra above
    rw [(csrRead_none_iff idx.toNat s).2 (Nat.lt_of_not_le above)] at h
    cases h
  rw [exec_of_no_fault ((firstFault_rdcsr_none_iff 0 idx s).2 ⟨rfl, register⟩), effect, h, Option.getD_some]

/-- Settles O18: a register's value is `csrRead` of its number, and each check where it is the first to fail. -/
theorem rdcsrRule : Obligations.RdcsrRule := by
  refine ⟨fun rsvd idx s hr => ?reserved, fun idx s h => ?range, fun s => ?read, statusValue_mem⟩
  case reserved => exact exec_of_illFormed (i := .rdcsr rsvd idx) (beq_false_of_ne hr) s
  case range => exact exec_of_rangeBroken (i := .rdcsr 0 idx) (c := .range) rfl rfl (if_pos h)
  case read =>
    rw [← statusWord_eq_ofNat]
    simp only [BitVec.ofNat_toNat]
    exact ⟨exec_rdcsr rfl, exec_rdcsr rfl, exec_rdcsr rfl, exec_rdcsr rfl, exec_rdcsr rfl, exec_rdcsr rfl,
      exec_rdcsr rfl, exec_rdcsr rfl, exec_rdcsr rfl⟩

end Sys2Proof.Machine
end

section
/-! The faults: the order of the checks, fault entry, and the end of a message by a terminal fault (60_exceptions.md R180
to R191). -/

namespace Sys2Proof.Machine

/-! Every input has a next state (R180). -/

theorem runInput_total (x : HostInput) (s : State) : ∃ t, runInput x s = .next t := by
  cases x with
  | cmd w => exact runCommand_total w s
  | rst p => exact ⟨s.reinit, rfl⟩

/-- Settles O7: with no input the core holds its state, and every input has a next state. -/
theorem everyStepAnswersNext : Obligations.EveryStepAnswersNext := by
  intro s
  cases hc : s.cmds with
  | nil => exact ⟨s, step_of_nil hc⟩
  | cons x rest =>
    rw [step_of_cons hc]
    exact runInput_total x _

/-! The code of the response (R189). -/

/-- A command answers the code of the first check that fails, or `OK`. -/
theorem exec_code (i : Instr) (s : State) :
    ∃ t d, exec i s = .next t ∧ t.rsps = s.rsps ++ [{ CODE := (firstFault i s).elim 0x00 FaultCode.code, DATA := d }] := by
  cases hf : firstFault i s with
  | some c => exact ⟨s.raise c i, 0, exec_of_fault hf, raise_rsps i s c⟩
  | none => exact ⟨effect i s, okData i s, exec_of_no_fault hf, effect_rsps i s⟩

/-- Settles O14: the opcode is checked by decoding, and `exec_code` has the other checks. -/
theorem faultPriority : Obligations.FaultPriority := by
  intro w s
  obtain ⟨i, hd, hw⟩ | ⟨hd, hw⟩ := runCommand_cases w s
  · rw [hd, hw]
    exact exec_code i s
  · rw [hd]
    exact ⟨_, 0, hw, rfl⟩

/-! Fault entry (R190). -/

/-- Every fault entry is that of a protocol fault or of a terminal one (R181). -/
theorem faultEntry_eq (c : FaultCode) (op : BitVec 8) (arg : BitVec 32) (s : State) :
    s.faultEntry c op arg = if c.terminal then s.terminalFault c.code op arg else s.protocolFault c.code op arg := by
  cases c <;> rfl

/-- A word that answers a fault code has taken fault entry, for its opcode or for the first check of its command that
fails. -/
theorem faultEntry_of_code_ne_zero {w : Command} {s t : State} {r : Response} (h : runCommand w s = .next t)
    (hr : t.rsps = s.rsps ++ [r]) (hcode : r.CODE ≠ 0) :
    ∃ c, r.CODE = c.code ∧ t = s.faultEntry c w.op w.arg ∧
      (c = .illop ∨ ∃ i, decode w = .ok i ∧ firstFault i s = some c) := by
  obtain ⟨i, hd, hw⟩ | ⟨-, hw⟩ := runCommand_cases w s
  · obtain ⟨c, hf, rfl⟩ | ⟨-, rfl⟩ := exec_cases (hw.symm.trans h)
    · obtain rfl : { CODE := c.code, DATA := 0 } = r := by simpa [raise_rsps] using hr
      exact ⟨c, rfl, by rw [State.raise, opcode_of_decode hd, arg_of_decode hd], .inr ⟨i, hd, hf⟩⟩
    · obtain rfl : { CODE := 0, DATA := okData i s } = r := by simpa [effect_rsps] using hr
      exact absurd rfl hcode
  · cases hw.symm.trans h
    obtain rfl : { CODE := 0x01, DATA := 0 } = r := by simpa using hr
    exact ⟨.illop, rfl, rfl, .inl rfl⟩

/-- Settles O15: the terminal codes are 4 and 6. -/
theorem faultEntryRule : Obligations.FaultEntryRule := by
  intro w s t r h hr hcode
  obtain ⟨c, hc, rfl, -⟩ := faultEntry_of_code_ne_zero h hr hcode
  rw [faultEntry_eq, hc]
  exact if_congr (terminal_iff_code c) rfl rfl

/-! Terminal faults (R191). -/

/-- `ABS` beyond a limit in an open message selects a terminal fault. -/
theorem firstFault_abs_terminal {code : BitVec 32} {s : State} (hp : s.hash.PHASE = .absorb)
    (hlim : 255 < code.toNat ∨ s.hash.LEN.toNat = 2 ^ 29 - 1) :
    ∃ c, firstFault (.abs code) s = some c ∧ c.terminal = true := by
  rw [firstFault_abs hp]
  by_cases hd : 255 < code.toNat
  · exact ⟨.domain, if_pos hd, rfl⟩
  · exact ⟨.lenovf, by rw [if_neg hd, if_pos (hlim.resolve_left hd)], rfl⟩

/-- R191: such an `ABS` sets the phase to IDLE and leaves the rest of the hash unit as it was. -/
theorem exec_abs_beyond_limit {code : BitVec 32} {s : State} (hp : s.hash.PHASE = .absorb)
    (hlim : 255 < code.toNat ∨ s.hash.LEN.toNat = 2 ^ 29 - 1) :
    ∃ t, exec (.abs code) s = .next t ∧ t.hash = { s.hash with PHASE := .idle } := by
  obtain ⟨c, hf, hc⟩ := firstFault_abs_terminal hp hlim
  exact ⟨s.raise c (.abs code), exec_of_fault hf, by rw [raise_hash, if_pos hc]⟩

/-- No command asks for phase IDLE (R64). -/
theorem phaseNeeded_ne_idle (i : Instr) : phaseNeeded i ≠ some .idle := by cases i <;> nofun

/-- In phase IDLE a command that asks for a phase is refused (R184). -/
theorem exec_of_idle {i : Instr} {s : State} {p : Phase} (hidle : s.hash.PHASE = .idle) (hw : i.wellFormed = true)
    (hp : phaseNeeded i = some p) : exec i s = .next (s.protocolFault 0x03 i.opcode i.arg) := by
  refine exec_of_phaseBroken hw ?_
  have not_idle : .idle ≠ p := by
    rintro rfl
    exact phaseNeeded_ne_idle i hp
  rw [phaseBroken, hp, hidle]
  exact bne_iff_ne.2 not_idle

/-- Of all commands only `HINIT` leaves phase IDLE: the others that move the phase need an open message or end in IDLE. -/
theorem eq_hinit_of_leaves_idle {i : Instr} {s t : State} (h : exec i s = .next t) (hs : s.hash.PHASE = .idle)
    (ht : t.hash.PHASE ≠ .idle) : i = .hinit 0 := by
  obtain rfl | ⟨-, hp⟩ | rfl | ⟨-, -, hp, -⟩ := exec_PHASE_ne h (hs ▸ ht)
  · rfl
  · cases hs.symm.trans hp
  · rw [eq_effect h ((firstFault_srst_none_iff 0 s).2 rfl), effect_PHASE] at ht
    exact absurd rfl ht
  · cases hs.symm.trans hp

/-- A word that answers the code of a terminal fault was an `ABS` in an open message. -/
theorem absorb_of_terminal_code {w : Command} {s t : State} {r : Response} (h : runCommand w s = .next t)
    (hr : t.rsps = s.rsps ++ [r]) (hcode : r.CODE = 0x04 ∨ r.CODE = 0x06) : s.hash.PHASE = .absorb := by
  have fault : r.CODE ≠ 0 := by obtain h | h := hcode <;> rw [h] <;> decide
  obtain ⟨c, hc, -, origin⟩ := faultEntry_of_code_ne_zero h hr fault
  have terminal : c.terminal = true := (terminal_iff_code c).2 (hc ▸ hcode)
  obtain rfl | ⟨i, -, hf⟩ := origin
  · cases terminal
  · obtain ⟨-, -, hp, -⟩ := terminal_is_abs hf terminal
    exact hp

/-- Settles O17: the terminal fault leaves phase IDLE, in which the phase check refuses the four commands. -/
theorem terminalFaultEndsMessage : Obligations.TerminalFaultEndsMessage := by
  refine ⟨fun code s hp hlim => ?_, fun _ _ _ => eq_hinit_of_leaves_idle, fun _ _ _ _ => absorb_of_terminal_code⟩
  obtain ⟨t, ht, hash⟩ := exec_abs_beyond_limit hp hlim
  have idle : t.hash.PHASE = .idle := by rw [hash]
  have len : t.hash.LEN = s.hash.LEN := by rw [hash]
  refine ⟨t, ht, hash, fun x => ?abs, ?hfin, fun idx => ?hrd, ?ewdig, ?rdcsr, ?hinit⟩
  case abs => exact exec_of_idle (i := .abs x) idle rfl rfl
  case hfin => exact exec_of_idle (i := .hfin 0) idle rfl rfl
  case hrd => exact exec_of_idle (i := .hrd 0 idx) idle rfl rfl
  case ewdig => exact exec_of_idle (i := .ewdig 0) idle rfl rfl
  case rdcsr =>
    rw [BitVec.ofNat_toNat, ← len]
    exact exec_rdcsr rfl
  case hinit => exact ⟨_, exec_of_no_fault ((firstFault_hinit_none_iff 0 t).2 rfl), effect_PHASE (.hinit 0) t⟩

end Sys2Proof.Machine
end

section
namespace Sys2Proof.Machine

/-! `rst` at the head of the host's channel (70_reset_and_hazards.md R210, R217). -/

/-- R210: the command in progress does not appear in the state after `rst`. -/
theorem step_of_rst {s : State} {p : Option Command} {rest : List HostInput} (h : s.cmds = .rst p :: rest) :
    step s = .next { s with cmds := rest }.reinit :=
  step_of_cons h

/-- Settles O13: each of the two states is reset, and two resets agree where the parameter, the channel and the responses
do. -/
theorem resetForgetsTheState : Obligations.ResetForgetsTheState := by
  intro s t s' t' p q rest hcfg hrsps hs ht hss' htt'
  cases (step_of_rst hs).symm.trans hss'
  cases (step_of_rst ht).symm.trans htt'
  exact State.Agree.reinit hcfg rfl hrsps

/-- Settles O12: the state is `reinit` of the one with `rst` taken off the channel, which keeps the responses. -/
theorem rstRule : Obligations.RstRule := by
  intro s rest
  have reset : { s with cmds := rest }.reinit.IsReset := reinit_isReset _
  exact ⟨_, reset, reinit_cfg _, reinit_cmds _, reinit_rsps _, fun _ => step_of_rst rfl⟩

end Sys2Proof.Machine
end
